-- ==== Sys2Proof/Word.lean ====
section
/-! DEFINITION. The words of the block and the plain vocabulary its operations speak of: bytes, addresses, the data-byte
index of DEC (10_state.md R22), line coding (R40), command records (30_encoding.md R100, R105) and the names of what the
decoder turns away (R108). Types only. -/

namespace Sys2Proof

/-- One byte of a stream, a buffer or the address space (20_memory.md R60). -/
abbrev Byte := BitVec 8

/-- An address of the virtual EEPROM, a u16 (20_memory.md R60). -/
abbrev Addr := BitVec 16

/-- `phaseCount` of DEC (10_state.md R22): "−1 = address phase, ≥0 = data-byte index", with its reachable values −1 to 127
and no others. DESIGN CHOICE, safe (log 8): the i8 is held as the thing it counts. -/
inductive Phase where
  /-- −1, the address phase -/
  | address
  /-- the index of the last data byte, 0 to 127 -/
  | data (i : Fin 128)
deriving DecidableEq, Repr

/-- Stop bits of a line coding, in the order of 10_state.md R40. -/
inductive StopBits where
  | one
  | onePointFive
  | two
deriving DecidableEq, Repr

/-- Parity of a line coding, in the order of 10_state.md R40. -/
inductive Parity where
  | none
  | odd
  | even
  | mark
  | space
deriving DecidableEq, Repr

/-- `lineCoding` of a port (10_state.md R40). -/
structure LineCoding where
  baudRate : BitVec 32
  stopBits : StopBits
  parity   : Parity
  dataBits : Byte
deriving DecidableEq, Repr

/-- One command as it crosses the command interface: the 16-bit word and the payload bytes that follow it in order
(30_encoding.md R100 (b), R105). The spec gives the word no byte order, so it stays one word (DESIGN CHOICE, log 24). -/
structure Cmd where
  word    : BitVec 16
  payload : List Byte
deriving DecidableEq, Repr

/-- An encoded operation: the status word of a byte event (format `EVT`) or a command (formats `CMD`, `CMD+n`)
(30_encoding.md R100). The received byte of an event stays in `rxReg` (R103). -/
inductive Code where
  | evt (stat : BitVec 5)
  | cmd (c : Cmd)
deriving DecidableEq, Repr

/-- Why the decoder turns a command away (30_encoding.md R106 and R108). -/
inductive DecodeError where
  /-- the payload has not the number of bytes R106 gives the command: no command at all -/
  | payloadLength
  /-- `SETLC` with stop-bits code `f > 2` (R108 (d)) -/
  | stopBitsCode
  /-- `SETLC` with parity code `y > 4` (R108 (d)) -/
  | parityCode
deriving DecidableEq, Repr

end Sys2Proof
end

