-- ==== Sys2Proof/Syntax.lean ====
section
/-! DEFINITION. The operations of the block: one constructor per row of spec/opcode_table.json, seven classes of byte event
(30_encoding.md R104) and fifteen rows of command codes (R106, R108). The status bits that a class does not fix are its
operands; `S` is carried and nothing reads it (R109). Fields that a command ignores (R108 (f)) are no operands (log 23). -/

namespace Sys2Proof

/-- One operation. In the byte events `da`, `st`, `rw`, `bf` are the status bits `DA`, `S`, `RW`, `BF` of 30_encoding.md
R101; in the commands `p` is the port number `cmd[11:8]` (R105). -/
inductive Instr where
  /-- `I2C.STOP`, 40_i2c_decoder.md R134 -/
  | i2cStop (da st rw bf : Bool)
  /-- `I2C.WADDR`, R135 -/
  | i2cWaddr (st bf : Bool)
  /-- `I2C.AHI`, R136 -/
  | i2cAhi (st bf : Bool)
  /-- `I2C.ALO`, R137 -/
  | i2cAlo (st bf : Bool)
  /-- `I2C.WDATA`, R138 -/
  | i2cWdata (st bf : Bool)
  /-- `I2C.RADDR`, R139 -/
  | i2cRaddr (st bf : Bool)
  /-- `I2C.RNEXT`, R140 -/
  | i2cRnext (st bf : Bool)
  /-- `INIT p`, 44_port_control.md R220 -/
  | init (p : Nat)
  /-- `PUT p, b`, 42_fifo_in.md R172 -/
  | put (p : Nat) (b : Byte)
  /-- `FLUSH p`, 42_fifo_in.md R173 -/
  | flush (p : Nat)
  /-- `TICK p`, 42_fifo_in.md R175 -/
  | tick (p : Nat)
  /-- `GET p`, 43_fifo_out.md R201 -/
  | get (p : Nat)
  /-- `PEEK p`, 43_fifo_out.md R202 -/
  | peek (p : Nat)
  /-- `INRDY p`, 42_fifo_in.md R178 -/
  | inrdy (p : Nat)
  /-- `OUTRDY p`, 43_fifo_out.md R203 -/
  | outrdy (p : Nat)
  /-- `SETLC p, coding`, 44_port_control.md R221 -/
  | setlc (p : Nat) (c : LineCoding)
  /-- `GETLC p`, 44_port_control.md R222 -/
  | getlc (p : Nat)
  /-- `SETCLS p, dtr, rts`, 44_port_control.md R223 -/
  | setcls (p : Nat) (dtr rts : Bool)
  /-- `I2CRESET`, 60_exceptions.md R263 -/
  | i2creset
  /-- `ASGET a`, 20_memory.md R62 and R73 -/
  | asget (a : Addr)
  /-- `ASSET a, v`, 20_memory.md R63 and R73 -/
  | asset (a : Addr) (v : Byte)
  /-- the reserved codes 0xE and 0xF with the whole word, 30_encoding.md R108 (a) -/
  | reserved (w : BitVec 16)
deriving DecidableEq, Repr

end Sys2Proof
end

