-- ==== Sys2Proof/WellFormed.lean ====
section
/-! DEFINITION. Which operations have an encoding: every operand fits the field that 30_encoding.md R105 gives it. Whether
the port exists and is initialised is asked of the state, not here (R108 (b), (c)). -/

namespace Sys2Proof

/-- A port number fits the 4-bit field `cmd[11:8]` (30_encoding.md R105). -/
def portFits (p : Nat) : Bool := decide (p < 16)

/-- The word of a reserved row has `op` 0xE or 0xF (30_encoding.md R106, R108 (a)). -/
def reservedWord (w : BitVec 16) : Bool := decide (0xE000 ≤ w.toNat)

/-- Every operand of `i` fits its field of the encoding (30_encoding.md R101, R105). -/
def wellFormed : Instr → Bool
  | .i2cStop _ _ _ _ => true
  | .i2cWaddr _ _ => true
  | .i2cAhi _ _ => true
  | .i2cAlo _ _ => true
  | .i2cWdata _ _ => true
  | .i2cRaddr _ _ => true
  | .i2cRnext _ _ => true
  | .init p => portFits p
  | .put p _ => portFits p
  | .flush p => portFits p
  | .tick p => portFits p
  | .get p => portFits p
  | .peek p => portFits p
  | .inrdy p => portFits p
  | .outrdy p => portFits p
  | .setlc p _ => portFits p
  | .getlc p => portFits p
  | .setcls p _ _ => portFits p
  | .i2creset => true
  | .asget _ => true
  | .asset _ _ => true
  | .reserved w => reservedWord w

end Sys2Proof
end

