-- ==== Sys2Proof/Decode.lean ====
section
/-! DEFINITION. Reading an encoded operation (30_encoding.md R100 to R108, R113) and, after it, writing one. Decoding is
total: a byte event always has a class (R104, R149), a command is an operation or is turned away by name. -/

namespace Sys2Proof

/-! ## Fields -/

/-- `DA`, bit 4 of the status word: 1 for a data byte, 0 for the address byte (R101). -/
def statDA (st : BitVec 5) : Bool := st.getLsbD 4
/-- `P`, bit 3: a Stop condition is present (R101). -/
def statP (st : BitVec 5) : Bool := st.getLsbD 3
/-- `S`, bit 2: a Start condition was seen last; no rule tests it (R101, R109). -/
def statS (st : BitVec 5) : Bool := st.getLsbD 2
/-- `RW`, bit 1: 1 for a read turn (R101). -/
def statRW (st : BitVec 5) : Bool := st.getLsbD 1
/-- `BF`, bit 0: `rxReg` holds an unread byte (R101). -/
def statBF (st : BitVec 5) : Bool := st.getLsbD 0

/-- The status word with these five bits (R101). -/
def packStat (da p s rw bf : Bool) : BitVec 5 :=
  BitVec.ofNat 5 (16 * da.toNat + 8 * p.toNat + 4 * s.toNat + 2 * rw.toNat + bf.toNat)

/-- `op = cmd[15:12]` (R105). -/
def cmdOp (w : BitVec 16) : Nat := (w.extractLsb' 12 4).toNat
/-- `port = cmd[11:8]` (R105). -/
def cmdPort (w : BitVec 16) : Nat := (w.extractLsb' 8 4).toNat
/-- `data = cmd[7:0]` (R105). -/
def cmdData (w : BitVec 16) : Byte := w.extractLsb' 0 8

/-- The 16-bit value with this high and this low byte, `hi ++ lo` (R107 (a)). -/
def word16 (hi lo : Byte) : BitVec 16 := hi ++ lo
/-- The high byte `v[15:8]` (R6). -/
def hiByte (v : BitVec 16) : Byte := v.extractLsb' 8 8
/-- The low byte `v[7:0]` (R6). -/
def loByte (v : BitVec 16) : Byte := v.extractLsb' 0 8

/-! ## Phase -/

/-- `sat_inc` of 00_scope.md R7 on a data-byte index: one more, but 127 stays 127 (40_i2c_decoder.md R145). -/
def satInc (i : Fin 128) : Fin 128 := if h : i.val < 127 then ⟨i.val + 1, by omega⟩ else i

/-- The phase update that opens every byte event (40_i2c_decoder.md R131): −1 on an address byte, else incremented. -/
def nextPhase (da : Bool) (ph : Phase) : Phase :=
  match da, ph with
  | false, _ => .address
  | true, .address => .data 0
  | true, .data i => .data (satInc i)

/-- `phaseCount` as the signed number of 10_state.md R22. -/
def phaseInt : Phase → Int
  | .address => -1
  | .data i => (i.val : Int)

/-! ## Line coding -/

/-- Stop-bits code `f` of the payload (R107 (b)); `f > 2` stands for nothing (R108 (d)). -/
def stopBitsOf (f : Byte) : Option StopBits :=
  match f.toNat with
  | 0 => some .one
  | 1 => some .onePointFive
  | 2 => some .two
  | _ => none

/-- Parity code `y` of the payload (R107 (b)); `y > 4` stands for nothing (R108 (d)). -/
def parityOf (y : Byte) : Option Parity :=
  match y.toNat with
  | 0 => some .none
  | 1 => some .odd
  | 2 => some .even
  | 3 => some .mark
  | 4 => some .space
  | _ => none

/-- The code of a stop-bits value (R107 (b)). -/
def stopBitsCode : StopBits → Byte
  | .one => 0
  | .onePointFive => 1
  | .two => 2

/-- The code of a parity value (R107 (b)). -/
def parityCode : Parity → Byte
  | .none => 0
  | .odd => 1
  | .even => 2
  | .mark => 3
  | .space => 4

/-- The 32-bit rate from its four bytes, least significant first: `r3 ++ r2 ++ r1 ++ r0` (R107 (b)). -/
def baudOf (r0 r1 r2 r3 : Byte) : BitVec 32 := r3 ++ r2 ++ r1 ++ r0

/-- The seven payload bytes `[r0, r1, r2, r3, f, y, d]` of a line coding (R107 (b)). -/
def codingBytes (c : LineCoding) : List Byte :=
  [c.baudRate.extractLsb' 0 8, c.baudRate.extractLsb' 8 8, c.baudRate.extractLsb' 16 8, c.baudRate.extractLsb' 24 8,
    stopBitsCode c.stopBits, parityCode c.parity, c.dataBits]

/-- The line coding that seven payload bytes stand for (R107 (b)), or why they stand for none (R108 (d)). -/
def codingOf : List Byte → Except DecodeError LineCoding
  | [r0, r1, r2, r3, f, y, d] =>
    match stopBitsOf f, parityOf y with
    | some sb, some pa => .ok ⟨baudOf r0 r1 r2 r3, sb, pa, d⟩
    | none, _ => .error .stopBitsCode
    | some _, none => .error .parityCode
  | _ => .error .payloadLength

/-! ## Decoding -/

/-- The class of a byte event, from its status word and the `phaseCount` before it (R104, R113), in the order of tests of
40_i2c_decoder.md R151: Stop, then read turn, then the updated `phaseCount`. -/
def decodeEvent (ph : Phase) (st : BitVec 5) : Instr :=
  if statP st then .i2cStop (statDA st) (statS st) (statRW st) (statBF st)
  else if statRW st then
    if statDA st then .i2cRnext (statS st) (statBF st) else .i2cRaddr (statS st) (statBF st)
  else match nextPhase (statDA st) ph with
    | .address => .i2cWaddr (statS st) (statBF st)
    | .data i =>
      if i.val = 0 then .i2cAhi (statS st) (statBF st)
      else if i.val = 1 then .i2cAlo (statS st) (statBF st)
      else .i2cWdata (statS st) (statBF st)

/-- A command with no payload bytes (R106). -/
def bare (payload : List Byte) (i : Instr) : Except DecodeError Instr :=
  match payload with
  | [] => .ok i
  | _ :: _ => .error .payloadLength

/-- The operation a command stands for (R105, R106, R107), or why it stands for none (R108). -/
def decodeCommand (c : Cmd) : Except DecodeError Instr :=
  match cmdOp c.word with
  | 0 => bare c.payload (.init (cmdPort c.word))
  | 1 => bare c.payload (.put (cmdPort c.word) (cmdData c.word))
  | 2 => bare c.payload (.flush (cmdPort c.word))
  | 3 => bare c.payload (.tick (cmdPort c.word))
  | 4 => bare c.payload (.get (cmdPort c.word))
  | 5 => bare c.payload (.peek (cmdPort c.word))
  | 6 => bare c.payload (.inrdy (cmdPort c.word))
  | 7 => bare c.payload (.outrdy (cmdPort c.word))
  | 8 =>
    match codingOf c.payload with
    | .ok coding => .ok (.setlc (cmdPort c.word) coding)
    | .error e => .error e
  | 9 => bare c.payload (.getlc (cmdPort c.word))
  | 10 => bare c.payload (.setcls (cmdPort c.word) (c.word.getLsbD 0) (c.word.getLsbD 1))
  | 11 => bare c.payload .i2creset
  | 12 =>
    match c.payload with
    | [hi, lo] => .ok (.asget (word16 hi lo))
    | _ => .error .payloadLength
  | 13 =>
    match c.payload with
    | [hi, lo] => .ok (.asset (word16 hi lo) (cmdData c.word))
    | _ => .error .payloadLength
  | _ => bare c.payload (.reserved c.word)

/-- Decoding on either interface; events need the `phaseCount` before them, commands need nothing (R113). -/
def decode (ph : Phase) : Code → Except DecodeError Instr
  | .evt st => .ok (decodeEvent ph st)
  | .cmd c => decodeCommand c

/-! ## Encoding -/

/-- The command word `op ++ port ++ data` (R105). -/
def cmdWord (op p : Nat) (d : Byte) : BitVec 16 := BitVec.ofNat 4 op ++ BitVec.ofNat 4 p ++ d

/-- A command without payload; a field the command ignores is written 0 (R106, R108 (f)). -/
def bareCode (op p : Nat) (d : Byte) : Code := .cmd ⟨cmdWord op p d, []⟩

/-- The encoding of an operation (R101, R104, R106, R107). -/
def encode : Instr → Code
  | .i2cStop da st rw bf => .evt (packStat da true st rw bf)
  | .i2cWaddr st bf => .evt (packStat false false st false bf)
  | .i2cAhi st bf => .evt (packStat true false st false bf)
  | .i2cAlo st bf => .evt (packStat true false st false bf)
  | .i2cWdata st bf => .evt (packStat true false st false bf)
  | .i2cRaddr st bf => .evt (packStat false false st true bf)
  | .i2cRnext st bf => .evt (packStat true false st true bf)
  | .init p => bareCode 0x0 p 0
  | .put p b => bareCode 0x1 p b
  | .flush p => bareCode 0x2 p 0
  | .tick p => bareCode 0x3 p 0
  | .get p => bareCode 0x4 p 0
  | .peek p => bareCode 0x5 p 0
  | .inrdy p => bareCode 0x6 p 0
  | .outrdy p => bareCode 0x7 p 0
  | .setlc p c => .cmd ⟨cmdWord 0x8 p 0, codingBytes c⟩
  | .getlc p => bareCode 0x9 p 0
  | .setcls p dtr rts => bareCode 0xA p (BitVec.ofNat 8 (2 * rts.toNat + dtr.toNat))
  | .i2creset => bareCode 0xB 0 0
  | .asget a => .cmd ⟨cmdWord 0xC 0 0, [hiByte a, loByte a]⟩
  | .asset a v => .cmd ⟨cmdWord 0xD 0 v, [hiByte a, loByte a]⟩
  | .reserved w => .cmd ⟨w, []⟩

/-- The values of `phaseCount` before the event at which a class of event arises (R104, R136 to R138); the other operations
arise at every value. -/
def arisesAt (i : Instr) (ph : Phase) : Bool :=
  match i with
  | .i2cAhi _ _ => decide (phaseInt ph = -1)
  | .i2cAlo _ _ => decide (phaseInt ph = 0)
  | .i2cWdata _ _ => decide (1 ≤ phaseInt ph)
  | .i2cStop _ _ _ _ => true
  | .i2cWaddr _ _ => true
  | .i2cRaddr _ _ => true
  | .i2cRnext _ _ => true
  | .init _ => true
  | .put _ _ => true
  | .flush _ => true
  | .get _ => true
  | .peek _ => true
  | .inrdy _ => true
  | .outrdy _ => true
  | .setlc _ _ => true
  | .getlc _ => true
  | .setcls _ _ _ => true
  | .i2creset => true
  | .asget _ => true
  | .asset _ _ => true
  | .reserved _ => true
  | .tick _ => true

/-! ## The opcode table's numbering -/

/-- How many payload bytes follow a command word, by its `op` (R106). -/
def payloadCount (w : BitVec 16) : Nat :=
  match cmdOp w with
  | 8 => 7
  | 12 => 2
  | 13 => 2
  | _ => 0

/-- Bytes `k`, `k + 1`, … of a number, byte 0 the least significant. -/
def bytesFrom (w : Nat) : Nat → Nat → List Byte
  | _, 0 => []
  | k, n + 1 => BitVec.ofNat 8 (w / 2 ^ (8 * k)) :: bytesFrom w (k + 1) n

/-- The encoded operation whose bits are `w` in the numbering of spec/opcode_table.json: a row of at most 8 bits is a
status word of 5 bits, a longer row a command word with its payload bytes from bit 16 on. -/
def codeOfTableWord (nbits w : Nat) : Option Code :=
  if nbits ≤ 8 then
    if w < 32 then some (.evt (BitVec.ofNat 5 w)) else none
  else
    some (.cmd ⟨BitVec.ofNat 16 w, bytesFrom w 2 (payloadCount (BitVec.ofNat 16 w))⟩)

/-- The operation the decoder reads from an instruction whose bits are `w`. A row of the table has no `phaseCount`: an
event is read at the power-on value −1 (R49), at which the word that `I2C.AHI`, `I2C.ALO` and `I2C.WDATA` share is an
`I2C.AHI` (DESIGN CHOICE, log 12). -/
def decodeTableWord (nbits w : Nat) : Option Instr :=
  match codeOfTableWord nbits w with
  | none => none
  | some code =>
    match decode .address code with
    | .ok i => some i
    | .error _ => none

end Sys2Proof
end

