-- ==== Sys2Proof/Config.lean ====
section
/-! DEFINITION. The parameters of 00_scope.md R5. A parameter the source leaves OPEN is an opaque constant of the range R5
gives it: nothing can be proved of its value but the range (log 4). The decided ones are numbers. -/

namespace Sys2Proof.Config

/-- `PORTS` of this hardware (R5). -/
def ports : Nat := 2

/-- `I2C_ADDR`, the 7-bit slave address (R5). -/
def i2cAddr : BitVec 7 := 0x51

/-- `POINTER_RESET` (R5, D10). -/
def pointerReset : Addr := 0x0000
/-- `SHADOW_RESET` (R5, D10). -/
def shadowReset : BitVec 16 := 0x0000
/-- `STAGED_RESET` (R5, D10). -/
def stagedReset : Byte := 0x00

/-- `SENT_UNMAPPED` (R5, 60_exceptions.md R261). -/
def sentUnmapped : Byte := 0xFF
/-- `SENT_CHANNEL` (R5, R261). -/
def sentChannel : Byte := 0xFD
/-- `SENT_FIELD` (R5, R261). -/
def sentField : Byte := 0xFE

/-- What a writable byte of the address space holds before anything wrote it. 20_memory.md R82 makes the start contents of
the stores inputs of the run; the model names one (DESIGN CHOICE, unsafe, log 2). -/
def unlistedByte : Byte := 0x00

/-- `PARTIAL_COMMIT_POLICY` (R5, D4; 90_conflicts.md C1): what a lone first address byte does to `pointer`. -/
inductive CommitPolicy where
  /-- the decided value: `shadow` only -/
  | shadowOnly
  /-- the named alternative: `pointer` takes the half-new `shadow` -/
  | pointerFromShadow
deriving DecidableEq, Repr

/-- The two build configurations of the packet size `N` (R5: "OPEN in {16, 32}"). -/
inductive PacketSize where
  | bytes16
  | bytes32
deriving DecidableEq, Repr, Inhabited

/-- `N`, OPEN (R5). -/
opaque packetSize : PacketSize

/-- `T - 1`, OPEN: `T` is 1 to 255 (R5). -/
opaque tickSteps : Fin 255

/-- `CLOCK_FREQ - 1`, OPEN: `CLOCK_FREQ > 0` (R5). -/
opaque clockSteps : Nat

/-- `TELEM_CHANNELS`, OPEN: 0 to 16 (R5). -/
opaque telemChannels : Fin 17

/-- `IDENTITY_BLOB`, OPEN: byte by offset (R5, 20_memory.md R64). -/
opaque identityByte : Nat → Byte

/-- A packet size as a number of bytes (R5). -/
def packetBytes : PacketSize → Nat
  | .bytes16 => 16
  | .bytes32 => 32

end Sys2Proof.Config
end

