-- ==== Sys2Proof/Machine/State.lean ====
section
/-! DEFINITION. The state of the block as plain data: unit DEC (10_state.md R20 to R29), the ports of unit FIFO (R31 to R43,
R51), the backing stores (20_memory.md R82), the parameters of the run (00_scope.md R5), the operations part-way (R7, R9),
the schedule of the agents and the output trace (R50); the reasons a step can stop; and the state after power-on (R49). -/

namespace Sys2Proof.Machine

/-! ## Parameters -/

/-- The parameters of the run (00_scope.md R5). No step writes them; State carries them so that a claim about every state
quantifies over them (DESIGN CHOICE, log 4). -/
structure Params where
  /-- `N` -/
  packetSize : Nat
  /-- `T` -/
  flushTicks : Nat
  /-- `CLOCK_FREQ` in Hz -/
  clockFreq : Nat
  /-- `IDENTITY_BLOB`, 1024 bytes -/
  identity : List Byte
  /-- `PARTIAL_COMMIT_POLICY` -/
  commitPolicy : Config.CommitPolicy
  /-- `TICK_FLUSH_BLOCKS` -/
  tickFlushBlocks : Bool
deriving DecidableEq, Repr

/-! ## Unit DEC -/

/-- The derived bus phase of 10_state.md R29 and 40_i2c_decoder.md R148, a ghost label of the last handled event. -/
inductive BusPhase where
  | idle
  | addrHi
  | addrLo
  | streamWrite
  | streamRead
deriving DecidableEq, Repr

/-- The registers of unit DEC and those it shares with the I2C peripheral. -/
structure Dec where
  /-- R20 -/
  pointer : Addr
  /-- R21 -/
  shadow : BitVec 16
  /-- R22 -/
  phaseCount : Phase
  /-- R23 -/
  stagedValue : Byte
  /-- R24 -/
  rxReg : Byte
  /-- R25 -/
  txReg : Byte
  /-- R26 -/
  sclHeld : Bool
  /-- R27: `DA P S RW BF`; bit 0 is also `rxFull` of R24 (log 9) -/
  stat : BitVec 5
  /-- R28 -/
  wcolLatch : Bool
  /-- R28 -/
  rxOvfLatch : Bool
  /-- ghost of R29; no outcome depends on it (log 10) -/
  busPhase : BusPhase
  /-- the MODEL's field for the enabling condition of `I2CP.SAMPLE`, 46_environment.md R243: the last handled event was a
  read turn and no sample has been taken since (log 10) -/
  sampleDue : Bool
deriving DecidableEq, Repr

/-! ## Unit FIFO -/

/-- Buffers A and B of one direction of a port (10_state.md R32): the written bytes by index, indices rising. An index not
listed holds no value (U7, log 3). -/
structure BufPair where
  a : List Host.Cell
  b : List Host.Cell
deriving DecidableEq, Repr

/-- A descriptor shared with the endpoint hardware (R42, R43). -/
structure Descriptor where
  owned  : Bool
  bufIsA : Bool
  count  : Byte
  toggle : Bool
deriving DecidableEq, Repr

/-- Which command requested a hand-off (R39). -/
inductive Origin where
  | put
  | flush
deriving DecidableEq, Repr

/-- A requested hand-off standing at its hold (R39). -/
structure InWait where
  len    : Byte
  origin : Origin
deriving DecidableEq, Repr

/-- `controlLine` (R41). -/
structure ControlLine where
  dtr : Bool
  rts : Bool
deriving DecidableEq, Repr

/-- One port of unit FIFO. -/
structure Port where
  /-- R32 -/
  inBuf : BufPair
  /-- R32 -/
  outBuf : BufPair
  /-- R33 -/
  inLen : Byte
  /-- R33 -/
  outLen : Byte
  /-- R34 -/
  outCnt : Byte
  /-- R35 -/
  activeInIsA : Bool
  /-- R35 -/
  activeOutIsA : Bool
  /-- R36 -/
  timeoutCounter : Byte
  /-- R37 -/
  zlpPending : Bool
  /-- R38 -/
  flushInProgress : Bool
  /-- R39 -/
  inWait : Option InWait
  /-- R40 -/
  lineCoding : LineCoding
  /-- R41 -/
  controlLine : ControlLine
  /-- R51 -/
  inited : Bool
  /-- `IN[p]`, R42 -/
  inDesc : Descriptor
  /-- `OUT[p]`, R43 -/
  outDesc : Descriptor
deriving DecidableEq, Repr

/-! ## Backing stores -/

/-- The writable bytes of the address space (Eeprom, SerialId, Outputs; 20_memory.md R61, R82), each at its address. -/
abbrev Memory := List Host.Cell

/-- One Telemetry record (20_memory.md R66, R82). -/
structure TelemRec where
  enabled : Bool
  updateCounter : Byte
  value : BitVec 16
deriving DecidableEq, Repr

/-! ## Operations part-way and the schedule -/

/-- The command `APP` stands at a hold with (00_scope.md R7, R9 (a); 42_fifo_in.md R171, R177; 43_fifo_out.md R206). -/
inductive AppHold where
  /-- `PUT p, b` at its first line -/
  | putEntry (p : Nat) (b : Byte)
  /-- `PUT p` at the hold of its hand-off -/
  | putHandoff (p : Nat)
  /-- `FLUSH p` at its first line -/
  | flushEntry (p : Nat)
  /-- `FLUSH p` at the hold of its hand-off -/
  | flushHandoff (p : Nat)
  /-- `GET p` waiting for a completed OUT buffer -/
  | getSwap (p : Nat)
deriving DecidableEq, Repr

/-- The two fault latches of the I2C peripheral (46_environment.md R245). -/
inductive Latch where
  | wcol
  | rxovf
deriving DecidableEq, Repr

/-- Whose step comes next (00_scope.md R8, R9), with what the outside world chooses of it (46_environment.md). -/
inductive Turn where
  /-- `APP` goes on with its command at a hold, or issues the next command of its program -/
  | app
  /-- the frame-tick interrupt delivers this `TICK` command (60_exceptions.md R264) -/
  | tick (c : Cmd)
  /-- the tick handler standing at a hold looks at its condition again (R270) -/
  | tickResume
  /-- DEC handles the pending byte event (R130) -/
  | dec
  /-- `HWEP.INDONE(p)`, R240 -/
  | hwepInDone (p : Nat)
  /-- `HWEP.OUTDONE(p, bytes)`, R241 -/
  | hwepOutDone (p : Nat) (bytes : List Byte)
  /-- `I2CP.EVENT(stat, rx)`, R242 -/
  | i2cpEvent (stat : BitVec 5) (rx : Byte)
  /-- `I2CP.SAMPLE`, R243 -/
  | i2cpSample
  /-- `I2CP.LATCH(which)`, R245 -/
  | i2cpLatch (which : Latch)
  /-- `PROD.TELEM(ch, rec)`, R246 -/
  | prodTelem (ch : Nat) (rec : TelemRec)
  /-- `PROD.READPTR`, R246 -/
  | prodReadPtr
  /-- `ASGET` issued by `PROD` (30_encoding.md R106) -/
  | prodGet (a : Addr)
  /-- `ASSET` on the Outputs address number `i`, issued by `PROD` (R246) -/
  | prodOutput (i : Fin 3) (v : Byte)
deriving DecidableEq, Repr

/-! ## Outputs -/

/-- The value of a `RET` record (10_state.md R50; the returns of 30_encoding.md R106). -/
inductive RetVal where
  | byte (b : Byte)
  | bool (b : Bool)
  /-- `PEEK`: `some b` is (true, b), `none` is (false, -), which has no byte (43_fifo_out.md R202) -/
  | peek (b : Option Byte)
  /-- `GETLC`: the seven bytes -/
  | coding (bytes : List Byte)
  /-- what `PROD.READPTR` read (log 11) -/
  | pointer (v : Addr)
deriving DecidableEq, Repr

/-- One record of the output trace (10_state.md R50). -/
inductive Record where
  | submitIn (p : Nat) (isA : Bool) (len : Byte) (toggle : Bool)
  | pktIn (p : Nat) (bytes : List Byte) (toggle : Bool)
  | armOut (p : Nat) (isA : Bool) (toggle : Bool)
  | tx (b : Byte)
  | reenum
  | divisor (p : Nat) (d : BitVec 16)
  | ret (v : RetVal)
deriving DecidableEq, Repr

/-! ## The whole state -/

/-- The state of the block (10_state.md R52), with the model's own fields below `ports`. -/
structure State where
  params : Params
  dec : Dec
  mem : Memory
  /-- `telem[0 .. TELEM_CHANNELS-1]`: its length is `TELEM_CHANNELS` (log 4) -/
  telem : List TelemRec
  /-- one entry per port: its length is `PORTS` (R31) -/
  ports : List Port
  /-- what `APP` stands at a hold with (log 7) -/
  appHold : Option AppHold
  /-- the port whose flush the tick handler stands at a hold with (log 7) -/
  tickHold : Option Nat
  /-- the turns still to be taken, next one first (log 6) -/
  sched : List Turn
  /-- the commands `APP` still has to issue, next one first (log 6) -/
  appProg : List Cmd
  /-- the output trace, oldest record first (R50, log 11) -/
  trace : List Record
deriving DecidableEq, Repr

/-- Why a step stops with a fault. The block itself has no fault (00_scope.md R10, 60_exceptions.md R260). -/
inductive Fault where
  /-- `GET`, `PEEK` or `HWEP.INDONE` reads a packet-buffer byte that nothing has written: "`fault` if read" (U7). Safe: no
  state that a run reaches has it (10_state.md R44, R46). -/
  | unwrittenByte
deriving DecidableEq, Repr

/-- Why a step is refused (00_scope.md R10: "outside what this spec gives a meaning"). All are safe: nothing is claimed of
a refused run. -/
inductive Refusal where
  /-- an operation that has no meaning yet; raised by no arm of this model -/
  | notModelled (mnemonic : String)
  /-- `port >= PORTS` (30_encoding.md R108 (b)); raised by every command with a port operand -/
  | badPort
  /-- a command other than `INIT` on a port that was never initialised (R108 (c)) -/
  | notInited
  /-- a second `INIT p` (44_port_control.md R227, 70_reset_and_hazards.md R305) -/
  | alreadyInited
  /-- `op` 0xE or 0xF (R108 (a)) -/
  | reservedCommand
  /-- a command that the decoder turns away (R106, R108 (d)); raised by the step -/
  | undecodable (e : DecodeError)
  /-- `SETLC` with `baudRate = 0` (R224 (a)) -/
  | zeroBaud
  /-- `SETLC` with a divisor below 0 or above 0xFFFF (R224 (b), (c)) -/
  | divisorRange
  /-- a command issued by an agent that R106 does not let issue it; raised by the step (log 15) -/
  | wrongIssuer
  /-- a turn of the environment that its rule does not enable (46_environment.md R240 to R247); raised by the step (log 13) -/
  | notEnabled
deriving DecidableEq, Repr

/-! ## Power-on -/

/-- The parameters of the run as power-on finds them: the OPEN ones opaque, the decided ones as R5 decides (log 4, log 5). -/
def Params.reset : Params where
  packetSize := Config.packetBytes Config.packetSize
  flushTicks := Config.tickSteps.val + 1
  clockFreq := Config.clockSteps + 1
  identity := (List.range 1024).map Config.identityByte
  commitPolicy := .shadowOnly
  tickFlushBlocks := true

/-- Unit DEC after power-on (10_state.md R49, 70_reset_and_hazards.md R290). `rxReg`, `txReg`, `stat[4:1]` and the latches have
no value in the spec (DESIGN CHOICE, unsafe, log 1). -/
def Dec.reset : Dec where
  pointer := Config.pointerReset
  shadow := Config.shadowReset
  phaseCount := .address
  stagedValue := Config.stagedReset
  rxReg := 0
  txReg := 0
  sclHeld := false
  stat := 0
  wcolLatch := false
  rxOvfLatch := false
  busPhase := .idle
  sampleDue := false

/-- A port after power-on: `inited = false`, `inWait = none` (R49); the spec gives the rest no value before `INIT`
(DESIGN CHOICE, unsafe, log 1; buffers log 3). -/
def Port.reset : Port where
  inBuf := ⟨[], []⟩
  outBuf := ⟨[], []⟩
  inLen := 0
  outLen := 0
  outCnt := 0
  activeInIsA := false
  activeOutIsA := false
  timeoutCounter := 0
  zlpPending := false
  flushInProgress := false
  inWait := none
  lineCoding := ⟨0, .one, .none, 0⟩
  controlLine := ⟨false, false⟩
  inited := false
  inDesc := ⟨false, false, 0, false⟩
  outDesc := ⟨false, false, 0, false⟩

/-- The block right after power-on (10_state.md R49, 20_memory.md R82, 70_reset_and_hazards.md R290): nothing scheduled, no program,
nothing emitted. -/
def State.reset : State where
  params := Params.reset
  dec := Dec.reset
  mem := []
  telem := List.replicate Config.telemChannels.val ⟨false, 0, 0⟩
  ports := List.replicate Config.ports Port.reset
  appHold := none
  tickHold := none
  sched := []
  appProg := []
  trace := []

end Sys2Proof.Machine
end

