-- ==== Sys2Proof/Machine/Flags.lean ====
section
/-! DEFINITION. The state bits that operations set and test. The block has no condition codes (10_state.md R48): the bits are
`rxFull`, the ownership bits, `zlpPending`, `flushInProgress` and the two latches. -/

namespace Sys2Proof.Machine

/-- `rxFull`, "the status bit `BF` of the status word" (10_state.md R24, R27; DEDUCED: one bit under two names, log 9). -/
def rxFull (d : Dec) : Bool := d.stat.getLsbD 0

/-- The status word with `BF` cleared, the rest kept (R27, R132). -/
def clearBF (st : BitVec 5) : BitVec 5 := st &&& 0x1E

/-- `inReady`: the hardware does not own the IN descriptor (42_fifo_in.md R178). -/
def inReady (q : Port) : Bool := !q.inDesc.owned

/-- `outReady`: the hardware does not own the OUT descriptor (43_fifo_out.md R203). -/
def outReady (q : Port) : Bool := !q.outDesc.owned

/-- The flags a command sets in the same step as its hand-off: `PUT` sets `zlpPending` (42_fifo_in.md R172); `FLUSH` clears it
and leaves the guard (R173). -/
def finishIn (o : Origin) (q : Port) : Port :=
  match o with
  | .put => { q with zlpPending := true }
  | .flush => { q with zlpPending := false, flushInProgress := false }

/-- A set latch (46_environment.md R245). -/
def setLatch (which : Latch) (d : Dec) : Dec :=
  match which with
  | .wcol => { d with wcolLatch := true }
  | .rxovf => { d with rxOvfLatch := true }

/-- Both latches cleared (60_exceptions.md R263). -/
def clearLatches (d : Dec) : Dec := { d with wcolLatch := false, rxOvfLatch := false }

end Sys2Proof.Machine
end

