-- ==== Sys2Proof/Machine/Operands.lean ====
section
/-! DEFINITION. Operands: the port a command names (30_encoding.md R108 (b), (c)), a buffer of a pair (10_state.md R32), the
nibbles of a Telemetry offset (20_memory.md R66) and the divisor of a rate (44_port_control.md R221). -/

namespace Sys2Proof.Machine

/-- The outcome of one step of this machine. -/
abbrev Result := Host.Outcome State Fault Refusal

/-- Run a command on port `p`: refused if there is no such port (R108 (b)) or it was never initialised (R108 (c)). -/
def withPort (p : Nat) (s : State) (k : Port → Result) : Result :=
  match s.ports[p]? with
  | none => .refused .badPort
  | some q => if q.inited then k q else .refused .notInited

/-- Buffer A or B of a pair (R32: `buf[p][true]` is buffer A). -/
def BufPair.sel (bp : BufPair) (isA : Bool) : List Host.Cell := if isA then bp.a else bp.b

/-- The pair with one buffer replaced. -/
def BufPair.upd (bp : BufPair) (isA : Bool) (cells : List Host.Cell) : BufPair :=
  if isA then { bp with a := cells } else { bp with b := cells }

/-- The channel nibble `o[3:0]` (20_memory.md R66). -/
def telemChannel (o : Byte) : Nat := (o.extractLsb' 0 4).toNat

/-- The field nibble `o[7:4]` (R66). -/
def telemField (o : Byte) : Nat := (o.extractLsb' 4 4).toNat

/-- The divisor on unbounded integers (44_port_control.md R221): the quotient, less one when the rate exceeds twice the remainder. -/
def divisorOf (clock baud : Nat) : Int :=
  if baud > 2 * (clock % baud) then ((clock / baud : Nat) : Int) - 1 else ((clock / baud : Nat) : Int)

end Sys2Proof.Machine
end

