-- ==== Sys2Proof/Machine/Ops.lean ====
section
/-! DEFINITION. The operations the meanings share: cells, the address space (20_memory.md R62, R63, R66, R83), the opening and
the closing of a byte event (40_i2c_decoder.md R131, R132, R142), the read turn (R139, R140), the IN hand-off
(42_fifo_in.md R170) and flush (R173), the OUT swap (43_fifo_out.md R200). The block takes no exception and returns from none
(60_exceptions.md R260, R269, R270), so there is no such operation here. -/

namespace Sys2Proof.Machine

/-! ## Cells -/

/-- The value listed for a key. -/
def cellLookup : List Host.Cell → Nat → Option Byte
  | [], _ => none
  | (k, v) :: t, a => if k = a then some v else cellLookup t a

/-- The cells with `v` at key `a`, keys kept rising. -/
def cellInsert : List Host.Cell → Nat → Byte → List Host.Cell
  | [], a, v => [(a, v)]
  | (k, w) :: t, a, v =>
    if a < k then (a, v) :: (k, w) :: t
    else if a = k then (a, v) :: t
    else (k, w) :: cellInsert t a v

/-- The cells without key `a`. -/
def cellErase (m : List Host.Cell) (a : Nat) : List Host.Cell := m.filter (fun c => c.1 != a)

/-- The keys rise strictly. -/
def cellsSorted : List Host.Cell → Bool
  | [] => true
  | [_] => true
  | c :: d :: t => decide (c.1 < d.1) && cellsSorted (d :: t)

/-- A byte of the writable stores; an unlisted one reads as `Config.unlistedByte` (log 2). -/
def memRead (m : Memory) (a : Nat) : Byte := (cellLookup m a).getD Config.unlistedByte

/-- Store a byte, keeping the canonical form: the value that an unlisted address reads as is not listed. -/
def memWrite (m : Memory) (a : Nat) (v : Byte) : Memory :=
  if v = Config.unlistedByte then cellErase m a else cellInsert m a v

/-- The cells `k`, `k + 1`, … holding these bytes. -/
def cellsFrom : Nat → List Byte → List Host.Cell
  | _, [] => []
  | k, b :: bs => (k, b) :: cellsFrom (k + 1) bs

/-- Bytes `k .. k + n - 1` of a buffer, if all are written. -/
def readRun (buf : List Host.Cell) : Nat → Nat → Option (List Byte)
  | _, 0 => some []
  | k, n + 1 =>
    match cellLookup buf k, readRun buf (k + 1) n with
    | some b, some bs => some (b :: bs)
    | _, _ => none

/-! ## The address space -/

/-- The kinds of region (20_memory.md R61). -/
inductive Region where
  | identity
  | eeprom
  | telemetry
  | serialId
  | outputs
deriving DecidableEq, Repr

/-- A row of the region list: both bounds inclusive (R61). -/
structure RegionRow where
  kind  : Region
  first : Nat
  last  : Nat
deriving DecidableEq, Repr

/-- The region list in its declared order (R61). -/
def regionList : List RegionRow :=
  [⟨.identity, 0x0000, 0x03FF⟩, ⟨.eeprom, 0x0400, 0x04FF⟩, ⟨.telemetry, 0x0600, 0x06FF⟩,
    ⟨.serialId, 0x0700, 0x070F⟩, ⟨.outputs, 0x0800, 0x0802⟩]

/-- The region of an address: the first row that holds it, in declared order; none if unmapped (R83). -/
def regionAt (a : Nat) : Option Region :=
  (regionList.find? (fun r => decide (r.first ≤ a ∧ a ≤ r.last))).map RegionRow.kind

/-- The region is read/write (R61). -/
def regionWritable : Region → Bool
  | .identity => false
  | .eeprom => true
  | .telemetry => false
  | .serialId => true
  | .outputs => true

/-- The address is in a read/write region. -/
def writableAt (a : Nat) : Bool :=
  match regionAt a with
  | some r => regionWritable r
  | none => false

/-- The canonical form of the writable stores: addresses strictly rising, each in a read/write region, none listed with
the value an unlisted address reads as. -/
def Memory.wf (m : Memory) : Bool :=
  cellsSorted m && m.all (fun c => c.2 != Config.unlistedByte && writableAt c.1)

/-- `telemetry_get` (R66): channel test first, then the field. -/
def telemetryGet (telem : List TelemRec) (o : Byte) : Byte :=
  match telem[telemChannel o]? with
  | none => Config.sentChannel
  | some r =>
    match telemField o with
    | 0 => if r.enabled then 0x01 else 0x00
    | 1 => r.updateCounter
    | 2 => loByte r.value
    | 3 => hiByte r.value
    | _ => Config.sentField

/-- `AS_get(a)` = `MemRead(a, 1)` (R62). -/
def asGet (s : State) (a : Addr) : Byte :=
  match regionAt a.toNat with
  | some .identity => s.params.identity.getD a.toNat 0
  | some .eeprom => memRead s.mem a.toNat
  | some .telemetry => telemetryGet s.telem (loByte a)
  | some .serialId => memRead s.mem a.toNat
  | some .outputs => memRead s.mem a.toNat
  | none => Config.sentUnmapped

/-- Append a record to the output trace (00_scope.md R7 `emit`, 10_state.md R50). -/
def emit (r : Record) (s : State) : State := { s with trace := s.trace ++ [r] }

/-- Append records in order. -/
def emitAll (rs : List Record) (s : State) : State := { s with trace := s.trace ++ rs }

/-- The last address of the SerialId window, whose write requests re-enumeration (20_memory.md R67). -/
def reenumAddr : Addr := 0x070F

/-- `AS_set(a, v)` = `MemWrite(a, 1, v)` (R63): stores in a read/write region, discards elsewhere; `REENUM` after the store
at 0x070F (R67). -/
def asSet (a : Addr) (v : Byte) (s : State) : State :=
  match regionAt a.toNat with
  | some .identity => s
  | some .eeprom => { s with mem := memWrite s.mem a.toNat v }
  | some .telemetry => s
  | some .serialId =>
    if a = reenumAddr then emit .reenum { s with mem := memWrite s.mem a.toNat v }
    else { s with mem := memWrite s.mem a.toNat v }
  | some .outputs => { s with mem := memWrite s.mem a.toNat v }
  | none => s

/-! ## Byte events -/

/-- Phase update and capture, the first two actions of every event (40_i2c_decoder.md R131, R132): `phaseCount` takes `ph`; with
`BF` set the byte of `rxReg` goes to `stagedValue` and `rxFull` is cleared. -/
def openEvent (ph : Phase) (bf : Bool) (s : State) : State :=
  { s with dec := { s.dec with
      phaseCount := ph
      stagedValue := if bf then s.dec.rxReg else s.dec.stagedValue
      stat := if bf then clearBF s.dec.stat else s.dec.stat } }

/-- Release of the clock, the last action of every event (R142), with the model's labels of the handled event: the bus
phase (R148) and whether a byte was staged for the master (46_environment.md R243). -/
def closeEvent (label : BusPhase) (due : Bool) (s : State) : State :=
  { s with dec := { s.dec with sclHeld := false, busPhase := label, sampleDue := due } }

/-- The read turn (R139, R140, R141, R143): one `MemRead` at the pointer before the increment, pre-loaded into `txReg`. -/
def readTurn (s : State) : State :=
  { s with dec := { s.dec with pointer := s.dec.pointer + 1, txReg := asGet s s.dec.pointer } }

/-- The streamed write (R138): `MemWrite` at the pointer before the increment, of `stagedValue`. -/
def writeTurn (s : State) : State :=
  let t := asSet s.dec.pointer s.dec.stagedValue s
  { t with dec := { t.dec with pointer := t.dec.pointer + 1 } }

/-- The first address byte (R136): the high byte of `shadow`; under the alternative policy `pointer` follows (D4). -/
def stageHigh (s : State) : State :=
  let sh := word16 s.dec.stagedValue (loByte s.dec.shadow)
  { s with dec := { s.dec with
      shadow := sh
      pointer := match s.params.commitPolicy with
        | .shadowOnly => s.dec.pointer
        | .pointerFromShadow => sh } }

/-- The second address byte and the commit (R137): the low byte of `shadow`, then all of it to `pointer`. -/
def commitLow (s : State) : State :=
  let sh := word16 (hiByte s.dec.shadow) s.dec.stagedValue
  { s with dec := { s.dec with shadow := sh, pointer := sh } }

/-! ## Ports -/

/-- The state with port `p` replaced. -/
def setPort (p : Nat) (q : Port) (s : State) : State := { s with ports := s.ports.set p q }

/-- What an operation of one port comes to: it completes with records to emit, or stands at a hold (00_scope.md R10). -/
inductive PortStep where
  | done (q : Port) (out : List Record)
  | held (q : Port)
deriving DecidableEq, Repr

/-- The next state of an operation on port `p`; at a hold the issuing agent is marked by `mark` (R9 (a), R177). -/
def settle (p : Nat) (mark : State → State) (s : State) : PortStep → Result
  | .done q out => .next (emitAll out (setPort p q s))
  | .held q => .next (mark (setPort p q s))

/-- The length of the hand-off that stands at its hold (R171). Outside the states that runs reach `inWait` may be empty
there; then it is `inLen`, which a hold keeps (DESIGN CHOICE, safe, log 20). -/
def pendingLen (q : Port) : Byte :=
  match q.inWait with
  | some w => w.len
  | none => q.inLen

/-- The atomic block of `HANDOFF_IN` (R170). -/
def grantIn (len : Byte) (q : Port) : Port :=
  { q with
    inDesc := ⟨true, q.activeInIsA, len, !q.inDesc.toggle⟩
    activeInIsA := !q.activeInIsA
    inLen := 0
    inWait := none }

/-- The record of a hand-off of this port, with the new values (R170). -/
def submitRecord (p : Nat) (len : Byte) (q : Port) : Record := .submitIn p q.activeInIsA len (!q.inDesc.toggle)

/-- `HANDOFF_IN(p, len, origin)` (R170) with the flags its command sets in the same step (R172, R173): at once if the hardware
does not own the descriptor, else the request is recorded and holds (R171). -/
def handoffIn (p : Nat) (len : Byte) (o : Origin) (q : Port) : PortStep :=
  if q.inDesc.owned then .held { q with inWait := some ⟨len, o⟩ }
  else .done (finishIn o (grantIn len q)) [submitRecord p len q]

/-- A hand-off at its hold looks at the ownership bit again (R171). -/
def resumeIn (p : Nat) (o : Origin) (q : Port) : PortStep :=
  if q.inDesc.owned then .held q
  else .done (finishIn o (grantIn (pendingLen q) q)) [submitRecord p (pendingLen q) q]

/-- `FLUSH` past its first hold (R173, R174): a no-op under the guard; else the partial hand-off, the zero-length one, or
nothing. -/
def flushPort (p : Nat) (q : Port) : PortStep :=
  if q.flushInProgress then .done q []
  else if q.inLen ≠ 0 then handoffIn p q.inLen .flush { q with flushInProgress := true }
  else if q.zlpPending then handoffIn p 0 .flush { q with flushInProgress := true }
  else .done q []

/-- Append a byte to the IN buffer being filled (R172). -/
def appendIn (b : Byte) (q : Port) : Port :=
  { q with
    inBuf := q.inBuf.upd q.activeInIsA (cellInsert (q.inBuf.sel q.activeInIsA) q.inLen.toNat b)
    inLen := q.inLen + 1 }

/-- The atomic block of `SWAP_OUT` (43_fifo_out.md R200), `n` the packet size. -/
def swapOut (n : Nat) (q : Port) : Port :=
  { q with
    outCnt := q.outDesc.count
    outLen := q.outDesc.count
    activeOutIsA := q.outDesc.bufIsA
    outDesc := ⟨true, !q.outDesc.bufIsA, BitVec.ofNat 8 n, !q.outDesc.toggle⟩ }

/-- The record of a swap of this port, with the new values (R200). -/
def armRecord (p : Nat) (q : Port) : Record := .armOut p (!q.outDesc.bufIsA) (!q.outDesc.toggle)

/-- The index of the next unconsumed OUT byte (R205). -/
def readIndex (q : Port) : Nat := (q.outCnt - q.outLen).toNat

/-- The next unconsumed OUT byte, if it is written (R205, U7). -/
def nextOut (q : Port) : Option Byte := cellLookup (q.outBuf.sel q.activeOutIsA) (readIndex q)

end Sys2Proof.Machine
end

