-- ==== Sys2Proof/Machine/AddressSpace.lean ====
section
/-! DEFINITION. The direct accesses to the address space (20_memory.md R73): `ASGET`, `ASSET`. Neither moves `pointer`. -/

namespace Sys2Proof.Machine

/-- `ASGET a` (R62, R73). -/
def execAsget (a : Addr) (s : State) : Result := .next (emit (.ret (.byte (asGet s a))) s)

/-- `ASSET a, v` (R63, R73), with `REENUM` at 0x070F (R67). -/
def execAsset (a : Addr) (v : Byte) (s : State) : Result := .next (asSet a v s)

end Sys2Proof.Machine
end

