-- ==== Sys2Proof/Machine/FifoIn.lean ====
section
/-! DEFINITION. The IN path of unit FIFO (42_fifo_in.md): `PUT`, `FLUSH`, `TICK`, `INRDY`. A hold is a next state in which the
issuing agent is marked (00_scope.md R7, R10; log 7). -/

namespace Sys2Proof.Machine

/-- `PUT p, b` (R172): holds at its first line while a hand-off of the port is pending (R177); else appends, and hands the
full buffer off. -/
def execPut (p : Nat) (b : Byte) (s : State) : Result :=
  withPort p s fun q =>
    match q.inWait with
    | some _ => .next { s with appHold := some (.putEntry p b) }
    | none =>
      if (appendIn b q).inLen.toNat = s.params.packetSize then
        settle p (fun t => { t with appHold := some (.putHandoff p) }) s
          (handoffIn p (BitVec.ofNat 8 s.params.packetSize) .put (appendIn b q))
      else .next (setPort p (appendIn b q) s)

/-- `FLUSH p` issued by `APP` (R173). -/
def execFlush (p : Nat) (s : State) : Result :=
  withPort p s fun q =>
    match q.inWait with
    | some _ => .next { s with appHold := some (.flushEntry p) }
    | none => settle p (fun t => { t with appHold := some (.flushHandoff p) }) s (flushPort p q)

/-- The counter reset that follows a tick-driven flush which completed (R175). -/
def resetTicks : PortStep → PortStep
  | .done q out => .done { q with timeoutCounter := 0 } out
  | .held q => .held q

/-- What a tick does at its threshold (R175): the flush, unless a hand-off is pending (R176), or, when a tick-driven flush
must not wait, the hardware owns the descriptor (70_reset_and_hazards.md R294); then the counter reset. -/
def tickFlush (p : Nat) (blocks : Bool) (q : Port) : PortStep :=
  if q.inWait = none ∧ (blocks = true ∨ q.inDesc.owned = false) then resetTicks (flushPort p q)
  else .done { q with timeoutCounter := 0 } []

/-- The port after the increment that opens a tick (R175). -/
def countTick (q : Port) : Port := { q with timeoutCounter := q.timeoutCounter + 1 }

/-- `TICK p` (R175). -/
def execTick (p : Nat) (s : State) : Result :=
  withPort p s fun q =>
    if s.params.flushTicks ≤ (countTick q).timeoutCounter.toNat then
      settle p (fun t => { t with tickHold := some p }) s (tickFlush p s.params.tickFlushBlocks (countTick q))
    else .next (setPort p (countTick q) s)

/-- `INRDY p` (R178). -/
def execInrdy (p : Nat) (s : State) : Result :=
  withPort p s fun q => .next (emit (.ret (.bool (inReady q))) s)

end Sys2Proof.Machine
end

