-- ==== Sys2Proof/Machine/FifoOut.lean ====
section
/-! DEFINITION. The OUT path of unit FIFO (43_fifo_out.md): `GET`, `PEEK`, `OUTRDY`. -/

namespace Sys2Proof.Machine

/-- Return and consume the next byte of port `p`, whose state is `q` after the records `out` (R201, R205). -/
def takeByte (p : Nat) (q : Port) (out : List Record) (s : State) : Result :=
  match nextOut q with
  | none => .fault .unwrittenByte
  | some b => .next (emitAll (out ++ [.ret (.byte b)]) (setPort p { q with outLen := q.outLen - 1 } s))

/-- `GET p` (R201): a byte if one is left; else one swap of a completed buffer, which a zero-length packet leaves empty, so
that the command stands at its hold again; else the hold (R206). -/
def execGet (p : Nat) (s : State) : Result :=
  withPort p s fun q =>
    if q.outLen ≠ 0 then takeByte p q [] s
    else if q.outDesc.owned then .next { s with appHold := some (.getSwap p) }
    else if q.outDesc.count ≠ 0 then takeByte p (swapOut s.params.packetSize q) [armRecord p q] s
    else
      .next { emit (armRecord p q) (setPort p (swapOut s.params.packetSize q) s) with appHold := some (.getSwap p) }

/-- The answer of `PEEK` on a port whose state is `q`, after the records `out` (R202). -/
def peekByte (q : Port) (out : List Record) (s : State) : Result :=
  if q.outLen = 0 then .next (emitAll (out ++ [.ret (.peek none)]) s)
  else
    match nextOut q with
    | none => .fault .unwrittenByte
    | some b => .next (emitAll (out ++ [.ret (.peek (some b))]) s)

/-- `PEEK p` (R202): at most one swap, no hold, nothing consumed. -/
def execPeek (p : Nat) (s : State) : Result :=
  withPort p s fun q =>
    if q.outLen = 0 ∧ q.outDesc.owned = false then
      peekByte (swapOut s.params.packetSize q) [armRecord p q] (setPort p (swapOut s.params.packetSize q) s)
    else peekByte q [] s

/-- `OUTRDY p` (R203). -/
def execOutrdy (p : Nat) (s : State) : Result :=
  withPort p s fun q => .next (emit (.ret (.bool (outReady q))) s)

end Sys2Proof.Machine
end

