-- ==== Sys2Proof/Machine/I2cDecoder.lean ====
section
/-! DEFINITION. The seven classes of byte event of unit DEC (40_i2c_decoder.md R134 to R140). Each completes in one step from
every state (R149); `S` is read by none of them (30_encoding.md R109). That DEC has a step only while `sclHeld = 1` (R130) is
asked by the turn that calls them. -/

namespace Sys2Proof.Machine

/-- `I2C.STOP` (R134): phase update, capture, release; no access and no move of the pointer, whatever `RW` says. -/
def execI2cStop (da _st _rw bf : Bool) (s : State) : Result :=
  .next (closeEvent .idle false (openEvent (nextPhase da s.dec.phaseCount) bf s))

/-- `I2C.WADDR` (R135): the address byte of a write reaches no register but `stagedValue`. -/
def execI2cWaddr (_st bf : Bool) (s : State) : Result :=
  .next (closeEvent .addrHi false (openEvent .address bf s))

/-- `I2C.AHI` (R136): `phaseCount <- 0`, capture, the high byte of `shadow`. -/
def execI2cAhi (_st bf : Bool) (s : State) : Result :=
  .next (closeEvent .addrLo false (stageHigh (openEvent (.data 0) bf s)))

/-- `I2C.ALO` (R137): `phaseCount <- 1`, capture, the low byte of `shadow` and the commit. -/
def execI2cAlo (_st bf : Bool) (s : State) : Result :=
  .next (closeEvent .streamWrite false (commitLow (openEvent (.data 1) bf s)))

/-- `I2C.WDATA` (R138): `phaseCount` incremented, capture, `MemWrite(pointer)`, `pointer + 1`. -/
def execI2cWdata (_st bf : Bool) (s : State) : Result :=
  .next (closeEvent .streamWrite false (writeTurn (openEvent (nextPhase true s.dec.phaseCount) bf s)))

/-- `I2C.RADDR` (R139): `phaseCount <- -1`, capture, the read turn. -/
def execI2cRaddr (_st bf : Bool) (s : State) : Result :=
  .next (closeEvent .streamRead true (readTurn (openEvent .address bf s)))

/-- `I2C.RNEXT` (R140): `phaseCount` incremented, capture, the read turn. -/
def execI2cRnext (_st bf : Bool) (s : State) : Result :=
  .next (closeEvent .streamRead true (readTurn (openEvent (nextPhase true s.dec.phaseCount) bf s)))

end Sys2Proof.Machine
end

