-- ==== Sys2Proof/Machine/Latches.lean ====
section
/-! DEFINITION. `I2CRESET` (60_exceptions.md R263) and the reserved command codes (30_encoding.md R108 (a)). -/

namespace Sys2Proof.Machine

/-- `I2CRESET` (R263): both latches cleared, nothing else. -/
def execI2creset (s : State) : Result := .next { s with dec := clearLatches s.dec }

/-- The reserved codes: "reserved; refused" (R108 (a)). -/
def execReserved (_w : BitVec 16) (_s : State) : Result := .refused .reservedCommand

end Sys2Proof.Machine
end

