-- ==== Sys2Proof/Machine/PortControl.lean ====
section
/-! DEFINITION. Port initialisation, line coding and control lines (44_port_control.md): `INIT`, `SETLC`, `GETLC`, `SETCLS`. -/

namespace Sys2Proof.Machine

/-- A port as `INIT` leaves it (R220), `n` the packet size; the contents of the buffers are not cleared. -/
def initPort (n : Nat) (q : Port) : Port where
  inBuf := q.inBuf
  outBuf := q.outBuf
  inLen := 0
  outLen := 0
  outCnt := 0
  activeInIsA := true
  activeOutIsA := false
  timeoutCounter := 0
  zlpPending := false
  flushInProgress := false
  inWait := none
  lineCoding := ⟨115200, .one, .none, 8⟩
  controlLine := ⟨false, false⟩
  inited := true
  inDesc := ⟨false, false, 0, true⟩
  outDesc := ⟨true, true, BitVec.ofNat 8 n, false⟩

/-- `INIT p` (R220); refused on a port that is initialised (R227). -/
def execInit (p : Nat) (s : State) : Result :=
  match s.ports[p]? with
  | none => .refused .badPort
  | some q =>
    if q.inited then .refused .alreadyInited
    else .next (emit (.armOut p true false) (setPort p (initPort s.params.packetSize q) s))

/-- `SETLC p, coding` (R221); a rate of 0 and a divisor that is no u16 are refused (R224). -/
def execSetlc (p : Nat) (c : LineCoding) (s : State) : Result :=
  withPort p s fun q =>
    if c.baudRate = 0 then .refused .zeroBaud
    else if 0 ≤ divisorOf s.params.clockFreq c.baudRate.toNat ∧ divisorOf s.params.clockFreq c.baudRate.toNat ≤ 0xFFFF then
      .next (emit (.divisor p (BitVec.ofInt 16 (divisorOf s.params.clockFreq c.baudRate.toNat)))
        (setPort p { q with lineCoding := c } s))
    else .refused .divisorRange

/-- `GETLC p` (R222). -/
def execGetlc (p : Nat) (s : State) : Result :=
  withPort p s fun q => .next (emit (.ret (.coding (codingBytes q.lineCoding))) s)

/-- `SETCLS p, dtr, rts` (R223). -/
def execSetcls (p : Nat) (dtr rts : Bool) (s : State) : Result :=
  withPort p s fun q => .next (setPort p { q with controlLine := ⟨dtr, rts⟩ } s)

end Sys2Proof.Machine
end

