-- ==== Sys2Proof/Machine/Dispatch.lean ====
section
/-! DEFINITION. The meaning of each operation, one arm per row of spec/opcode_table.json. -/

namespace Sys2Proof.Machine

def exec (i : Instr) (s : State) : Host.Outcome State Fault Refusal :=
  match i with
  | .i2cStop da st rw bf => Sys2Proof.Machine.execI2cStop da st rw bf s
  | .i2cWaddr st bf => Sys2Proof.Machine.execI2cWaddr st bf s
  | .i2cAhi st bf => Sys2Proof.Machine.execI2cAhi st bf s
  | .i2cAlo st bf => Sys2Proof.Machine.execI2cAlo st bf s
  | .i2cWdata st bf => Sys2Proof.Machine.execI2cWdata st bf s
  | .i2cRaddr st bf => Sys2Proof.Machine.execI2cRaddr st bf s
  | .i2cRnext st bf => Sys2Proof.Machine.execI2cRnext st bf s
  | .init p => Sys2Proof.Machine.execInit p s
  | .put p b => Sys2Proof.Machine.execPut p b s
  | .flush p => Sys2Proof.Machine.execFlush p s
  | .tick p => Sys2Proof.Machine.execTick p s
  | .get p => Sys2Proof.Machine.execGet p s
  | .peek p => Sys2Proof.Machine.execPeek p s
  | .inrdy p => Sys2Proof.Machine.execInrdy p s
  | .outrdy p => Sys2Proof.Machine.execOutrdy p s
  | .setlc p c => Sys2Proof.Machine.execSetlc p c s
  | .getlc p => Sys2Proof.Machine.execGetlc p s
  | .setcls p dtr rts => Sys2Proof.Machine.execSetcls p dtr rts s
  | .i2creset => Sys2Proof.Machine.execI2creset s
  | .asget a => Sys2Proof.Machine.execAsget a s
  | .asset a v => Sys2Proof.Machine.execAsset a v s
  | .reserved w => Sys2Proof.Machine.execReserved w s

end Sys2Proof.Machine
end

