-- ==== Sys2Proof/Machine/Environment.lean ====
section
/-! DEFINITION. The steps of the external agents (46_environment.md): `HWEP`, `I2CP`, `PROD`. A step that its rule does not
enable is no step of the machine: the turn that names it is refused (R247, log 13). -/

namespace Sys2Proof.Machine

/-- `HWEP.INDONE(p)` (R240): the host collects the granted IN buffer. -/
def envInDone (p : Nat) (s : State) : Result :=
  match s.ports[p]? with
  | none => .refused .notEnabled
  | some q =>
    if q.inited = true ∧ q.inDesc.owned = true then
      match readRun (q.inBuf.sel q.inDesc.bufIsA) 0 q.inDesc.count.toNat with
      | none => .fault .unwrittenByte
      | some bytes =>
        .next (emit (.pktIn p bytes q.inDesc.toggle)
          (setPort p { q with inDesc := { q.inDesc with owned := false } } s))
    else .refused .notEnabled

/-- The port after the hardware received `bytes` (R241): the armed buffer holds them, and from index `|bytes|` on it is
unspecified, which the model holds as unwritten (log 3). -/
def receiveOut (bytes : List Byte) (q : Port) : Port :=
  { q with
    outBuf := q.outBuf.upd q.outDesc.bufIsA (cellsFrom 0 bytes)
    outDesc := { q.outDesc with count := BitVec.ofNat 8 bytes.length, owned := false } }

/-- `HWEP.OUTDONE(p, bytes)` (R241): at most `N` bytes (D28). -/
def envOutDone (p : Nat) (bytes : List Byte) (s : State) : Result :=
  match s.ports[p]? with
  | none => .refused .notEnabled
  | some q =>
    if q.inited = true ∧ q.outDesc.owned = true ∧ bytes.length ≤ s.params.packetSize then
      .next (setPort p (receiveOut bytes q) s)
    else .refused .notEnabled

/-- DEC's registers after the peripheral raised an event (R242). -/
def raiseEvent (stat : BitVec 5) (rx : Byte) (d : Dec) : Dec :=
  { d with stat := stat, rxReg := if statBF stat then rx else d.rxReg, sclHeld := true }

/-- `I2CP.EVENT(stat, rx)` (R242): enabled while no event is pending. -/
def envEvent (stat : BitVec 5) (rx : Byte) (s : State) : Result :=
  if s.dec.sclHeld then .refused .notEnabled else .next { s with dec := raiseEvent stat rx s.dec }

/-- `I2CP.SAMPLE` (R243): the master clocks the pre-loaded byte out, once per read turn. -/
def envSample (s : State) : Result :=
  if s.dec.sclHeld = false ∧ s.dec.sampleDue = true then
    .next (emit (.tx s.dec.txReg) { s with dec := { s.dec with sampleDue := false } })
  else .refused .notEnabled

/-- `I2CP.LATCH(which)` (R245): enabled at any time. -/
def envLatch (which : Latch) (s : State) : Result := .next { s with dec := setLatch which s.dec }

/-- `PROD.TELEM(ch, rec)` (R246): enabled for `ch < TELEM_CHANNELS`. -/
def envTelem (ch : Nat) (rec : TelemRec) (s : State) : Result :=
  if ch < s.telem.length then .next { s with telem := s.telem.set ch rec } else .refused .notEnabled

/-- `PROD.READPTR` (R246, 20_memory.md R77): the whole 16-bit value; the record of it is the model's (log 11). -/
def envReadPtr (s : State) : Result := .next (emit (.ret (.pointer s.dec.pointer)) s)

/-- The address of Outputs byte `i` (20_memory.md R68). -/
def outputAddr (i : Fin 3) : Addr := 0x0800 + BitVec.ofNat 16 i.val

end Sys2Proof.Machine
end

