-- ==== Sys2Proof/Machine/Turn.lean ====
section
/-! DEFINITION. One turn of one agent (00_scope.md R8, R9): how a command is fetched and issued, how an operation goes on from
its hold (R7), and how an instruction of the opcode table is put where the next step fetches it. -/

namespace Sys2Proof.Machine

/-- Who issues a command (30_encoding.md R106, column "issued by"). -/
inductive Issuer where
  | app
  | tick
deriving DecidableEq, Repr

/-- Which agent issues an operation: `TICK` only by agent `TICK`, the other commands by `APP` (R106; log 15). The byte events
are no commands and never reach this test. -/
def issuerOf : Instr → Issuer
  | .tick _ => .tick
  | .i2cStop _ _ _ _ => .app
  | .i2cWaddr _ _ => .app
  | .i2cAhi _ _ => .app
  | .i2cAlo _ _ => .app
  | .i2cWdata _ _ => .app
  | .i2cRaddr _ _ => .app
  | .i2cRnext _ _ => .app
  | .init _ => .app
  | .put _ _ => .app
  | .flush _ => .app
  | .get _ => .app
  | .peek _ => .app
  | .inrdy _ => .app
  | .outrdy _ => .app
  | .setlc _ _ => .app
  | .getlc _ => .app
  | .setcls _ _ _ => .app
  | .i2creset => .app
  | .asget _ => .app
  | .asset _ _ => .app
  | .reserved _ => .app

/-- Decode a command and run it for the agent that issues it. -/
def issue (who : Issuer) (c : Cmd) (s : State) : Result :=
  match decodeCommand c with
  | .error e => .refused (.undecodable e)
  | .ok i => if issuerOf i = who then exec i s else .refused .wrongIssuer

/-- `APP` looks again at the condition of the command it stands at a hold with (00_scope.md R7; 42_fifo_in.md R171, R177;
43_fifo_out.md R206). The state given has the mark already taken off; it is set again if the hold stands. -/
def resumeApp (h : AppHold) (s : State) : Result :=
  match h with
  | .putEntry p b => execPut p b s
  | .putHandoff p =>
    withPort p s fun q => settle p (fun t => { t with appHold := some (.putHandoff p) }) s (resumeIn p .put q)
  | .flushEntry p => execFlush p s
  | .flushHandoff p =>
    withPort p s fun q => settle p (fun t => { t with appHold := some (.flushHandoff p) }) s (resumeIn p .flush q)
  | .getSwap p => execGet p s

/-- The tick handler looks again at the condition of its flush (R171, R175); the counter is reset when it completes. -/
def resumeTick (p : Nat) (s : State) : Result :=
  withPort p s fun q => settle p (fun t => { t with tickHold := some p }) s (resetTicks (resumeIn p .flush q))

/-- The turn of `APP`: on with its command at a hold, else the next command of its program; with neither it idles (R9 (a)). -/
def turnApp (s : State) : Result :=
  match s.appHold, s.appProg with
  | some h, _ => resumeApp h { s with appHold := none }
  | none, [] => .next s
  | none, c :: cs => issue .app c { s with appProg := cs }

/-- A tick arrives: it is lost while the handler stands at a hold (60_exceptions.md R266, R270). -/
def turnTick (c : Cmd) (s : State) : Result :=
  match s.tickHold with
  | some _ => .next s
  | none => issue .tick c s

/-- The tick handler at a hold goes on; with no hold it idles. -/
def turnTickResume (s : State) : Result :=
  match s.tickHold with
  | none => .next s
  | some p => resumeTick p { s with tickHold := none }

/-- The turn of DEC: it handles the event that is pending exactly while `sclHeld = 1` (40_i2c_decoder.md R130), else idles. -/
def turnDec (s : State) : Result :=
  if s.dec.sclHeld then exec (decodeEvent s.dec.phaseCount s.dec.stat) s else .next s

/-- One turn. -/
def runTurn (t : Turn) (s : State) : Result :=
  match t with
  | .app => turnApp s
  | .tick c => turnTick c s
  | .tickResume => turnTickResume s
  | .dec => turnDec s
  | .hwepInDone p => envInDone p s
  | .hwepOutDone p bytes => envOutDone p bytes s
  | .i2cpEvent stat rx => envEvent stat rx s
  | .i2cpSample => envSample s
  | .i2cpLatch which => envLatch which s
  | .prodTelem ch rec => envTelem ch rec s
  | .prodReadPtr => envReadPtr s
  | .prodGet a => execAsget a s
  | .prodOutput i v => execAsset (outputAddr i) v s

/-- Take the next turn of the schedule; with none left the block idles: it "never stops" (00_scope.md R12). -/
def takeTurn (s : State) : Result :=
  match s.sched with
  | [] => .next s
  | t :: rest => runTurn t { s with sched := rest }

/-- The state with an encoded operation placed where the next turn fetches it: a byte event is raised (46_environment.md R242,
received byte 0) and DEC moves next; a command is the next of its agent, which stands at no hold and moves next (log 6). -/
def placeCode (code : Code) (s : State) : State :=
  match code with
  | .evt stat => { s with dec := raiseEvent stat 0 s.dec, sched := .dec :: s.sched }
  | .cmd c =>
    match cmdOp c.word with
    | 3 => { s with sched := .tick c :: s.sched, tickHold := none }
    | _ => { s with sched := .app :: s.sched, appProg := c :: s.appProg, appHold := none }

end Sys2Proof.Machine
end

