-- ==== Sys2Proof/Machine/Handler.lean ====
section
/-! DEFINITION. The whole handler of 40_i2c_decoder.md R151, "the normative function", as one function of the state, with two things
that R151 does not have: the branch of the alternative commit policy (R136, decision D4, log 5) and the model's labels of the event
(R148, log 10). The step does not call it: it is what the seven meanings of I2cDecoder.lean must agree with. -/

namespace Sys2Proof.Machine

/-- Step 3 of R151, dispatch of an event without Stop, on the state after capture; `rw` is the read-turn bit. That a first address
byte writes `pointer` too under `pointer_from_shadow` is not in R151 (R136, decision D4, log 5). -/
def handlerDispatch (rw : Bool) (s : State) : State :=
  if rw then
    { s with dec := { s.dec with txReg := asGet s s.dec.pointer, pointer := s.dec.pointer + 1 } }
  else if phaseInt s.dec.phaseCount = 0 then
    let sh := word16 s.dec.stagedValue (loByte s.dec.shadow)
    if s.params.commitPolicy = .shadowOnly then { s with dec := { s.dec with shadow := sh } }
    else { s with dec := { s.dec with shadow := sh, pointer := sh } }
  else if phaseInt s.dec.phaseCount = 1 then
    let sh := word16 (hiByte s.dec.shadow) s.dec.stagedValue
    { s with dec := { s.dec with shadow := sh, pointer := sh } }
  else if 2 ≤ phaseInt s.dec.phaseCount then
    let t := asSet s.dec.pointer s.dec.stagedValue s
    { t with dec := { t.dec with pointer := s.dec.pointer + 1 } }
  else s

/-- The label that R148 gives the state after the event. -/
def handlerLabel (p rw : Bool) (ph : Phase) : BusPhase :=
  if p then .idle
  else if rw then .streamRead
  else if phaseInt ph = -1 then .addrHi
  else if phaseInt ph = 0 then .addrLo
  else .streamWrite

/-- `DEC_EVENT()` of R151: phase update, capture, dispatch unless a Stop is present, release; and the model's labels of the
event (log 10). -/
def decHandler (s : State) : State :=
  let st := s.dec.stat
  let s1 : State :=
    { s with dec := { s.dec with phaseCount := if statDA st then nextPhase true s.dec.phaseCount else .address } }
  let s2 : State :=
    if statBF st then { s1 with dec := { s1.dec with stagedValue := s1.dec.rxReg, stat := clearBF s1.dec.stat } } else s1
  let s3 : State := if statP st then s2 else handlerDispatch (statRW st) s2
  { s3 with dec := { s3.dec with
      sclHeld := false
      busPhase := handlerLabel (statP st) (statRW st) s3.dec.phaseCount
      sampleDue := !statP st && statRW st } }

end Sys2Proof.Machine
end

