-- ==== Sys2Proof/Machine/Macros.lean ====
section
/-! DEFINITION. The event profiles of 46_environment.md R244 and the macros and trace lines of 30_encoding.md R110 and R111, as
schedules of turns and lists of commands. Which wire situation raises which event is general knowledge in the spec itself
(G6; log 21): a claim about a wire transaction names its profile. -/

namespace Sys2Proof.Machine

/-- `EVENT_PROFILE` (R244). -/
inductive EventProfile where
  /-- no event for a master NACK, none for a Stop -/
  | epMin
  /-- an event with `P = 1` for a Stop -/
  | epStop
  /-- a write-shaped event for a master NACK -/
  | epNackW
  /-- a read-shaped event for a master NACK -/
  | epNackR
deriving DecidableEq, Repr

/-- The address byte in the receive register: the 7-bit address in bits 7:1, the direction in bit 0 (R102, G2). -/
def addrByte (read : Bool) : Byte := Config.i2cAddr ++ BitVec.ofBool read

/-- A line `EV stat rx` of a trace: `I2CP.EVENT`, then the handling step (R110). -/
def evTurns (stat : BitVec 5) (rx : Byte) : List Turn := [.i2cpEvent stat rx, .dec]

/-- What a profile adds after the transaction (R111, R244). -/
def stopTurns : EventProfile → List Turn
  | .epStop => evTurns 0x18 0
  | _ => []

/-- What a profile adds for the master's NACK of the last byte read (R111, R244). -/
def nackTurns : EventProfile → List Turn
  | .epNackW => evTurns 0x14 0
  | .epNackR => evTurns 0x16 0
  | _ => []

/-- The data bytes of a write transaction. -/
def dataTurns : List Byte → List Turn
  | [] => []
  | b :: bs => evTurns 0x15 b ++ dataTurns bs

/-- `k` further read turns, each sampled. -/
def readTurns : Nat → List Turn
  | 0 => []
  | k + 1 => evTurns 0x16 0 ++ .i2cpSample :: readTurns k

/-- `I2C_WRITE [b0, ...]` (R111). -/
def i2cWrite (prof : EventProfile) (bytes : List Byte) : List Turn :=
  evTurns 0x05 (addrByte false) ++ dataTurns bytes ++ stopTurns prof

/-- `I2C_READ k`, `k >= 1` (R111). -/
def i2cRead (prof : EventProfile) (k : Nat) : List Turn :=
  evTurns 0x07 (addrByte true) ++ .i2cpSample :: readTurns (k - 1) ++ nackTurns prof ++ stopTurns prof

/-- `I2C_SETADDR hi lo` (R111). -/
def i2cSetAddr (prof : EventProfile) (hi lo : Byte) : List Turn := i2cWrite prof [hi, lo]

/-- `I2C_RANDOM_READ hi lo k` (R111). -/
def i2cRandomRead (prof : EventProfile) (hi lo : Byte) (k : Nat) : List Turn :=
  i2cWrite prof [hi, lo] ++ i2cRead prof k

/-- `PUTS p "..."` (R111): the commands of the application's program. -/
def putsCmds (p : Nat) (bytes : List Byte) : List Cmd := bytes.map (fun b => ⟨cmdWord 1 p b, []⟩)

/-- One frame tick: a `TICK` for each port in ascending order (60_exceptions.md R264, R268 (b)). -/
def frameTick (ports : Nat) : List Turn := (List.range ports).map (fun p => .tick ⟨cmdWord 3 p 0, []⟩)

/-- A line of a trace (R110). -/
inductive TraceLine where
  /-- `EV` -/
  | ev (stat : BitVec 5) (rx : Byte)
  /-- `RAISE` -/
  | raise (stat : BitVec 5) (rx : Byte)
  /-- `HANDLE` -/
  | handle
  /-- `SAMPLE` -/
  | sample
  /-- `LATCH` -/
  | latch (which : Latch)
  /-- a command, by mnemonic and operands -/
  | command (i : Instr)
  /-- `HW INDONE` -/
  | inDone (p : Nat)
  /-- `HW OUTDONE` -/
  | outDone (p : Nat) (bytes : List Byte)
  /-- the MODEL's line for a primed line of 95_test_vectors.md: an agent at a hold goes on -/
  | goesOn (who : Issuer)
deriving DecidableEq, Repr

/-- The turns a trace line stands for (R110). -/
def lineTurns : TraceLine → List Turn
  | .ev stat rx => evTurns stat rx
  | .raise stat rx => [.i2cpEvent stat rx]
  | .handle => [.dec]
  | .sample => [.i2cpSample]
  | .latch which => [.i2cpLatch which]
  | .command i =>
    match issuerOf i, encode i with
    | .tick, .cmd c => [.tick c]
    | .app, .cmd _ => [.app]
    | _, .evt stat => evTurns stat 0
  | .inDone p => [.hwepInDone p]
  | .outDone p bytes => [.hwepOutDone p bytes]
  | .goesOn .app => [.app]
  | .goesOn .tick => [.tickResume]

/-- The commands a trace line adds to the application's program. -/
def lineCmds : TraceLine → List Cmd
  | .command i =>
    match issuerOf i, encode i with
    | .app, .cmd c => [c]
    | _, _ => []
  | _ => []

/-- A state with a trace placed after what is scheduled and programmed already. -/
def loadTrace (lines : List TraceLine) (s : State) : State :=
  { s with
    sched := s.sched ++ lines.flatMap lineTurns
    appProg := s.appProg ++ lines.flatMap lineCmds }

end Sys2Proof.Machine
end

