-- ==== Sys2Proof/Safety.lean ====
section
/-! DEFINITION. What a good state is, in the terms claims use: the parameters in their ranges (00_scope.md R5), the invariants of
10_state.md R44 to R46 with what they rest on, the labels of 40_i2c_decoder.md R148, the two byte streams of a port
(42_fifo_in.md R181, 43_fifo_out.md R207), and the end of a run (00_scope.md R12). -/

namespace Sys2Proof.Machine

/-- The parameters are in the ranges of 00_scope.md R5. -/
structure ParamsOk (c : Params) : Prop where
  packetPos : 1 ≤ c.packetSize
  packetLe : c.packetSize ≤ 255
  ticksPos : 1 ≤ c.flushTicks
  ticksLe : c.flushTicks ≤ 255
  clockPos : 0 < c.clockFreq
  identityLen : c.identity.length = 1024

/-- The registers of DEC agree with the label of the last event (40_i2c_decoder.md R148, 46_environment.md R243). -/
structure DecOk (d : Dec) : Prop where
  addrHi : d.busPhase = .addrHi → phaseInt d.phaseCount = -1
  addrLo : d.busPhase = .addrLo → phaseInt d.phaseCount = 0
  streamWrite : d.busPhase = .streamWrite → 1 ≤ phaseInt d.phaseCount
  sampleDue : d.sampleDue = true → d.busPhase = .streamRead

/-- The first `n` bytes of a buffer are written. -/
def writtenTo (buf : List Host.Cell) (n : Nat) : Prop := ∀ i, i < n → (cellLookup buf i).isSome = true

/-- A buffer lists rising indices below the packet size `n` (10_state.md R32). -/
def bufferOk (n : Nat) (buf : List Host.Cell) : Bool := cellsSorted buf && buf.all (fun c => decide (c.1 < n))

/-- The four buffers of a port have their form. -/
def buffersOk (n : Nat) (q : Port) : Bool :=
  bufferOk n q.inBuf.a && bufferOk n q.inBuf.b && bufferOk n q.outBuf.a && bufferOk n q.outBuf.b

/-- An initialised port between two steps, `n` the packet size. -/
structure PortOk (n : Nat) (q : Port) : Prop where
  /-- R44: the descriptor points at the buffer that is not being filled -/
  inOther : q.inDesc.bufIsA = !q.activeInIsA
  /-- R44: the descriptor points at the buffer that is not being drained -/
  outOther : q.outDesc.bufIsA = !q.activeOutIsA
  /-- R45 -/
  inToggle : q.inDesc.toggle = q.activeInIsA
  /-- R45 -/
  outToggle : q.outDesc.toggle = q.activeOutIsA
  /-- R46: `inLen` is `N` only inside a `PUT` at its hand-off hold -/
  inLenLt : (∀ w, q.inWait = some w → w.origin = .flush) → q.inLen.toNat < n
  /-- R46 -/
  outLenLe : q.outLen.toNat ≤ q.outCnt.toNat
  /-- R46 -/
  outCntLe : q.outCnt.toNat ≤ n
  /-- R42: a granted length is at most `N` -/
  inCountLe : q.inDesc.count.toNat ≤ n
  /-- R43: a received or armed length is at most `N` -/
  outCountLe : q.outDesc.count.toNat ≤ n
  /-- R38: the guard is set exactly while a flush stands at its hold -/
  guard : q.flushInProgress = true ↔ ∃ w, q.inWait = some w ∧ w.origin = .flush
  /-- R171: a full buffer waits with `inLen = N` -/
  putWait : ∀ w, q.inWait = some w → w.origin = .put → w.len.toNat = n ∧ q.inLen = w.len
  /-- R171, R173: a flush waits with the length it read, which is 0 only when a zero-length packet is owed -/
  flushWait : ∀ w, q.inWait = some w → w.origin = .flush → q.inLen = w.len ∧ (w.len = 0 → q.zlpPending = true)
  /-- R46: a zero-length packet is owed only if the last submission had length `N` -/
  zlpFull : q.zlpPending = true → q.inDesc.count.toNat = n
  /-- the bytes being filled are written -/
  inWritten : writtenTo (q.inBuf.sel q.activeInIsA) q.inLen.toNat
  /-- the bytes granted to the hardware are written -/
  grantedWritten : q.inDesc.owned = true → writtenTo (q.inBuf.sel q.inDesc.bufIsA) q.inDesc.count.toNat
  /-- the bytes being drained are written -/
  outWritten : writtenTo (q.outBuf.sel q.activeOutIsA) q.outCnt.toNat
  /-- the bytes of a packet that waits to be swapped in are written -/
  waitingWritten : q.outDesc.owned = false → writtenTo (q.outBuf.sel q.outDesc.bufIsA) q.outDesc.count.toNat

/-- The read/write addresses of 20_memory.md R61: Eeprom, SerialId, Outputs. -/
def mutableAt (a : Addr) : Prop :=
  (0x0400 ≤ a.toNat ∧ a.toNat ≤ 0x04FF) ∨ (0x0700 ≤ a.toNat ∧ a.toNat ≤ 0x070F) ∨ (0x0800 ≤ a.toNat ∧ a.toNat ≤ 0x0802)

/-- DEC's registers after phase update, capture and release of an event (40_i2c_decoder.md R131, R132, R142) with new count
`ph`, buffer-full bit `bf` and the labels of the event, before its class adds anything. -/
def afterEvent (ph : Phase) (bf : Bool) (label : BusPhase) (due : Bool) (d : Dec) : Dec :=
  { d with
    phaseCount := ph
    stagedValue := if bf then d.rxReg else d.stagedValue
    stat := if bf then d.stat &&& 0x1E else d.stat
    sclHeld := false
    busPhase := label
    sampleDue := due }

/-- The stream of writes that 40_i2c_decoder.md R150 (a) speaks of: `MemWrite(a, 1, d0)`, `MemWrite(a + 1, 1, d1)`, … in
order. -/
def writeStream (a : Addr) : List Byte → State → State
  | [], s => s
  | d :: ds, s => writeStream (a + 1) ds (asSet a d s)

/-- The port of a command at a hold. -/
def holdPort : AppHold → Nat
  | .putEntry p _ => p
  | .putHandoff p => p
  | .flushEntry p => p
  | .flushHandoff p => p
  | .getSwap p => p

/-- Port `p` exists, is initialised and has a hand-off of this origin at its hold (10_state.md R39). -/
def waitsWith (o : Origin) (s : State) (p : Nat) : Prop :=
  ∃ q w, s.ports[p]? = some q ∧ q.inited = true ∧ q.inWait = some w ∧ w.origin = o

/-- The invariant of the machine. -/
structure Inv (s : State) : Prop where
  /-- R5 -/
  params : ParamsOk s.params
  /-- R5 -/
  telemLe : s.telem.length ≤ 16
  /-- R5, R105 -/
  portsPos : 1 ≤ s.ports.length
  /-- the writable stores have their canonical form -/
  mem : Memory.wf s.mem = true
  dec : DecOk s.dec
  buffers : ∀ (p : Nat) (q : Port), s.ports[p]? = some q → buffersOk s.params.packetSize q = true
  port : ∀ (p : Nat) (q : Port), s.ports[p]? = some q → q.inited = true → PortOk s.params.packetSize q
  /-- R39, R49: no hand-off waits before `INIT` -/
  idlePort : ∀ (p : Nat) (q : Port), s.ports[p]? = some q → q.inited = false → q.inWait = none
  /-- R175: the counter is below `T`, or is `T` while the flush it forced stands at its hold -/
  ticks : ∀ (p : Nat) (q : Port), s.ports[p]? = some q → q.inited = true →
    q.timeoutCounter.toNat < s.params.flushTicks ∨
      (s.tickHold = some p ∧ q.timeoutCounter.toNat = s.params.flushTicks)
  /-- R39, R177: a waiting hand-off of a `PUT` is the one `APP` stands at -/
  putHold : ∀ (p : Nat), s.appHold = some (.putHandoff p) ↔ waitsWith .put s p
  /-- R39, R177: a waiting hand-off of a flush is `APP`'s or the tick handler's -/
  flushHold : ∀ (p : Nat), (s.appHold = some (.flushHandoff p) ∨ s.tickHold = some p) ↔ waitsWith .flush s p
  /-- R174: not of both -/
  oneFlush : ∀ (p : Nat), ¬ (s.appHold = some (.flushHandoff p) ∧ s.tickHold = some p)
  /-- R108 (c): a command at a hold is one of an initialised port -/
  holdInited : ∀ h, s.appHold = some h → ∃ q, s.ports[holdPort h]? = some q ∧ q.inited = true

/-- The bytes of a port that were put and not yet collected by the host, oldest first (R181): those granted to the
hardware, then those of the buffer being filled; an unwritten byte would show as `none`. -/
def inStream (q : Port) : List (Option Byte) :=
  (if q.inDesc.owned then (List.range q.inDesc.count.toNat).map (cellLookup (q.inBuf.sel q.inDesc.bufIsA)) else []) ++
    (List.range q.inLen.toNat).map (cellLookup (q.inBuf.sel q.activeInIsA))

/-- The bytes of a port that arrived and were not yet returned, oldest first (R207): the rest of the buffer being drained, then
the packet that waits to be swapped in. -/
def outStream (q : Port) : List (Option Byte) :=
  ((List.range q.outCnt.toNat).map (cellLookup (q.outBuf.sel q.activeOutIsA))).drop (readIndex q) ++
    (if q.outDesc.owned then [] else
      (List.range q.outDesc.count.toNat).map (cellLookup (q.outBuf.sel q.outDesc.bufIsA)))

/-- The step at `s` is one in which `APP` runs the command `i` from its first line: it issues it, or it goes on with it from
the hold `h` at that line (00_scope.md R7). -/
def appRuns (s : State) (h : AppHold) (i : Instr) : Prop :=
  (∃ rest, s.sched = .app :: rest) ∧
    (s.appHold = some h ∨ (s.appHold = none ∧ ∃ c cs, s.appProg = c :: cs ∧ decodeCommand c = .ok i))

/-- The step at `s` is one in which `APP` runs `PUT p, b` from its first line. -/
def entersPut (s : State) (p : Nat) (b : Byte) : Prop := appRuns s (.putEntry p b) (.put p b)

/-- The step at `s` is one in which `APP` runs `GET p`: it issues it, or looks again for a completed packet. -/
def entersGet (s : State) (p : Nat) : Prop := appRuns s (.getSwap p) (.get p)

/-- The state with what `f` makes of port `p`; the same state where there is no such port. -/
def mapPort (p : Nat) (f : Port → Port) (s : State) : State :=
  match s.ports[p]? with
  | some q => setPort p (f q) s
  | none => s

/-- A result with `f` applied to its next state. An operation that commutes with a change of the state in this sense neither
reads nor writes what the change touches. -/
def mapNext (f : State → State) : Result → Result
  | .next t => .next (f t)
  | .fault e => .fault e
  | .refused e => .refused e

/-- Port `q` with the OUT side of `r` (43_fifo_out.md R208). -/
def withOutSide (r q : Port) : Port :=
  { q with outBuf := r.outBuf, outLen := r.outLen, outCnt := r.outCnt, activeOutIsA := r.activeOutIsA, outDesc := r.outDesc }

/-- Port `q` with the IN side of `r` (R208). -/
def withInSide (r q : Port) : Port :=
  { q with
    inBuf := r.inBuf, inLen := r.inLen, activeInIsA := r.activeInIsA, zlpPending := r.zlpPending
    flushInProgress := r.flushInProgress, inWait := r.inWait, timeoutCounter := r.timeoutCounter, inDesc := r.inDesc }

/-- Port `q` with other contents in the OUT buffer its descriptor points at (10_state.md R43). -/
def withArmed (cells : List Host.Cell) (q : Port) : Port := { q with outBuf := q.outBuf.upd q.outDesc.bufIsA cells }

/-- The end of a finite run (00_scope.md R12): everything stated has been consumed, no operation stands at a hold and no byte
event is pending. -/
def finished (s : State) : Bool :=
  s.sched.isEmpty && s.appProg.isEmpty && decide (s.appHold = none) && decide (s.tickHold = none) && !s.dec.sclHeld

/-- The port a command names; the operations without a port operand have none. -/
def portOf : Instr → Option Nat
  | .init p => some p
  | .put p _ => some p
  | .flush p => some p
  | .tick p => some p
  | .get p => some p
  | .peek p => some p
  | .inrdy p => some p
  | .outrdy p => some p
  | .setlc p _ => some p
  | .getlc p => some p
  | .setcls p _ _ => some p
  | .i2cStop _ _ _ _ => none
  | .i2cWaddr _ _ => none
  | .i2cAhi _ _ => none
  | .i2cAlo _ _ => none
  | .i2cWdata _ _ => none
  | .i2cRaddr _ _ => none
  | .i2cRnext _ _ => none
  | .i2creset => none
  | .asget _ => none
  | .asset _ _ => none
  | .reserved _ => none

/-- The operation is a byte event (unit DEC). -/
def isEvent : Instr → Bool
  | .i2cStop _ _ _ _ => true
  | .i2cWaddr _ _ => true
  | .i2cAhi _ _ => true
  | .i2cAlo _ _ => true
  | .i2cWdata _ _ => true
  | .i2cRaddr _ _ => true
  | .i2cRnext _ _ => true
  | .init _ => false
  | .put _ _ => false
  | .flush _ => false
  | .tick _ => false
  | .get _ => false
  | .peek _ => false
  | .inrdy _ => false
  | .outrdy _ => false
  | .setlc _ _ => false
  | .getlc _ => false
  | .setcls _ _ _ => false
  | .i2creset => false
  | .asget _ => false
  | .asset _ _ => false
  | .reserved _ => false

end Sys2Proof.Machine
end

