-- ==== Sys2Proof/Certificates/Slice0/Obligations.lean ====
section
/-! DEFINITION. The statements for the provers. The docstring of each says which rules of spec/ it formalises. -/

open Sys2Proof Sys2Proof.Machine

/-! ## Encoding -/

/-- Every well-formed operation is read back from its encoding, with every operand at every value, at every `phaseCount` at
which its class arises (30_encoding.md R101, R104 to R107, R113). -/
def Obligations.DecodeEncodeRoundTrip : Prop :=
  ∀ (i : Instr) (ph : Phase), wellFormed i = true → arisesAt i ph = true → decode ph (encode i) = .ok i

/-- Whatever the decoder answers fits its encoding and arises at the `phaseCount` it was read at (R104, R105, R113). -/
def Obligations.DecodedOperationFits : Prop :=
  ∀ (ph : Phase) (code : Code) (i : Instr), decode ph code = .ok i → wellFormed i = true ∧ arisesAt i ph = true

/-- A byte event is encoded back to its status word: all five bits are carried (R101, R103, R104). -/
def Obligations.EventKeepsItsStatusWord : Prop :=
  ∀ (ph : Phase) (st : BitVec 5), encode (decodeEvent ph st) = .evt st

/-- The seven classes by their tests on the status bits and the updated `phaseCount` (R104): `S` and `BF` select none. -/
def Obligations.EventClassesByStatusBits : Prop :=
  ∀ (ph : Phase) (da p s rw bf : Bool),
    let i := decodeEvent ph (packStat da p s rw bf)
    (p = true → i = .i2cStop da s rw bf) ∧
    (p = false → rw = true → da = false → i = .i2cRaddr s bf) ∧
    (p = false → rw = true → da = true → i = .i2cRnext s bf) ∧
    (p = false → rw = false → da = false → i = .i2cWaddr s bf) ∧
    (p = false → rw = false → da = true → phaseInt ph = -1 → i = .i2cAhi s bf) ∧
    (p = false → rw = false → da = true → phaseInt ph = 0 → i = .i2cAlo s bf) ∧
    (p = false → rw = false → da = true → 1 ≤ phaseInt ph → i = .i2cWdata s bf)

/-- The fields that a command ignores change nothing (R108 (f)): two words that agree in the fields the command uses stand
for the same operation, whatever follows. Rests on decision D24 of 92_eei_decisions.md. -/
def Obligations.IgnoredFieldsChangeNothing : Prop :=
  ∀ (w w' : BitVec 16) (payload : List Byte), cmdOp w = cmdOp w' →
    ((cmdOp w = 0 ∨ (2 ≤ cmdOp w ∧ cmdOp w ≤ 9)) → cmdPort w = cmdPort w' →
      decodeCommand ⟨w, payload⟩ = decodeCommand ⟨w', payload⟩) ∧
    (cmdOp w = 10 → cmdPort w = cmdPort w' → w.getLsbD 0 = w'.getLsbD 0 → w.getLsbD 1 = w'.getLsbD 1 →
      decodeCommand ⟨w, payload⟩ = decodeCommand ⟨w', payload⟩) ∧
    ((cmdOp w = 11 ∨ cmdOp w = 12) → decodeCommand ⟨w, payload⟩ = decodeCommand ⟨w', payload⟩) ∧
    (cmdOp w = 13 → cmdData w = cmdData w' → decodeCommand ⟨w, payload⟩ = decodeCommand ⟨w', payload⟩)

/-- A few words written out from R101, R105, R106 and R107 decode to the operations they stand for. -/
def Obligations.WrittenOutWordsDecode : Prop :=
  decodeEvent .address 0b00101 = .i2cWaddr true true ∧
  decodeEvent .address 0b10101 = .i2cAhi true true ∧
  decodeEvent (.data 0) 0b10101 = .i2cAlo true true ∧
  decodeEvent (.data 1) 0b10101 = .i2cWdata true true ∧
  decodeEvent .address 0b00111 = .i2cRaddr true true ∧
  decodeEvent .address 0b10110 = .i2cRnext true false ∧
  decodeEvent (.data 5) 0b11111 = .i2cStop true true true true ∧
  decodeCommand ⟨0x0100, []⟩ = .ok (.init 1) ∧
  decodeCommand ⟨0x1050, []⟩ = .ok (.put 0 0x50) ∧
  decodeCommand ⟨0x4100, []⟩ = .ok (.get 1) ∧
  decodeCommand ⟨0x8100, [0x00, 0x4B, 0x00, 0x00, 0x02, 0x02, 0x07]⟩ = .ok (.setlc 1 ⟨19200, .two, .even, 7⟩) ∧
  decodeCommand ⟨0xA001, []⟩ = .ok (.setcls 0 true false) ∧
  decodeCommand ⟨0xD077, [0x04, 0x50]⟩ = .ok (.asset 0x0450 0x77) ∧
  decodeCommand ⟨0xE000, []⟩ = .ok (.reserved 0xE000) ∧
  decodeCommand ⟨0x8000, [0, 0, 0, 0, 3, 0, 8]⟩ = .error .stopBitsCode

/-! ## The step -/

/-- A step runs the decoded operation: the next command of `APP`'s program when `APP` moves and stands at no hold; the tick
command that arrives when the tick handler stands at no hold; the class of the pending byte event when DEC moves. What the
step adds is that the turn, and the command, are taken off (00_scope.md R8, R9; 30_encoding.md R106; 40_i2c_decoder.md R130). A
`PUT` or `FLUSH` at the hold of its first line and a `GET` that waits go on as that command, with the hold taken off (R7;
42_fifo_in.md R177, 43_fifo_out.md R201, R206). The schedule that names the turns and the marks of the holds are the model's
(log 6, log 7). -/
def Obligations.StepRunsDecodedOperation : Prop :=
  (∀ (s : State) (rest : List Turn) (c : Cmd) (cs : List Cmd) (i : Instr),
    s.sched = .app :: rest → s.appHold = none → s.appProg = c :: cs → decodeCommand c = .ok i → (∀ p, i ≠ .tick p) →
      step s = exec i { s with sched := rest, appProg := cs }) ∧
  (∀ (s : State) (rest : List Turn) (c : Cmd) (p : Nat),
    s.sched = .tick c :: rest → s.tickHold = none → decodeCommand c = .ok (.tick p) →
      step s = exec (.tick p) { s with sched := rest }) ∧
  (∀ (s : State) (rest : List Turn),
    s.sched = .dec :: rest → s.dec.sclHeld = true →
      step s = exec (decodeEvent s.dec.phaseCount s.dec.stat) { s with sched := rest }) ∧
  (∀ (s : State) (rest : List Turn) (p : Nat) (b : Byte), s.sched = .app :: rest → s.appHold = some (.putEntry p b) →
      step s = exec (.put p b) { s with sched := rest, appHold := none }) ∧
  (∀ (s : State) (rest : List Turn) (p : Nat), s.sched = .app :: rest → s.appHold = some (.flushEntry p) →
      step s = exec (.flush p) { s with sched := rest, appHold := none }) ∧
  (∀ (s : State) (rest : List Turn) (p : Nat), s.sched = .app :: rest → s.appHold = some (.getSwap p) →
      step s = exec (.get p) { s with sched := rest, appHold := none })

/-- Whatever bits are placed where the step fetches, the step runs the operation that decoding gives: a status word as the
pending event of DEC, a command word as the next command of its agent (the model's way to place a program, log 6). -/
def Obligations.PlacedWordIsRun : Prop :=
  (∀ (s : State) (w : Nat), w < 32 →
    step (s.withFetchWord 8 w) =
      exec (decodeEvent s.dec.phaseCount (BitVec.ofNat 5 w))
        { s with dec := { s.dec with
            stat := BitVec.ofNat 5 w
            rxReg := if w % 2 = 1 then 0 else s.dec.rxReg
            sclHeld := true } }) ∧
  (∀ (s : State) (w : Nat) (i : Instr), decodeTableWord 16 w = some i → (∀ p, i ≠ .tick p) →
    step (s.withFetchWord 16 w) = exec i { s with appHold := none }) ∧
  (∀ (s : State) (w : Nat) (p : Nat), decodeTableWord 16 w = some (.tick p) →
    step (s.withFetchWord 16 w) = exec (.tick p) { s with tickHold := none })

/-- An agent at a hold takes no other step (00_scope.md R9 (a), 42_fifo_in.md R171, R177, 60_exceptions.md R266): a tick that
arrives while the tick handler stands at a hold is lost (the model's reading, log 14); while the hardware owns the descriptor, a
turn of the agent at a hand-off hold changes nothing but the schedule; so does a turn of `APP` in a `GET` that waits, and one of
`APP` at the first line of a `PUT` or `FLUSH` while a hand-off of the port is pending. Rests on decision D17. -/
def Obligations.HoldStandsUntilHardwareLifts : Prop :=
  (∀ (s : State) (rest : List Turn) (c : Cmd) (p : Nat), s.sched = .tick c :: rest → s.tickHold = some p →
    step s = .next { s with sched := rest }) ∧
  (∀ (s : State) (rest : List Turn) (p : Nat) (q : Port), s.sched = .app :: rest → s.ports[p]? = some q → q.inited = true →
    q.inDesc.owned = true → (s.appHold = some (.putHandoff p) ∨ s.appHold = some (.flushHandoff p)) →
    step s = .next { s with sched := rest }) ∧
  (∀ (s : State) (rest : List Turn) (p : Nat) (q : Port), s.sched = .tickResume :: rest → s.ports[p]? = some q →
    q.inited = true → q.inDesc.owned = true → s.tickHold = some p → step s = .next { s with sched := rest }) ∧
  (∀ (s : State) (rest : List Turn) (p : Nat) (q : Port), s.sched = .app :: rest → s.ports[p]? = some q → q.inited = true →
    q.outLen = 0 → q.outDesc.owned = true → s.appHold = some (.getSwap p) → step s = .next { s with sched := rest }) ∧
  (∀ (s : State) (rest : List Turn) (p : Nat) (q : Port) (b : Byte), s.sched = .app :: rest → s.ports[p]? = some q →
    q.inited = true → q.inWait ≠ none → (s.appHold = some (.putEntry p b) ∨ s.appHold = some (.flushEntry p)) →
    step s = .next { s with sched := rest })

/-! ## Unit DEC -/

/-- `I2C.STOP` (40_i2c_decoder.md R134): the status words with mask 0x08 match 0x08; phase update, capture and release, whatever
`RW` says; nothing else changes. -/
def Obligations.StopEventEffect : Prop :=
  (∀ (ph : Phase) (w : BitVec 5), w &&& 0x08 = 0x08 →
    decodeEvent ph w = .i2cStop (w.getLsbD 4) (w.getLsbD 2) (w.getLsbD 1) (w.getLsbD 0)) ∧
  ∀ (s : State) (da st rw bf : Bool),
    exec (.i2cStop da st rw bf) s =
      .next { s with
        dec := afterEvent (if da then nextPhase true s.dec.phaseCount else .address) bf .idle false s.dec }

/-- The address phase of a write (R135 to R137): `WADDR` reaches no register but `stagedValue`; `AHI` writes the high byte of
`shadow`, and `pointer` only under the alternative commit policy; `ALO` writes the low byte and commits all of it. Rests on
decisions D4 and D9. -/
def Obligations.AddressPhaseEffect : Prop :=
  ∀ (s : State) (st bf : Bool),
    let v : Byte := if bf then s.dec.rxReg else s.dec.stagedValue
    exec (.i2cWaddr st bf) s = .next { s with dec := afterEvent .address bf .addrHi false s.dec } ∧
    exec (.i2cAhi st bf) s = .next { s with
      dec := { afterEvent (.data 0) bf .addrLo false s.dec with
        shadow := word16 v (loByte s.dec.shadow)
        pointer := if s.params.commitPolicy = .shadowOnly then s.dec.pointer else word16 v (loByte s.dec.shadow) } } ∧
    exec (.i2cAlo st bf) s = .next { s with
      dec := { afterEvent (.data 1) bf .streamWrite false s.dec with
        shadow := word16 (hiByte s.dec.shadow) v
        pointer := word16 (hiByte s.dec.shadow) v } }

/-- `I2C.WDATA` (R138): the byte goes to `pointer` as it was, the address read back everywhere else as before; a write to a
read-only or unmapped address is discarded; `pointer` moves on in every case; `REENUM` exactly at 0x070F. Rests on decisions
D6, D19 and D27. -/
def Obligations.WriteDataEffect : Prop :=
  ∀ (s : State) (st bf : Bool),
    let v : Byte := if bf then s.dec.rxReg else s.dec.stagedValue
    let a := s.dec.pointer
    ∃ t, exec (.i2cWdata st bf) s = .next t ∧
      t.dec = { afterEvent (nextPhase true s.dec.phaseCount) bf .streamWrite false s.dec with pointer := a + 1 } ∧
      (∀ b : Addr, (b = a → mutableAt a → asGet t b = v) ∧ (b ≠ a → asGet t b = asGet s b)) ∧
      (¬ mutableAt a → t.mem = s.mem) ∧
      t.trace = (if a = 0x070F then s.trace ++ [.reenum] else s.trace) ∧
      t.params = s.params ∧ t.telem = s.telem ∧ t.ports = s.ports ∧ t.appHold = s.appHold ∧ t.tickHold = s.tickHold ∧
      t.sched = s.sched ∧ t.appProg = s.appProg

/-- `I2C.RADDR` and `I2C.RNEXT` (R139, R140): mask 0x1A, match 0x02 and 0x12; one read at `pointer` as it was, pre-loaded into
`txReg`, `pointer` moved on; nothing else changes but what opens and closes an event. -/
def Obligations.ReadTurnEffect : Prop :=
  (∀ (ph : Phase) (w : BitVec 5), (w &&& 0x1A = 0x02 → decodeEvent ph w = .i2cRaddr (w.getLsbD 2) (w.getLsbD 0)) ∧
    (w &&& 0x1A = 0x12 → decodeEvent ph w = .i2cRnext (w.getLsbD 2) (w.getLsbD 0))) ∧
  ∀ (s : State) (st bf : Bool),
    exec (.i2cRaddr st bf) s = .next { s with
      dec := { afterEvent .address bf .streamRead true s.dec with
        txReg := asGet s s.dec.pointer
        pointer := s.dec.pointer + 1 } } ∧
    exec (.i2cRnext st bf) s = .next { s with
      dec := { afterEvent (nextPhase true s.dec.phaseCount) bf .streamRead true s.dec with
        txReg := asGet s s.dec.pointer
        pointer := s.dec.pointer + 1 } }

/-- The phase counter (R131, R145): it counts data bytes and stays at 127 (decision D5; its type is the model's, log 8). -/
def Obligations.PhaseCountSaturates : Prop :=
  ∀ ph : Phase, nextPhase false ph = .address ∧
    phaseInt (nextPhase true ph) = (if phaseInt ph < 127 then phaseInt ph + 1 else 127) ∧
    -1 ≤ phaseInt ph ∧ phaseInt ph ≤ 127

/-- The seven classes together are the normative handler: a step of DEC with an event pending is `DEC_EVENT()` of R151, in
every state and for every status word. Two things of `decHandler` are not in R151: under the alternative commit policy
`pointer_from_shadow` the first address byte also writes `pointer` (R136, decision D4, log 5), and it sets the model's labels of
the event (R148, log 10). -/
def Obligations.DecStepIsNormativeHandler : Prop :=
  ∀ (s : State) (rest : List Turn), s.sched = .dec :: rest → s.dec.sclHeld = true →
    step s = .next (decHandler { s with sched := rest })

/-- Totality (R149, which the spec derives from R151): in every state with an event pending, DEC's step completes and releases
the clock. -/
def Obligations.EveryEventCompletes : Prop :=
  ∀ (s : State) (rest : List Turn), s.sched = .dec :: rest → s.dec.sclHeld = true →
    ∃ t, step s = .next t ∧ t.dec.sclHeld = false

/-- Only the writers that R146 names move `pointer` and `shadow`: a step that changes `pointer` handles an `ALO`, `WDATA`,
`RADDR` or `RNEXT`, or an `AHI` under the alternative policy; one that changes `shadow` handles an `AHI` or an `ALO`. -/
def Obligations.PointerAndShadowWriters : Prop :=
  ∀ (s t : State), step s = .next t →
    (t.dec.pointer ≠ s.dec.pointer → (∃ rest, s.sched = .dec :: rest) ∧ s.dec.sclHeld = true ∧
      ∃ st bf, (decodeEvent s.dec.phaseCount s.dec.stat = .i2cAlo st bf ∨
        decodeEvent s.dec.phaseCount s.dec.stat = .i2cWdata st bf ∨
        decodeEvent s.dec.phaseCount s.dec.stat = .i2cRaddr st bf ∨
        decodeEvent s.dec.phaseCount s.dec.stat = .i2cRnext st bf ∨
        (decodeEvent s.dec.phaseCount s.dec.stat = .i2cAhi st bf ∧ s.params.commitPolicy = .pointerFromShadow))) ∧
    (t.dec.shadow ≠ s.dec.shadow → (∃ rest, s.sched = .dec :: rest) ∧ s.dec.sclHeld = true ∧
      ∃ st bf, (decodeEvent s.dec.phaseCount s.dec.stat = .i2cAhi st bf ∨
        decodeEvent s.dec.phaseCount s.dec.stat = .i2cAlo st bf))

/-- A write transaction (R150 (a), which the spec derives) under profile `EP_MIN`, from any state with no event pending: the two
address bytes set `shadow` and `pointer`, the `k` data bytes are written in order from there, `pointer` ends at the address plus
`k` and `phaseCount` at `min(k + 1, 127)`. That the bus raises these events is the profile `EP_MIN` (decision D22, PRESUMED,
log 21); the counter that saturates is decision D5, the flat pointer arithmetic decision D6. -/
def Obligations.WriteTransactionLaw : Prop :=
  ∀ (s : State) (hi lo : Byte) (ds : List Byte), s.dec.sclHeld = false → s.sched = i2cWrite .epMin (hi :: lo :: ds) →
    ∃ t, Host.Core.run core (2 * (ds.length + 3)) s = .next t ∧
      t.dec.pointer = word16 hi lo + BitVec.ofNat 16 ds.length ∧
      t.dec.shadow = word16 hi lo ∧
      phaseInt t.dec.phaseCount = min ((ds.length : Int) + 1) 127 ∧
      t.dec.sclHeld = false ∧ t.dec.txReg = s.dec.txReg ∧
      t.mem = (writeStream (word16 hi lo) ds s).mem ∧
      t.trace = (writeStream (word16 hi lo) ds s).trace ∧
      t.sched = [] ∧ t.ports = s.ports ∧ t.telem = s.telem

/-- A read transaction (R150 (b), which the spec derives) under profile `EP_MIN`, from any state with no event pending: the master
receives the bytes at `pointer`, `pointer + 1`, … in order and `pointer` ends `k` further on; memory, `shadow` and the ports are
unchanged. That the bus raises these events is the profile `EP_MIN` (decision D22, PRESUMED, log 21); the flat pointer arithmetic
is decision D6. -/
def Obligations.ReadTransactionLaw : Prop :=
  ∀ (s : State) (k : Nat), s.dec.sclHeld = false → s.sched = i2cRead .epMin (k + 1) →
    ∃ t, Host.Core.run core (3 * (k + 1)) s = .next t ∧
      t.dec.pointer = s.dec.pointer + BitVec.ofNat 16 (k + 1) ∧
      t.dec.shadow = s.dec.shadow ∧ t.dec.sclHeld = false ∧
      t.trace = s.trace ++ (List.range (k + 1)).map (fun i => .tx (asGet s (s.dec.pointer + BitVec.ofNat 16 i))) ∧
      t.mem = s.mem ∧ t.sched = [] ∧ t.ports = s.ports ∧ t.telem = s.telem

/-! ## The address space -/

/-- `AS_get` by the ranges of 20_memory.md R62. -/
def Obligations.AsGetByRanges : Prop :=
  ∀ (s : State) (a : Addr), s.params.identity.length = 1024 →
    asGet s a =
      if h : a.toNat ≤ 0x03FF ∧ a.toNat < s.params.identity.length then s.params.identity[a.toNat]'h.2
      else if 0x0400 ≤ a.toNat ∧ a.toNat ≤ 0x04FF then memRead s.mem a.toNat
      else if 0x0600 ≤ a.toNat ∧ a.toNat ≤ 0x06FF then telemetryGet s.telem (loByte a)
      else if 0x0700 ≤ a.toNat ∧ a.toNat ≤ 0x070F then memRead s.mem a.toNat
      else if 0x0800 ≤ a.toNat ∧ a.toNat ≤ 0x0802 then memRead s.mem a.toNat
      else 0xFF

/-- A Telemetry read (R66) by channel and field nibble: the channel sentinel comes first. Field codes and order of tests are
decision D18. -/
def Obligations.TelemetryByNibbles : Prop :=
  ∀ (telem : List TelemRec) (o : Byte),
    (telem.length ≤ o.toNat % 16 → telemetryGet telem o = 0xFD) ∧
    (∀ r, telem[o.toNat % 16]? = some r →
      (o.toNat / 16 = 0 → telemetryGet telem o = if r.enabled then 0x01 else 0x00) ∧
      (o.toNat / 16 = 1 → telemetryGet telem o = r.updateCounter) ∧
      (o.toNat / 16 = 2 → (telemetryGet telem o).toNat = r.value.toNat % 256) ∧
      (o.toNat / 16 = 3 → (telemetryGet telem o).toNat = r.value.toNat / 256) ∧
      (4 ≤ o.toNat / 16 → telemetryGet telem o = 0xFE))

/-- `ASGET` and `ASSET` (R62, R63, R67, R73) complete in every state: `ASGET` only returns the byte; after `ASSET` the written
byte is read at a read/write address, every other address reads as before, a write elsewhere is discarded, `REENUM` is
emitted exactly at 0x070F, and no register of DEC, no port and no hold changes. Rests on decisions D19 and D27. -/
def Obligations.DirectAccessEffect : Prop :=
  ∀ (s : State) (a : Addr) (v : Byte),
    exec (.asget a) s = .next { s with trace := s.trace ++ [.ret (.byte (asGet s a))] } ∧
    ∃ t, exec (.asset a v) s = .next t ∧
      (mutableAt a → asGet t a = v) ∧ (∀ b : Addr, b ≠ a → asGet t b = asGet s b) ∧
      (¬ mutableAt a → t.mem = s.mem) ∧
      t.trace = (if a = 0x070F then s.trace ++ [.reenum] else s.trace) ∧
      t.dec = s.dec ∧ t.params = s.params ∧ t.telem = s.telem ∧ t.ports = s.ports ∧ t.appHold = s.appHold ∧
      t.tickHold = s.tickHold ∧ t.sched = s.sched ∧ t.appProg = s.appProg

/-- A read of a read-only or unmapped address is invariant under any preceding write (R63, R64, R69; decision D19). -/
def Obligations.ReadOnlyReadsAreInvariant : Prop :=
  ∀ (s : State) (a b : Addr) (v : Byte), ¬ mutableAt b → asGet (asSet a v s) b = asGet s b

/-! ## Unit FIFO, IN path -/

/-- A `PUT` that does not fill the buffer (42_fifo_in.md R172) appends its byte and completes; every other byte of both buffers
and everything else is unchanged. -/
def Obligations.PutAppends : Prop :=
  ∀ (s : State) (p : Nat) (b : Byte) (q : Port), s.ports[p]? = some q → q.inited = true → q.inWait = none →
    (q.inLen + 1).toNat ≠ s.params.packetSize →
    ∃ bufs : BufPair, exec (.put p b) s =
        .next { s with ports := s.ports.set p { q with inBuf := bufs, inLen := q.inLen + 1 } } ∧
      ∀ isA i, cellLookup (bufs.sel isA) i =
        if isA = q.activeInIsA ∧ i = q.inLen.toNat then some b else cellLookup (q.inBuf.sel isA) i

/-- The `PUT` that fills the buffer while the hardware owns nothing (R172, R170): the byte is appended, the buffer handed off
with length `N`, toggle and active flag flipped, `inLen` 0, `zlpPending` set, and the submission emitted, in one step. -/
def Obligations.PutLastByteHandsOff : Prop :=
  ∀ (s : State) (p : Nat) (b : Byte) (q : Port), s.ports[p]? = some q → q.inited = true → q.inWait = none →
    (q.inLen + 1).toNat = s.params.packetSize → q.inDesc.owned = false →
    ∃ bufs : BufPair, exec (.put p b) s =
        .next { s with
          ports := s.ports.set p { q with
            inBuf := bufs
            inLen := 0
            activeInIsA := !q.activeInIsA
            zlpPending := true
            inDesc := ⟨true, q.activeInIsA, BitVec.ofNat 8 s.params.packetSize, !q.inDesc.toggle⟩ }
          trace := s.trace ++
            [.submitIn p q.activeInIsA (BitVec.ofNat 8 s.params.packetSize) (!q.inDesc.toggle)] } ∧
      ∀ isA i, cellLookup (bufs.sel isA) i =
        if isA = q.activeInIsA ∧ i = q.inLen.toNat then some b else cellLookup (q.inBuf.sel isA) i

/-- Where a `PUT` holds (R171, R172, R177): at its first line while a hand-off of the port is pending, with no effect but the
hold; at its hand-off, when the byte fills the buffer and the hardware still owns the descriptor, the byte appended first. -/
def Obligations.PutHolds : Prop :=
  ∀ (s : State) (p : Nat) (b : Byte) (q : Port), s.ports[p]? = some q → q.inited = true →
    (q.inWait ≠ none → exec (.put p b) s = .next { s with appHold := some (.putEntry p b) }) ∧
    (q.inWait = none → (q.inLen + 1).toNat = s.params.packetSize → q.inDesc.owned = true →
      ∃ bufs : BufPair, exec (.put p b) s =
          .next { s with
            ports := s.ports.set p { q with
              inBuf := bufs
              inLen := q.inLen + 1
              inWait := some ⟨BitVec.ofNat 8 s.params.packetSize, .put⟩ }
            appHold := some (.putHandoff p) } ∧
        ∀ isA i, cellLookup (bufs.sel isA) i =
          if isA = q.activeInIsA ∧ i = q.inLen.toNat then some b else cellLookup (q.inBuf.sel isA) i)

/-- `FLUSH` while the hardware owns nothing (R173, R174): the partial hand-off, the zero-length hand-off when only that is owed,
and nothing at all when nothing is owed or the guard is set; it completes in each case. -/
def Obligations.FlushCompletes : Prop :=
  ∀ (s : State) (p : Nat) (q : Port), s.ports[p]? = some q → q.inited = true → q.inWait = none → q.inDesc.owned = false →
    exec (.flush p) s =
      if q.flushInProgress = false ∧ (q.inLen ≠ 0 ∨ q.zlpPending = true) then
        .next { s with
          ports := s.ports.set p { q with
            inLen := 0
            activeInIsA := !q.activeInIsA
            zlpPending := false
            inDesc := ⟨true, q.activeInIsA, q.inLen, !q.inDesc.toggle⟩ }
          trace := s.trace ++ [.submitIn p q.activeInIsA q.inLen (!q.inDesc.toggle)] }
      else .next s

/-- The flush guard (R174): a `FLUSH` that finds the guard set returns at once and changes nothing. -/
def Obligations.GuardedFlushIsNoOp : Prop :=
  ∀ (s : State) (p : Nat) (q : Port), s.ports[p]? = some q → q.inited = true → q.inWait = none →
    q.flushInProgress = true → exec (.flush p) s = .next s

/-- Where a `FLUSH` holds (R171, R173, R177): at its first line while a hand-off of the port is pending; at its hand-off while
the hardware owns the descriptor, with the guard set and the length it read; and it does not hold with nothing to send. -/
def Obligations.FlushHolds : Prop :=
  ∀ (s : State) (p : Nat) (q : Port), s.ports[p]? = some q → q.inited = true →
    (q.inWait ≠ none → exec (.flush p) s = .next { s with appHold := some (.flushEntry p) }) ∧
    (q.inWait = none → q.inDesc.owned = true → q.flushInProgress = false → (q.inLen ≠ 0 ∨ q.zlpPending = true) →
      exec (.flush p) s = .next { s with
        ports := s.ports.set p { q with flushInProgress := true, inWait := some ⟨q.inLen, .flush⟩ }
        appHold := some (.flushHandoff p) }) ∧
    (q.inWait = none → q.flushInProgress = false → q.inLen = 0 → q.zlpPending = false → exec (.flush p) s = .next s)

/-- `TICK` (R175, R176; 70_reset_and_hazards.md R294). Below the threshold it counts. At the threshold it restarts the count and
sends nothing while a hand-off is pending, or when a tick must not wait and the hardware owns the descriptor, or when the
guard is set or nothing is owed. Rests on decisions D15 and D16. -/
def Obligations.TickCounts : Prop :=
  ∀ (s : State) (p : Nat) (q : Port), s.ports[p]? = some q → q.inited = true →
    ((q.timeoutCounter + 1).toNat < s.params.flushTicks →
      exec (.tick p) s = .next { s with ports := s.ports.set p { q with timeoutCounter := q.timeoutCounter + 1 } }) ∧
    (s.params.flushTicks ≤ (q.timeoutCounter + 1).toNat →
      (q.inWait ≠ none ∨ (s.params.tickFlushBlocks = false ∧ q.inDesc.owned = true) ∨ q.flushInProgress = true ∨
        (q.inLen = 0 ∧ q.zlpPending = false)) →
      exec (.tick p) s = .next { s with ports := s.ports.set p { q with timeoutCounter := 0 } })

/-- A tick at the threshold with bytes waiting or a zero-length packet owed (R175): with the descriptor free it submits and
restarts the count; with the descriptor owned, under the decided policy, the tick handler stands at the hold with the count
not yet restarted. Rests on decisions D15 to D17. -/
def Obligations.TickForcesFlush : Prop :=
  ∀ (s : State) (p : Nat) (q : Port), s.ports[p]? = some q → q.inited = true → q.inWait = none →
    q.flushInProgress = false → (q.inLen ≠ 0 ∨ q.zlpPending = true) →
    s.params.flushTicks ≤ (q.timeoutCounter + 1).toNat →
    (q.inDesc.owned = false → exec (.tick p) s = .next { s with
      ports := s.ports.set p { q with
        inLen := 0
        activeInIsA := !q.activeInIsA
        zlpPending := false
        timeoutCounter := 0
        inDesc := ⟨true, q.activeInIsA, q.inLen, !q.inDesc.toggle⟩ }
      trace := s.trace ++ [.submitIn p q.activeInIsA q.inLen (!q.inDesc.toggle)] }) ∧
    (q.inDesc.owned = true → s.params.tickFlushBlocks = true → exec (.tick p) s = .next { s with
      ports := s.ports.set p { q with
        flushInProgress := true
        inWait := some ⟨q.inLen, .flush⟩
        timeoutCounter := q.timeoutCounter + 1 }
      tickHold := some p })

/-- What a lifted hold does (R170 to R173, R175): once the hardware no longer owns the descriptor, the turn of the agent that
stands at the hand-off submits the pending length and sets the flags of its command, in one step. -/
def Obligations.LiftedHandoffCompletes : Prop :=
  ∀ (s : State) (rest : List Turn) (p : Nat) (q : Port) (w : InWait), s.ports[p]? = some q → q.inited = true →
    q.inWait = some w → q.inDesc.owned = false →
    (s.sched = .app :: rest → s.appHold = some (.putHandoff p) → step s = .next { s with
      sched := rest
      appHold := none
      ports := s.ports.set p { q with
        inLen := 0
        activeInIsA := !q.activeInIsA
        inWait := none
        zlpPending := true
        inDesc := ⟨true, q.activeInIsA, w.len, !q.inDesc.toggle⟩ }
      trace := s.trace ++ [.submitIn p q.activeInIsA w.len (!q.inDesc.toggle)] }) ∧
    (s.sched = .app :: rest → s.appHold = some (.flushHandoff p) → step s = .next { s with
      sched := rest
      appHold := none
      ports := s.ports.set p { q with
        inLen := 0
        activeInIsA := !q.activeInIsA
        inWait := none
        zlpPending := false
        flushInProgress := false
        inDesc := ⟨true, q.activeInIsA, w.len, !q.inDesc.toggle⟩ }
      trace := s.trace ++ [.submitIn p q.activeInIsA w.len (!q.inDesc.toggle)] }) ∧
    (s.sched = .tickResume :: rest → s.tickHold = some p → step s = .next { s with
      sched := rest
      tickHold := none
      ports := s.ports.set p { q with
        inLen := 0
        activeInIsA := !q.activeInIsA
        inWait := none
        zlpPending := false
        flushInProgress := false
        timeoutCounter := 0
        inDesc := ⟨true, q.activeInIsA, w.len, !q.inDesc.toggle⟩ }
      trace := s.trace ++ [.submitIn p q.activeInIsA w.len (!q.inDesc.toggle)] })

/-- `INRDY` and `OUTRDY` (42_fifo_in.md R178, 43_fifo_out.md R203): the words with `op` 6 and 7; each returns the negation of the
ownership bit and changes nothing. -/
def Obligations.ReadyQueriesEffect : Prop :=
  (∀ w : BitVec 16, (w.toNat / 4096 = 6 → decodeCommand ⟨w, []⟩ = .ok (.inrdy (w.toNat / 256 % 16))) ∧
    (w.toNat / 4096 = 7 → decodeCommand ⟨w, []⟩ = .ok (.outrdy (w.toNat / 256 % 16)))) ∧
  ∀ (s : State) (p : Nat) (q : Port), s.ports[p]? = some q → q.inited = true →
    exec (.inrdy p) s = .next { s with trace := s.trace ++ [.ret (.bool (!q.inDesc.owned))] } ∧
    exec (.outrdy p) s = .next { s with trace := s.trace ++ [.ret (.bool (!q.outDesc.owned))] }

/-- `timeoutCounter` is written by `TICK` and `INIT` only (R182): a step that changes it is a tick's, the tick handler's from
its hold, or one of `APP` that issues `INIT` of that port. Rests on decision D15. -/
def Obligations.TimeoutCounterWriters : Prop :=
  ∀ (s t : State) (p : Nat) (q q' : Port), step s = .next t → s.ports[p]? = some q → t.ports[p]? = some q' →
    q'.timeoutCounter ≠ q.timeoutCounter →
    (∃ c rest, s.sched = .tick c :: rest ∧ decodeCommand c = .ok (.tick p)) ∨
    (∃ rest, s.sched = .tickResume :: rest ∧ s.tickHold = some p) ∨
    (∃ c cs rest, s.sched = .app :: rest ∧ s.appHold = none ∧ s.appProg = c :: cs ∧ decodeCommand c = .ok (.init p))

/-! ## Unit FIFO, OUT path -/

/-- `GET` with bytes left (43_fifo_out.md R201, R205): the byte at index `outCnt - outLen` of the buffer being drained is
returned and consumed. The read index is decision D12. -/
def Obligations.GetReturnsNextByte : Prop :=
  ∀ (s : State) (p : Nat) (q : Port) (b : Byte), s.ports[p]? = some q → q.inited = true → q.outLen ≠ 0 →
    cellLookup (q.outBuf.sel q.activeOutIsA) (q.outCnt - q.outLen).toNat = some b →
    exec (.get p) s = .next { s with
      ports := s.ports.set p { q with outLen := q.outLen - 1 }
      trace := s.trace ++ [.ret (.byte b)] }

/-- `GET` with none left and a completed packet (R200, R201, R204): it swaps, and returns the first byte of the packet, or,
if the packet has length 0, returns nothing and stands at the hold; with no completed packet it only stands at the hold. The
swap is decision D14. -/
def Obligations.GetSwapsOrHolds : Prop :=
  ∀ (s : State) (p : Nat) (q : Port), s.ports[p]? = some q → q.inited = true → q.outLen = 0 →
    (q.outDesc.owned = true → exec (.get p) s = .next { s with appHold := some (.getSwap p) }) ∧
    (q.outDesc.owned = false → q.outDesc.count = 0 → exec (.get p) s = .next { s with
      ports := s.ports.set p { q with
        outCnt := 0
        activeOutIsA := q.outDesc.bufIsA
        outDesc := ⟨true, !q.outDesc.bufIsA, BitVec.ofNat 8 s.params.packetSize, !q.outDesc.toggle⟩ }
      trace := s.trace ++ [.armOut p (!q.outDesc.bufIsA) (!q.outDesc.toggle)]
      appHold := some (.getSwap p) }) ∧
    (∀ b, q.outDesc.owned = false → q.outDesc.count ≠ 0 → cellLookup (q.outBuf.sel q.outDesc.bufIsA) 0 = some b →
      exec (.get p) s = .next { s with
        ports := s.ports.set p { q with
          outCnt := q.outDesc.count
          outLen := q.outDesc.count - 1
          activeOutIsA := q.outDesc.bufIsA
          outDesc := ⟨true, !q.outDesc.bufIsA, BitVec.ofNat 8 s.params.packetSize, !q.outDesc.toggle⟩ }
        trace := s.trace ++ [.armOut p (!q.outDesc.bufIsA) (!q.outDesc.toggle), .ret (.byte b)] })

/-- `PEEK` (R202): it never holds and consumes nothing; with bytes left it returns the next one; with none and no completed
packet it returns unavailable and changes nothing; with a completed packet it swaps once and returns its first byte, or
unavailable if its length is 0. Rests on decisions D14 and D23. -/
def Obligations.PeekAnswersOnce : Prop :=
  ∀ (s : State) (p : Nat) (q : Port), s.ports[p]? = some q → q.inited = true →
    (∀ b, q.outLen ≠ 0 → cellLookup (q.outBuf.sel q.activeOutIsA) (q.outCnt - q.outLen).toNat = some b →
      exec (.peek p) s = .next { s with trace := s.trace ++ [.ret (.peek (some b))] }) ∧
    (q.outLen = 0 → q.outDesc.owned = true →
      exec (.peek p) s = .next { s with trace := s.trace ++ [.ret (.peek none)] }) ∧
    (∀ a, q.outLen = 0 → q.outDesc.owned = false →
      (a = none ∧ q.outDesc.count = 0 ∨
        q.outDesc.count ≠ 0 ∧ a ≠ none ∧ cellLookup (q.outBuf.sel q.outDesc.bufIsA) 0 = a) →
      exec (.peek p) s = .next { s with
        ports := s.ports.set p { q with
          outCnt := q.outDesc.count
          outLen := q.outDesc.count
          activeOutIsA := q.outDesc.bufIsA
          outDesc := ⟨true, !q.outDesc.bufIsA, BitVec.ofNat 8 s.params.packetSize, !q.outDesc.toggle⟩ }
        trace := s.trace ++ [.armOut p (!q.outDesc.bufIsA) (!q.outDesc.toggle), .ret (.peek a)] })

/-! ## Port control, latches, refusals -/

/-- `INIT` (44_port_control.md R220, R227): every register of the port but its buffers takes the value of R220, `ARM_OUT` is
emitted, nothing else changes; on an initialised port it is refused. Rests on decisions D13, D24 and D25. -/
def Obligations.InitEffect : Prop :=
  ∀ (s : State) (p : Nat) (q : Port), s.ports[p]? = some q →
    (q.inited = false → exec (.init p) s = .next { s with
      ports := s.ports.set p
        { inBuf := q.inBuf, outBuf := q.outBuf, inLen := 0, outLen := 0, outCnt := 0, activeInIsA := true,
          activeOutIsA := false, timeoutCounter := 0, zlpPending := false, flushInProgress := false, inWait := none,
          lineCoding := ⟨115200, .one, .none, 8⟩, controlLine := ⟨false, false⟩, inited := true,
          inDesc := ⟨false, false, 0, true⟩,
          outDesc := ⟨true, true, BitVec.ofNat 8 s.params.packetSize, false⟩ }
      trace := s.trace ++ [.armOut p true false] }) ∧
    (q.inited = true → exec (.init p) s = .refused .alreadyInited)

/-- `SETLC` (R221, R224): with a rate above 0 and a divisor that is a u16 the coding is stored and the divisor emitted; a rate
of 0 and any other divisor are refused. Which are refused is decision D25. -/
def Obligations.SetLineCodingEffect : Prop :=
  ∀ (s : State) (p : Nat) (q : Port) (c : LineCoding), s.ports[p]? = some q → q.inited = true →
    let quo := s.params.clockFreq / c.baudRate.toNat
    let r := s.params.clockFreq % c.baudRate.toNat
    let d : Int := if c.baudRate.toNat > 2 * r then (quo : Int) - 1 else quo
    (c.baudRate = 0 → exec (.setlc p c) s = .refused .zeroBaud) ∧
    (∀ w : BitVec 16, c.baudRate ≠ 0 → d = (w.toNat : Int) →
      exec (.setlc p c) s = .next { s with
        ports := s.ports.set p { q with lineCoding := c }
        trace := s.trace ++ [.divisor p w] }) ∧
    (c.baudRate ≠ 0 → (d < 0 ∨ 0xFFFF < d) → exec (.setlc p c) s = .refused .divisorRange)

/-- The divisor (R221, R224): one less than the quotient rounded to the nearest integer, halves up; it is negative exactly
when the rate exceeds twice the clock. -/
def Obligations.DivisorRoundsHalfUp : Prop :=
  ∀ (clock baud : Nat), 0 < baud →
    divisorOf clock baud + 1 = (((2 * clock + baud) / (2 * baud) : Nat) : Int) ∧
    (divisorOf clock baud < 0 ↔ 2 * clock < baud)

/-- `GETLC` (R222): the words with `op` 9; it returns the seven bytes of the stored coding and changes nothing; those bytes decode
to the coding; what a `SETLC` that completes stored is what a `GETLC` then returns, and after `INIT` it is the default; and the
coding stays until the next: a step that changes it is one in which `APP` issues `SETLC` or `INIT` of that port. -/
def Obligations.GetLineCodingReturnsStored : Prop :=
  (∀ w : BitVec 16, w.toNat / 4096 = 9 → decodeCommand ⟨w, []⟩ = .ok (.getlc (w.toNat / 256 % 16))) ∧
  (∀ (s : State) (p : Nat) (q : Port), s.ports[p]? = some q → q.inited = true →
    exec (.getlc p) s = .next { s with trace := s.trace ++ [.ret (.coding (codingBytes q.lineCoding))] }) ∧
  (∀ c : LineCoding, codingOf (codingBytes c) = .ok c) ∧
  (∀ (s t : State) (p : Nat) (c : LineCoding), exec (.setlc p c) s = .next t →
    exec (.getlc p) t = .next { t with trace := t.trace ++ [.ret (.coding (codingBytes c))] }) ∧
  (∀ (s t : State) (p : Nat), exec (.init p) s = .next t →
    exec (.getlc p) t = .next { t with trace := t.trace ++ [.ret (.coding [0x00, 0xC2, 0x01, 0x00, 0x00, 0x00, 0x08])] }) ∧
  (∀ (s t : State) (p : Nat) (q q' : Port), step s = .next t → s.ports[p]? = some q → t.ports[p]? = some q' →
    q'.lineCoding ≠ q.lineCoding →
    ∃ c cs rest, s.sched = .app :: rest ∧ s.appHold = none ∧ s.appProg = c :: cs ∧
      (decodeCommand c = .ok (.setlc p q'.lineCoding) ∨
        (decodeCommand c = .ok (.init p) ∧ q'.lineCoding = ⟨115200, .one, .none, 8⟩)))

/-- `SETCLS` (R223): the words with `op` 0xA, DTR from bit 0 and RTS from bit 1; it stores the two bits and changes nothing else. -/
def Obligations.SetControlLineEffect : Prop :=
  (∀ w : BitVec 16, w.toNat / 4096 = 10 →
    decodeCommand ⟨w, []⟩ = .ok (.setcls (w.toNat / 256 % 16) (decide (w.toNat % 2 = 1)) (decide (w.toNat / 2 % 2 = 1)))) ∧
  ∀ (s : State) (p : Nat) (q : Port) (dtr rts : Bool), s.ports[p]? = some q → q.inited = true →
    exec (.setcls p dtr rts) s = .next { s with ports := s.ports.set p { q with controlLine := ⟨dtr, rts⟩ } }

/-- `I2CRESET` (60_exceptions.md R263): every word with `op` 0xB; it clears the two latches and nothing else, in every state. -/
def Obligations.I2cResetEffect : Prop :=
  (∀ w : BitVec 16, w.toNat / 4096 = 11 → decodeCommand ⟨w, []⟩ = .ok .i2creset) ∧
  ∀ s : State, exec .i2creset s = .next { s with dec := { s.dec with wcolLatch := false, rxOvfLatch := false } }

/-- Refused encodings (30_encoding.md R108 (a) to (d)): a reserved code; a command with a port operand whose port does not
exist; one other than `INIT` on a port that was never initialised; a `SETLC` with a stop-bits code above 2 or a parity code above
4, which decodes to nothing, and `APP`'s turn with a command that decodes to nothing is refused. Rests on decision D24; the names of
the refusals and which comes first are the model's (log 16). -/
def Obligations.RefusedCommands : Prop :=
  (∀ (s : State) (w : BitVec 16), exec (.reserved w) s = .refused .reservedCommand) ∧
  (∀ (s : State) (i : Instr) (p : Nat), portOf i = some p → s.ports.length ≤ p → exec i s = .refused .badPort) ∧
  (∀ (s : State) (i : Instr) (p : Nat) (q : Port), portOf i = some p → s.ports[p]? = some q → q.inited = false →
    i ≠ .init p → exec i s = .refused .notInited) ∧
  (∀ (w : BitVec 16) (r0 r1 r2 r3 f y d : Byte), cmdOp w = 8 →
    (2 < f.toNat → decodeCommand ⟨w, [r0, r1, r2, r3, f, y, d]⟩ = .error .stopBitsCode) ∧
    (f.toNat ≤ 2 → 4 < y.toNat → decodeCommand ⟨w, [r0, r1, r2, r3, f, y, d]⟩ = .error .parityCode)) ∧
  (∀ (s : State) (rest : List Turn) (c : Cmd) (cs : List Cmd) (e : DecodeError), s.sched = .app :: rest →
    s.appHold = none → s.appProg = c :: cs → decodeCommand c = .error e → step s = .refused (.undecodable e))

/-! ## The external agents -/

/-- `HWEP.INDONE` (46_environment.md R240): the granted bytes go to the host with their toggle and the ownership bit falls;
nothing else changes. -/
def Obligations.InDoneEffect : Prop :=
  ∀ (s : State) (rest : List Turn) (p : Nat) (q : Port) (bytes : List Byte), s.sched = .hwepInDone p :: rest →
    s.ports[p]? = some q → q.inited = true → q.inDesc.owned = true → bytes.length = q.inDesc.count.toNat →
    (∀ i, i < bytes.length → cellLookup (q.inBuf.sel q.inDesc.bufIsA) i = bytes[i]?) →
    step s = .next { s with
      sched := rest
      ports := s.ports.set p { q with inDesc := { q.inDesc with owned := false } }
      trace := s.trace ++ [.pktIn p bytes q.inDesc.toggle] }

/-- `HWEP.OUTDONE` (R241): the armed buffer holds the bytes from index 0, `count` is their number, the ownership bit falls,
nothing else changes. That an index from `|bytes|` on holds no value is the model's form of "unspecified" (log 3). -/
def Obligations.OutDoneEffect : Prop :=
  ∀ (s : State) (rest : List Turn) (p : Nat) (q : Port) (bytes : List Byte), s.sched = .hwepOutDone p bytes :: rest →
    s.ports[p]? = some q → q.inited = true → q.outDesc.owned = true → bytes.length ≤ s.params.packetSize →
    ∃ bufs : BufPair, step s = .next { s with
        sched := rest
        ports := s.ports.set p { q with
          outBuf := bufs
          outDesc := { q.outDesc with owned := false, count := BitVec.ofNat 8 bytes.length } } } ∧
      bufs.sel (!q.outDesc.bufIsA) = q.outBuf.sel (!q.outDesc.bufIsA) ∧
      ∀ i, cellLookup (bufs.sel q.outDesc.bufIsA) i = bytes[i]?

/-- The I2C peripheral and the producers (R242, R243, R245, R246): an event is raised only while none is pending and only a
byte that comes with it reaches `rxReg`; a sample sends `txReg` and is then no longer due, so that there is one per read turn; a
latch is set; a record of an existing channel is replaced; a producer reads `pointer` whole (20_memory.md R77), reads any
address, and writes one Outputs byte and nothing else (R68, R73). That a turn which is not enabled is refused (log 13), that
`PROD.READPTR` leaves a record (log 11) and which addresses a producer accesses (log 22) are the model's. Rests on decisions D7
and D30. -/
def Obligations.PeripheralStepsEffect : Prop :=
  ∀ (s : State) (rest : List Turn),
    (∀ stat rx, s.sched = .i2cpEvent stat rx :: rest → s.dec.sclHeld = false → step s = .next { s with
      sched := rest
      dec := { s.dec with stat := stat, rxReg := if stat.getLsbD 0 then rx else s.dec.rxReg, sclHeld := true } }) ∧
    (∀ stat rx, s.sched = .i2cpEvent stat rx :: rest → s.dec.sclHeld = true → step s = .refused .notEnabled) ∧
    (s.sched = .i2cpSample :: rest → s.dec.sclHeld = false → s.dec.sampleDue = true → step s = .next { s with
      sched := rest
      dec := { s.dec with sampleDue := false }
      trace := s.trace ++ [.tx s.dec.txReg] }) ∧
    (s.sched = .i2cpSample :: rest → (s.dec.sclHeld = true ∨ s.dec.sampleDue = false) → step s = .refused .notEnabled) ∧
    (s.sched = .i2cpLatch .wcol :: rest → step s = .next { s with sched := rest, dec := { s.dec with wcolLatch := true } }) ∧
    (s.sched = .i2cpLatch .rxovf :: rest →
      step s = .next { s with sched := rest, dec := { s.dec with rxOvfLatch := true } }) ∧
    (∀ ch rec, s.sched = .prodTelem ch rec :: rest → ch < s.telem.length →
      step s = .next { s with sched := rest, telem := s.telem.set ch rec }) ∧
    (∀ ch rec, s.sched = .prodTelem ch rec :: rest → s.telem.length ≤ ch → step s = .refused .notEnabled) ∧
    (s.sched = .prodReadPtr :: rest →
      step s = .next { s with sched := rest, trace := s.trace ++ [.ret (.pointer s.dec.pointer)] }) ∧
    (∀ a, s.sched = .prodGet a :: rest →
      step s = .next { s with sched := rest, trace := s.trace ++ [.ret (.byte (asGet s a))] }) ∧
    (∀ (i : Fin 3) v, s.sched = .prodOutput i v :: rest →
      ∃ mem, step s = .next { s with sched := rest, mem := mem } ∧
        ∀ b : Addr, asGet { s with mem := mem } b = if b.toNat = 0x0800 + i.val then v else asGet s b)

/-- Only the hardware takes the ownership bits away (R240, R241, R247): a step that makes `IN[p].owned` false on an initialised
port is `HWEP.INDONE(p)`, one that makes `OUT[p].owned` false is `HWEP.OUTDONE(p, …)`. -/
def Obligations.OnlyHardwareLiftsOwnership : Prop :=
  ∀ (s t : State) (p : Nat) (q q' : Port), step s = .next t → s.ports[p]? = some q → t.ports[p]? = some q' →
    q.inited = true →
    (q.inDesc.owned = true → q'.inDesc.owned = false → ∃ rest, s.sched = .hwepInDone p :: rest) ∧
    (q.outDesc.owned = true → q'.outDesc.owned = false → ∃ bytes rest, s.sched = .hwepOutDone p bytes :: rest)

/-! ## Separation -/

/-- The two units share no state (10_state.md R30, R52): a byte event leaves every port as it is and a command other than
`I2CRESET` leaves every register of DEC as it is; the commands of the ports leave the stores too. -/
def Obligations.UnitsShareNoState : Prop :=
  ∀ (i : Instr) (s t : State), exec i s = .next t →
    (isEvent i = true → t.ports = s.ports ∧ t.appHold = s.appHold ∧ t.tickHold = s.tickHold ∧ t.telem = s.telem) ∧
    (isEvent i = false → i ≠ .i2creset → t.dec = s.dec) ∧
    (portOf i ≠ none → t.mem = s.mem ∧ t.telem = s.telem ∧ t.dec = s.dec)

/-- A byte event and a port command commute (60_exceptions.md R267, R268 (a)): in either order they complete alike and leave the
same state but for the order of their records in the trace. -/
def Obligations.UnitsCommute : Prop :=
  ∀ (i j : Instr) (s s1 s2 : State), isEvent i = true → portOf j ≠ none → exec i s = .next s1 → exec j s = .next s2 →
    ∃ t1 t2, exec j s1 = .next t1 ∧ exec i s2 = .next t2 ∧ t1 = { t2 with trace := t1.trace } ∧
      t1.trace.Perm t2.trace

/-- Ports are independent (10_state.md R31): a command on port `p` leaves every other port as it is and reads nothing of it: with
any other values in that port it does the same, at its issue and from a hold; and no step changes how many ports, Telemetry
records or which parameters there are. -/
def Obligations.PortsAreIndependent : Prop :=
  (∀ (i : Instr) (p p' : Nat) (s t : State), portOf i = some p → exec i s = .next t → p' ≠ p →
    t.ports[p']? = s.ports[p']?) ∧
  (∀ (i : Instr) (p p' : Nat) (r : Port) (s : State), portOf i = some p → p' ≠ p →
    exec i (setPort p' r s) = mapNext (setPort p' r) (exec i s)) ∧
  (∀ (h : AppHold) (p' : Nat) (r : Port) (s : State), p' ≠ holdPort h →
    resumeApp h (setPort p' r s) = mapNext (setPort p' r) (resumeApp h s)) ∧
  (∀ (p p' : Nat) (r : Port) (s : State), p' ≠ p →
    resumeTick p (setPort p' r s) = mapNext (setPort p' r) (resumeTick p s)) ∧
  (∀ (s t : State), step s = .next t →
    t.ports.length = s.ports.length ∧ t.telem.length = s.telem.length ∧ t.params = s.params)

/-- IN and OUT are independent (43_fifo_out.md R208): the IN-side commands leave the OUT side of their port as it is and the
OUT-side commands the IN side; and neither reads the other: with any other values on that side they do the same, at their
issue and from a hold. -/
def Obligations.DirectionsAreIndependent : Prop :=
  (∀ (i : Instr) (p : Nat) (r : Port) (s : State),
    (((∃ b, i = .put p b) ∨ i = .flush p ∨ i = .tick p ∨ i = .inrdy p) →
      exec i (mapPort p (withOutSide r) s) = mapNext (mapPort p (withOutSide r)) (exec i s)) ∧
    ((i = .get p ∨ i = .peek p ∨ i = .outrdy p) →
      exec i (mapPort p (withInSide r) s) = mapNext (mapPort p (withInSide r)) (exec i s))) ∧
  (∀ (h : AppHold) (r : Port) (s : State),
    ((∀ p, h ≠ .getSwap p) → resumeApp h (mapPort (holdPort h) (withOutSide r) s) =
      mapNext (mapPort (holdPort h) (withOutSide r)) (resumeApp h s)) ∧
    (∀ p, h = .getSwap p → resumeApp h (mapPort p (withInSide r) s) = mapNext (mapPort p (withInSide r)) (resumeApp h s))) ∧
  (∀ (p : Nat) (r : Port) (s : State),
    resumeTick p (mapPort p (withOutSide r) s) = mapNext (mapPort p (withOutSide r)) (resumeTick p s)) ∧
  ∀ (s t : State) (p : Nat) (q q' : Port), s.ports[p]? = some q → t.ports[p]? = some q' →
    (((∃ b, exec (.put p b) s = .next t) ∨ exec (.flush p) s = .next t ∨ exec (.tick p) s = .next t ∨
        exec (.inrdy p) s = .next t) →
      q'.outBuf = q.outBuf ∧ q'.outLen = q.outLen ∧ q'.outCnt = q.outCnt ∧ q'.activeOutIsA = q.activeOutIsA ∧
        q'.outDesc = q.outDesc) ∧
    ((exec (.get p) s = .next t ∨ exec (.peek p) s = .next t ∨ exec (.outrdy p) s = .next t) →
      q'.inBuf = q.inBuf ∧ q'.inLen = q.inLen ∧ q'.activeInIsA = q.activeInIsA ∧ q'.zlpPending = q.zlpPending ∧
        q'.flushInProgress = q.flushInProgress ∧ q'.inWait = q.inWait ∧ q'.timeoutCounter = q.timeoutCounter ∧
        q'.inDesc = q.inDesc)

/-! ## Invariants and headline laws -/

/-- The writable stores keep their canonical form at every step from every state that has it. The form is the model's, and the
byte that an unlisted address reads as its choice (log 2). -/
def Obligations.MemoryFormIsKept : Prop :=
  ∀ (s t : State), Memory.wf s.mem = true → step s = .next t → Memory.wf t.mem = true

/-- The invariant holds after power-on. It rests on no value the spec leaves open: the OPEN parameters enter by their ranges
(R5); that the registers before `INIT` are zero is the model's (log 1). -/
def Obligations.InvariantAtReset : Prop := Inv State.reset

/-- Every step keeps the invariant: ownership (10_state.md R44), the toggle mirror (R45), the lengths (R46), the guard (R38), the
tick counter below its threshold (R175), the coherence of the holds (R39, R177), the labels of DEC (R148), the form of the
stores and buffers. -/
def Obligations.InvariantIsKept : Prop :=
  ∀ (s t : State), Inv s → step s = .next t → Inv t

/-- From a state with the invariant no step faults: no packet-buffer byte is read before it is written (10_state.md R44, R46, R49;
93_implementation_defined.md U7). -/
def Obligations.NoFaultUnderInvariant : Prop :=
  ∀ (s : State), Inv s → ∀ f, step s ≠ .fault f

/-- A granted buffer is never written and an armed one never read out (R44, 70_reset_and_hazards.md R295): while the hardware owns
an IN buffer no step changes it, and while it owns an OUT buffer only `HWEP.OUTDONE` does; and while it owns an OUT buffer, every
operation, `GET` and `PEEK` among them, does the same whatever that buffer holds. -/
def Obligations.GrantedBufferIsUntouched : Prop :=
  (∀ (i : Instr) (s : State) (p : Nat) (q : Port) (cells : List Host.Cell), Inv s → s.ports[p]? = some q →
    q.inited = true → q.outDesc.owned = true →
    exec i (mapPort p (withArmed cells) s) = mapNext (mapPort p (withArmed cells)) (exec i s)) ∧
  ∀ (s t : State) (p : Nat) (q q' : Port), Inv s → step s = .next t → s.ports[p]? = some q → t.ports[p]? = some q' →
    q.inited = true →
    (q.inDesc.owned = true → q'.inBuf.sel q.inDesc.bufIsA = q.inBuf.sel q.inDesc.bufIsA) ∧
    (q.outDesc.owned = true → (∀ bytes rest, s.sched ≠ .hwepOutDone p bytes :: rest) →
      q'.outBuf.sel q.outDesc.bufIsA = q.outBuf.sel q.outDesc.bufIsA)

/-- No zero-length packet is submitted unless one is owed (42_fifo_in.md R179): a step that emits a submission of length 0
finds `zlpPending` set. -/
def Obligations.ZeroLengthOnlyWhenOwed : Prop :=
  ∀ (s t : State) (p : Nat) (isA toggle : Bool) (new : List Record), Inv s → step s = .next t →
    t.trace = s.trace ++ new → .submitIn p isA 0 toggle ∈ new →
    ∃ q, s.ports[p]? = some q ∧ q.zlpPending = true

/-- The IN stream (42_fifo_in.md R181), step by step, for an initialised port: a step that runs a `PUT` of the port past its first
line appends its byte to the bytes that wait; `HWEP.INDONE` takes from the front exactly the bytes of the packet it delivers; and
every other step leaves them as they are. So no byte is lost, repeated, altered or reordered. -/
def Obligations.InStreamIsAQueue : Prop :=
  ∀ (s t : State) (p : Nat) (q q' : Port), Inv s → step s = .next t → s.ports[p]? = some q → t.ports[p]? = some q' →
    q.inited = true →
    (∀ b, entersPut s p b → q.inWait = none → inStream q' = inStream q ++ [some b]) ∧
    (∀ rest, s.sched = .hwepInDone p :: rest →
      ∃ bytes, t.trace = s.trace ++ [.pktIn p bytes q.inDesc.toggle] ∧ inStream q = bytes.map some ++ inStream q') ∧
    ((∀ b, entersPut s p b → q.inWait ≠ none) → (∀ rest, s.sched ≠ .hwepInDone p :: rest) → inStream q' = inStream q)

/-- The OUT stream (43_fifo_out.md R207), step by step, for an initialised port: `HWEP.OUTDONE` appends the bytes of its packet to
the bytes that wait; a step that runs `GET` of the port returns the first of them and takes it off, or stands at its hold if there
is none; and every other step leaves them as they are. So no byte is lost, repeated, altered or reordered. -/
def Obligations.OutStreamIsAQueue : Prop :=
  ∀ (s t : State) (p : Nat) (q q' : Port), Inv s → step s = .next t → s.ports[p]? = some q → t.ports[p]? = some q' →
    q.inited = true →
    (∀ bytes rest, s.sched = .hwepOutDone p bytes :: rest → outStream q' = outStream q ++ bytes.map some) ∧
    (entersGet s p → outStream q = [] → outStream q' = [] ∧ t.appHold = some (.getSwap p) ∧
      (t.trace = s.trace ∨ t.trace = s.trace ++ [armRecord p q])) ∧
    (entersGet s p → outStream q ≠ [] → t.appHold = none ∧
      ∃ b arm, outStream q = some b :: outStream q' ∧ t.trace = s.trace ++ arm ++ [.ret (.byte b)] ∧
        (arm = [] ∨ arm = [armRecord p q])) ∧
    (¬ entersGet s p → (∀ bytes rest, s.sched ≠ .hwepOutDone p bytes :: rest) → outStream q' = outStream q)
end

