-- ==== Sys2Proof/Laws/State.lean ====
section
/-! SUPPORT. One lemma per field per update of the state and of a port, so that no later proof unfolds a record update. -/

namespace Sys2Proof.Machine

/-! ## Updates of the state -/
@[simp] theorem emit_params (r : Record) (s : State) : (emit r s).params = s.params := rfl
@[simp] theorem emit_dec (r : Record) (s : State) : (emit r s).dec = s.dec := rfl
@[simp] theorem emit_mem (r : Record) (s : State) : (emit r s).mem = s.mem := rfl
@[simp] theorem emit_telem (r : Record) (s : State) : (emit r s).telem = s.telem := rfl
@[simp] theorem emit_ports (r : Record) (s : State) : (emit r s).ports = s.ports := rfl
@[simp] theorem emit_appHold (r : Record) (s : State) : (emit r s).appHold = s.appHold := rfl
@[simp] theorem emit_tickHold (r : Record) (s : State) : (emit r s).tickHold = s.tickHold := rfl
@[simp] theorem emit_sched (r : Record) (s : State) : (emit r s).sched = s.sched := rfl
@[simp] theorem emit_appProg (r : Record) (s : State) : (emit r s).appProg = s.appProg := rfl
@[simp] theorem emit_trace (r : Record) (s : State) : (emit r s).trace = s.trace ++ [r] := rfl

@[simp] theorem emitAll_params (rs : List Record) (s : State) : (emitAll rs s).params = s.params := rfl
@[simp] theorem emitAll_dec (rs : List Record) (s : State) : (emitAll rs s).dec = s.dec := rfl
@[simp] theorem emitAll_mem (rs : List Record) (s : State) : (emitAll rs s).mem = s.mem := rfl
@[simp] theorem emitAll_telem (rs : List Record) (s : State) : (emitAll rs s).telem = s.telem := rfl
@[simp] theorem emitAll_ports (rs : List Record) (s : State) : (emitAll rs s).ports = s.ports := rfl
@[simp] theorem emitAll_appHold (rs : List Record) (s : State) : (emitAll rs s).appHold = s.appHold := rfl
@[simp] theorem emitAll_tickHold (rs : List Record) (s : State) : (emitAll rs s).tickHold = s.tickHold := rfl
@[simp] theorem emitAll_sched (rs : List Record) (s : State) : (emitAll rs s).sched = s.sched := rfl
@[simp] theorem emitAll_appProg (rs : List Record) (s : State) : (emitAll rs s).appProg = s.appProg := rfl
@[simp] theorem emitAll_trace (rs : List Record) (s : State) : (emitAll rs s).trace = s.trace ++ rs := rfl

@[simp] theorem setPort_params (p : Nat) (q : Port) (s : State) : (setPort p q s).params = s.params := rfl
@[simp] theorem setPort_dec (p : Nat) (q : Port) (s : State) : (setPort p q s).dec = s.dec := rfl
@[simp] theorem setPort_mem (p : Nat) (q : Port) (s : State) : (setPort p q s).mem = s.mem := rfl
@[simp] theorem setPort_telem (p : Nat) (q : Port) (s : State) : (setPort p q s).telem = s.telem := rfl
@[simp] theorem setPort_ports (p : Nat) (q : Port) (s : State) : (setPort p q s).ports = s.ports.set p q := rfl
@[simp] theorem setPort_appHold (p : Nat) (q : Port) (s : State) : (setPort p q s).appHold = s.appHold := rfl
@[simp] theorem setPort_tickHold (p : Nat) (q : Port) (s : State) : (setPort p q s).tickHold = s.tickHold := rfl
@[simp] theorem setPort_sched (p : Nat) (q : Port) (s : State) : (setPort p q s).sched = s.sched := rfl
@[simp] theorem setPort_appProg (p : Nat) (q : Port) (s : State) : (setPort p q s).appProg = s.appProg := rfl
@[simp] theorem setPort_trace (p : Nat) (q : Port) (s : State) : (setPort p q s).trace = s.trace := rfl

@[simp] theorem openEvent_params (ph : Phase) (bf : Bool) (s : State) : (openEvent ph bf s).params = s.params := rfl
@[simp] theorem openEvent_dec (ph : Phase) (bf : Bool) (s : State) : (openEvent ph bf s).dec = { s.dec with
      phaseCount := ph
      stagedValue := if bf then s.dec.rxReg else s.dec.stagedValue
      stat := if bf then clearBF s.dec.stat else s.dec.stat } := rfl
@[simp] theorem openEvent_mem (ph : Phase) (bf : Bool) (s : State) : (openEvent ph bf s).mem = s.mem := rfl
@[simp] theorem openEvent_telem (ph : Phase) (bf : Bool) (s : State) : (openEvent ph bf s).telem = s.telem := rfl
@[simp] theorem openEvent_ports (ph : Phase) (bf : Bool) (s : State) : (openEvent ph bf s).ports = s.ports := rfl
@[simp] theorem openEvent_appHold (ph : Phase) (bf : Bool) (s : State) : (openEvent ph bf s).appHold = s.appHold := rfl
@[simp] theorem openEvent_tickHold (ph : Phase) (bf : Bool) (s : State) : (openEvent ph bf s).tickHold = s.tickHold := rfl
@[simp] theorem openEvent_sched (ph : Phase) (bf : Bool) (s : State) : (openEvent ph bf s).sched = s.sched := rfl
@[simp] theorem openEvent_appProg (ph : Phase) (bf : Bool) (s : State) : (openEvent ph bf s).appProg = s.appProg := rfl
@[simp] theorem openEvent_trace (ph : Phase) (bf : Bool) (s : State) : (openEvent ph bf s).trace = s.trace := rfl

@[simp] theorem closeEvent_params (l : BusPhase) (d : Bool) (s : State) : (closeEvent l d s).params = s.params := rfl
@[simp] theorem closeEvent_dec (l : BusPhase) (d : Bool) (s : State) : (closeEvent l d s).dec = { s.dec with sclHeld := false, busPhase := l, sampleDue := d } := rfl
@[simp] theorem closeEvent_mem (l : BusPhase) (d : Bool) (s : State) : (closeEvent l d s).mem = s.mem := rfl
@[simp] theorem closeEvent_telem (l : BusPhase) (d : Bool) (s : State) : (closeEvent l d s).telem = s.telem := rfl
@[simp] theorem closeEvent_ports (l : BusPhase) (d : Bool) (s : State) : (closeEvent l d s).ports = s.ports := rfl
@[simp] theorem closeEvent_appHold (l : BusPhase) (d : Bool) (s : State) : (closeEvent l d s).appHold = s.appHold := rfl
@[simp] theorem closeEvent_tickHold (l : BusPhase) (d : Bool) (s : State) : (closeEvent l d s).tickHold = s.tickHold := rfl
@[simp] theorem closeEvent_sched (l : BusPhase) (d : Bool) (s : State) : (closeEvent l d s).sched = s.sched := rfl
@[simp] theorem closeEvent_appProg (l : BusPhase) (d : Bool) (s : State) : (closeEvent l d s).appProg = s.appProg := rfl
@[simp] theorem closeEvent_trace (l : BusPhase) (d : Bool) (s : State) : (closeEvent l d s).trace = s.trace := rfl

@[simp] theorem readTurn_params (s : State) : (readTurn s).params = s.params := rfl
@[simp] theorem readTurn_dec (s : State) : (readTurn s).dec = { s.dec with pointer := s.dec.pointer + 1, txReg := asGet s s.dec.pointer } := rfl
@[simp] theorem readTurn_mem (s : State) : (readTurn s).mem = s.mem := rfl
@[simp] theorem readTurn_telem (s : State) : (readTurn s).telem = s.telem := rfl
@[simp] theorem readTurn_ports (s : State) : (readTurn s).ports = s.ports := rfl
@[simp] theorem readTurn_appHold (s : State) : (readTurn s).appHold = s.appHold := rfl
@[simp] theorem readTurn_tickHold (s : State) : (readTurn s).tickHold = s.tickHold := rfl
@[simp] theorem readTurn_sched (s : State) : (readTurn s).sched = s.sched := rfl
@[simp] theorem readTurn_appProg (s : State) : (readTurn s).appProg = s.appProg := rfl
@[simp] theorem readTurn_trace (s : State) : (readTurn s).trace = s.trace := rfl

@[simp] theorem commitLow_params (s : State) : (commitLow s).params = s.params := rfl
@[simp] theorem commitLow_dec (s : State) : (commitLow s).dec = { s.dec with
      shadow := word16 (hiByte s.dec.shadow) s.dec.stagedValue
      pointer := word16 (hiByte s.dec.shadow) s.dec.stagedValue } := rfl
@[simp] theorem commitLow_mem (s : State) : (commitLow s).mem = s.mem := rfl
@[simp] theorem commitLow_telem (s : State) : (commitLow s).telem = s.telem := rfl
@[simp] theorem commitLow_ports (s : State) : (commitLow s).ports = s.ports := rfl
@[simp] theorem commitLow_appHold (s : State) : (commitLow s).appHold = s.appHold := rfl
@[simp] theorem commitLow_tickHold (s : State) : (commitLow s).tickHold = s.tickHold := rfl
@[simp] theorem commitLow_sched (s : State) : (commitLow s).sched = s.sched := rfl
@[simp] theorem commitLow_appProg (s : State) : (commitLow s).appProg = s.appProg := rfl
@[simp] theorem commitLow_trace (s : State) : (commitLow s).trace = s.trace := rfl

@[simp] theorem stageHigh_params (s : State) : (stageHigh s).params = s.params := rfl
@[simp] theorem stageHigh_dec (s : State) : (stageHigh s).dec = { s.dec with
      shadow := word16 s.dec.stagedValue (loByte s.dec.shadow)
      pointer := match s.params.commitPolicy with
        | .shadowOnly => s.dec.pointer
        | .pointerFromShadow => word16 s.dec.stagedValue (loByte s.dec.shadow) } := rfl
@[simp] theorem stageHigh_mem (s : State) : (stageHigh s).mem = s.mem := rfl
@[simp] theorem stageHigh_telem (s : State) : (stageHigh s).telem = s.telem := rfl
@[simp] theorem stageHigh_ports (s : State) : (stageHigh s).ports = s.ports := rfl
@[simp] theorem stageHigh_appHold (s : State) : (stageHigh s).appHold = s.appHold := rfl
@[simp] theorem stageHigh_tickHold (s : State) : (stageHigh s).tickHold = s.tickHold := rfl
@[simp] theorem stageHigh_sched (s : State) : (stageHigh s).sched = s.sched := rfl
@[simp] theorem stageHigh_appProg (s : State) : (stageHigh s).appProg = s.appProg := rfl
@[simp] theorem stageHigh_trace (s : State) : (stageHigh s).trace = s.trace := rfl

/-! ## Updates of a port -/

@[simp] theorem grantIn_inBuf (len : Byte) (q : Port) : (grantIn len q).inBuf = q.inBuf := rfl
@[simp] theorem grantIn_outBuf (len : Byte) (q : Port) : (grantIn len q).outBuf = q.outBuf := rfl
@[simp] theorem grantIn_inLen (len : Byte) (q : Port) : (grantIn len q).inLen = 0 := rfl
@[simp] theorem grantIn_outLen (len : Byte) (q : Port) : (grantIn len q).outLen = q.outLen := rfl
@[simp] theorem grantIn_outCnt (len : Byte) (q : Port) : (grantIn len q).outCnt = q.outCnt := rfl
@[simp] theorem grantIn_activeInIsA (len : Byte) (q : Port) : (grantIn len q).activeInIsA = !q.activeInIsA := rfl
@[simp] theorem grantIn_activeOutIsA (len : Byte) (q : Port) : (grantIn len q).activeOutIsA = q.activeOutIsA := rfl
@[simp] theorem grantIn_timeoutCounter (len : Byte) (q : Port) : (grantIn len q).timeoutCounter = q.timeoutCounter := rfl
@[simp] theorem grantIn_zlpPending (len : Byte) (q : Port) : (grantIn len q).zlpPending = q.zlpPending := rfl
@[simp] theorem grantIn_flushInProgress (len : Byte) (q : Port) : (grantIn len q).flushInProgress = q.flushInProgress := rfl
@[simp] theorem grantIn_inWait (len : Byte) (q : Port) : (grantIn len q).inWait = none := rfl
@[simp] theorem grantIn_lineCoding (len : Byte) (q : Port) : (grantIn len q).lineCoding = q.lineCoding := rfl
@[simp] theorem grantIn_controlLine (len : Byte) (q : Port) : (grantIn len q).controlLine = q.controlLine := rfl
@[simp] theorem grantIn_inited (len : Byte) (q : Port) : (grantIn len q).inited = q.inited := rfl
@[simp] theorem grantIn_inDesc (len : Byte) (q : Port) : (grantIn len q).inDesc = ⟨true, q.activeInIsA, len, !q.inDesc.toggle⟩ := rfl
@[simp] theorem grantIn_outDesc (len : Byte) (q : Port) : (grantIn len q).outDesc = q.outDesc := rfl

@[simp] theorem appendIn_inBuf (b : Byte) (q : Port) : (appendIn b q).inBuf = q.inBuf.upd q.activeInIsA
      (cellInsert (q.inBuf.sel q.activeInIsA) q.inLen.toNat b) := rfl
@[simp] theorem appendIn_outBuf (b : Byte) (q : Port) : (appendIn b q).outBuf = q.outBuf := rfl
@[simp] theorem appendIn_inLen (b : Byte) (q : Port) : (appendIn b q).inLen = q.inLen + 1 := rfl
@[simp] theorem appendIn_outLen (b : Byte) (q : Port) : (appendIn b q).outLen = q.outLen := rfl
@[simp] theorem appendIn_outCnt (b : Byte) (q : Port) : (appendIn b q).outCnt = q.outCnt := rfl
@[simp] theorem appendIn_activeInIsA (b : Byte) (q : Port) : (appendIn b q).activeInIsA = q.activeInIsA := rfl
@[simp] theorem appendIn_activeOutIsA (b : Byte) (q : Port) : (appendIn b q).activeOutIsA = q.activeOutIsA := rfl
@[simp] theorem appendIn_timeoutCounter (b : Byte) (q : Port) : (appendIn b q).timeoutCounter = q.timeoutCounter := rfl
@[simp] theorem appendIn_zlpPending (b : Byte) (q : Port) : (appendIn b q).zlpPending = q.zlpPending := rfl
@[simp] theorem appendIn_flushInProgress (b : Byte) (q : Port) : (appendIn b q).flushInProgress = q.flushInProgress := rfl
@[simp] theorem appendIn_inWait (b : Byte) (q : Port) : (appendIn b q).inWait = q.inWait := rfl
@[simp] theorem appendIn_lineCoding (b : Byte) (q : Port) : (appendIn b q).lineCoding = q.lineCoding := rfl
@[simp] theorem appendIn_controlLine (b : Byte) (q : Port) : (appendIn b q).controlLine = q.controlLine := rfl
@[simp] theorem appendIn_inited (b : Byte) (q : Port) : (appendIn b q).inited = q.inited := rfl
@[simp] theorem appendIn_inDesc (b : Byte) (q : Port) : (appendIn b q).inDesc = q.inDesc := rfl
@[simp] theorem appendIn_outDesc (b : Byte) (q : Port) : (appendIn b q).outDesc = q.outDesc := rfl

@[simp] theorem swapOut_inBuf (n : Nat) (q : Port) : (swapOut n q).inBuf = q.inBuf := rfl
@[simp] theorem swapOut_outBuf (n : Nat) (q : Port) : (swapOut n q).outBuf = q.outBuf := rfl
@[simp] theorem swapOut_inLen (n : Nat) (q : Port) : (swapOut n q).inLen = q.inLen := rfl
@[simp] theorem swapOut_outLen (n : Nat) (q : Port) : (swapOut n q).outLen = q.outDesc.count := rfl
@[simp] theorem swapOut_outCnt (n : Nat) (q : Port) : (swapOut n q).outCnt = q.outDesc.count := rfl
@[simp] theorem swapOut_activeInIsA (n : Nat) (q : Port) : (swapOut n q).activeInIsA = q.activeInIsA := rfl
@[simp] theorem swapOut_activeOutIsA (n : Nat) (q : Port) : (swapOut n q).activeOutIsA = q.outDesc.bufIsA := rfl
@[simp] theorem swapOut_timeoutCounter (n : Nat) (q : Port) : (swapOut n q).timeoutCounter = q.timeoutCounter := rfl
@[simp] theorem swapOut_zlpPending (n : Nat) (q : Port) : (swapOut n q).zlpPending = q.zlpPending := rfl
@[simp] theorem swapOut_flushInProgress (n : Nat) (q : Port) : (swapOut n q).flushInProgress = q.flushInProgress := rfl
@[simp] theorem swapOut_inWait (n : Nat) (q : Port) : (swapOut n q).inWait = q.inWait := rfl
@[simp] theorem swapOut_lineCoding (n : Nat) (q : Port) : (swapOut n q).lineCoding = q.lineCoding := rfl
@[simp] theorem swapOut_controlLine (n : Nat) (q : Port) : (swapOut n q).controlLine = q.controlLine := rfl
@[simp] theorem swapOut_inited (n : Nat) (q : Port) : (swapOut n q).inited = q.inited := rfl
@[simp] theorem swapOut_inDesc (n : Nat) (q : Port) : (swapOut n q).inDesc = q.inDesc := rfl
@[simp] theorem swapOut_outDesc (n : Nat) (q : Port) : (swapOut n q).outDesc = ⟨true, !q.outDesc.bufIsA, BitVec.ofNat 8 n, !q.outDesc.toggle⟩ := rfl

@[simp] theorem countTick_inBuf (q : Port) : (countTick q).inBuf = q.inBuf := rfl
@[simp] theorem countTick_outBuf (q : Port) : (countTick q).outBuf = q.outBuf := rfl
@[simp] theorem countTick_inLen (q : Port) : (countTick q).inLen = q.inLen := rfl
@[simp] theorem countTick_outLen (q : Port) : (countTick q).outLen = q.outLen := rfl
@[simp] theorem countTick_outCnt (q : Port) : (countTick q).outCnt = q.outCnt := rfl
@[simp] theorem countTick_activeInIsA (q : Port) : (countTick q).activeInIsA = q.activeInIsA := rfl
@[simp] theorem countTick_activeOutIsA (q : Port) : (countTick q).activeOutIsA = q.activeOutIsA := rfl
@[simp] theorem countTick_timeoutCounter (q : Port) : (countTick q).timeoutCounter = q.timeoutCounter + 1 := rfl
@[simp] theorem countTick_zlpPending (q : Port) : (countTick q).zlpPending = q.zlpPending := rfl
@[simp] theorem countTick_flushInProgress (q : Port) : (countTick q).flushInProgress = q.flushInProgress := rfl
@[simp] theorem countTick_inWait (q : Port) : (countTick q).inWait = q.inWait := rfl
@[simp] theorem countTick_lineCoding (q : Port) : (countTick q).lineCoding = q.lineCoding := rfl
@[simp] theorem countTick_controlLine (q : Port) : (countTick q).controlLine = q.controlLine := rfl
@[simp] theorem countTick_inited (q : Port) : (countTick q).inited = q.inited := rfl
@[simp] theorem countTick_inDesc (q : Port) : (countTick q).inDesc = q.inDesc := rfl
@[simp] theorem countTick_outDesc (q : Port) : (countTick q).outDesc = q.outDesc := rfl

@[simp] theorem receiveOut_inBuf (bytes : List Byte) (q : Port) : (receiveOut bytes q).inBuf = q.inBuf := rfl
@[simp] theorem receiveOut_outBuf (bytes : List Byte) (q : Port) : (receiveOut bytes q).outBuf = q.outBuf.upd q.outDesc.bufIsA (cellsFrom 0 bytes) := rfl
@[simp] theorem receiveOut_inLen (bytes : List Byte) (q : Port) : (receiveOut bytes q).inLen = q.inLen := rfl
@[simp] theorem receiveOut_outLen (bytes : List Byte) (q : Port) : (receiveOut bytes q).outLen = q.outLen := rfl
@[simp] theorem receiveOut_outCnt (bytes : List Byte) (q : Port) : (receiveOut bytes q).outCnt = q.outCnt := rfl
@[simp] theorem receiveOut_activeInIsA (bytes : List Byte) (q : Port) : (receiveOut bytes q).activeInIsA = q.activeInIsA := rfl
@[simp] theorem receiveOut_activeOutIsA (bytes : List Byte) (q : Port) : (receiveOut bytes q).activeOutIsA = q.activeOutIsA := rfl
@[simp] theorem receiveOut_timeoutCounter (bytes : List Byte) (q : Port) : (receiveOut bytes q).timeoutCounter = q.timeoutCounter := rfl
@[simp] theorem receiveOut_zlpPending (bytes : List Byte) (q : Port) : (receiveOut bytes q).zlpPending = q.zlpPending := rfl
@[simp] theorem receiveOut_flushInProgress (bytes : List Byte) (q : Port) : (receiveOut bytes q).flushInProgress = q.flushInProgress := rfl
@[simp] theorem receiveOut_inWait (bytes : List Byte) (q : Port) : (receiveOut bytes q).inWait = q.inWait := rfl
@[simp] theorem receiveOut_lineCoding (bytes : List Byte) (q : Port) : (receiveOut bytes q).lineCoding = q.lineCoding := rfl
@[simp] theorem receiveOut_controlLine (bytes : List Byte) (q : Port) : (receiveOut bytes q).controlLine = q.controlLine := rfl
@[simp] theorem receiveOut_inited (bytes : List Byte) (q : Port) : (receiveOut bytes q).inited = q.inited := rfl
@[simp] theorem receiveOut_inDesc (bytes : List Byte) (q : Port) : (receiveOut bytes q).inDesc = q.inDesc := rfl
@[simp] theorem receiveOut_outDesc (bytes : List Byte) (q : Port) : (receiveOut bytes q).outDesc = { q.outDesc with
      count := BitVec.ofNat 8 bytes.length
      owned := false } := rfl

@[simp] theorem initPort_inBuf (n : Nat) (q : Port) : (initPort n q).inBuf = q.inBuf := rfl
@[simp] theorem initPort_outBuf (n : Nat) (q : Port) : (initPort n q).outBuf = q.outBuf := rfl
@[simp] theorem initPort_inLen (n : Nat) (q : Port) : (initPort n q).inLen = 0 := rfl
@[simp] theorem initPort_outLen (n : Nat) (q : Port) : (initPort n q).outLen = 0 := rfl
@[simp] theorem initPort_outCnt (n : Nat) (q : Port) : (initPort n q).outCnt = 0 := rfl
@[simp] theorem initPort_activeInIsA (n : Nat) (q : Port) : (initPort n q).activeInIsA = true := rfl
@[simp] theorem initPort_activeOutIsA (n : Nat) (q : Port) : (initPort n q).activeOutIsA = false := rfl
@[simp] theorem initPort_timeoutCounter (n : Nat) (q : Port) : (initPort n q).timeoutCounter = 0 := rfl
@[simp] theorem initPort_zlpPending (n : Nat) (q : Port) : (initPort n q).zlpPending = false := rfl
@[simp] theorem initPort_flushInProgress (n : Nat) (q : Port) : (initPort n q).flushInProgress = false := rfl
@[simp] theorem initPort_inWait (n : Nat) (q : Port) : (initPort n q).inWait = none := rfl
@[simp] theorem initPort_lineCoding (n : Nat) (q : Port) : (initPort n q).lineCoding = ⟨115200, .one, .none, 8⟩ := rfl
@[simp] theorem initPort_controlLine (n : Nat) (q : Port) : (initPort n q).controlLine = ⟨false, false⟩ := rfl
@[simp] theorem initPort_inited (n : Nat) (q : Port) : (initPort n q).inited = true := rfl
@[simp] theorem initPort_inDesc (n : Nat) (q : Port) : (initPort n q).inDesc = ⟨false, false, 0, true⟩ := rfl
@[simp] theorem initPort_outDesc (n : Nat) (q : Port) : (initPort n q).outDesc = ⟨true, true, BitVec.ofNat 8 n, false⟩ := rfl

@[simp] theorem finishIn_inBuf (o : Origin) (q : Port) : (finishIn o q).inBuf = q.inBuf := by
  cases o <;> rfl
@[simp] theorem finishIn_outBuf (o : Origin) (q : Port) : (finishIn o q).outBuf = q.outBuf := by
  cases o <;> rfl
@[simp] theorem finishIn_inLen (o : Origin) (q : Port) : (finishIn o q).inLen = q.inLen := by
  cases o <;> rfl
@[simp] theorem finishIn_outLen (o : Origin) (q : Port) : (finishIn o q).outLen = q.outLen := by
  cases o <;> rfl
@[simp] theorem finishIn_outCnt (o : Origin) (q : Port) : (finishIn o q).outCnt = q.outCnt := by
  cases o <;> rfl
@[simp] theorem finishIn_activeInIsA (o : Origin) (q : Port) : (finishIn o q).activeInIsA = q.activeInIsA := by
  cases o <;> rfl
@[simp] theorem finishIn_activeOutIsA (o : Origin) (q : Port) : (finishIn o q).activeOutIsA = q.activeOutIsA := by
  cases o <;> rfl
@[simp] theorem finishIn_timeoutCounter (o : Origin) (q : Port) : (finishIn o q).timeoutCounter = q.timeoutCounter := by
  cases o <;> rfl
@[simp] theorem finishIn_zlpPending (o : Origin) (q : Port) : (finishIn o q).zlpPending = (match o with | .put => true | .flush => false) := by
  cases o <;> rfl
@[simp] theorem finishIn_flushInProgress (o : Origin) (q : Port) : (finishIn o q).flushInProgress = (match o with | .put => q.flushInProgress | .flush => false) := by
  cases o <;> rfl
@[simp] theorem finishIn_inWait (o : Origin) (q : Port) : (finishIn o q).inWait = q.inWait := by
  cases o <;> rfl
@[simp] theorem finishIn_lineCoding (o : Origin) (q : Port) : (finishIn o q).lineCoding = q.lineCoding := by
  cases o <;> rfl
@[simp] theorem finishIn_controlLine (o : Origin) (q : Port) : (finishIn o q).controlLine = q.controlLine := by
  cases o <;> rfl
@[simp] theorem finishIn_inited (o : Origin) (q : Port) : (finishIn o q).inited = q.inited := by
  cases o <;> rfl
@[simp] theorem finishIn_inDesc (o : Origin) (q : Port) : (finishIn o q).inDesc = q.inDesc := by
  cases o <;> rfl
@[simp] theorem finishIn_outDesc (o : Origin) (q : Port) : (finishIn o q).outDesc = q.outDesc := by
  cases o <;> rfl

/-! ## Updates of DEC's registers -/

@[simp] theorem raiseEvent_pointer (st : BitVec 5) (rx : Byte) (d : Dec) : (raiseEvent st rx d).pointer = d.pointer := rfl
@[simp] theorem raiseEvent_shadow (st : BitVec 5) (rx : Byte) (d : Dec) : (raiseEvent st rx d).shadow = d.shadow := rfl
@[simp] theorem raiseEvent_phaseCount (st : BitVec 5) (rx : Byte) (d : Dec) : (raiseEvent st rx d).phaseCount = d.phaseCount := rfl
@[simp] theorem raiseEvent_stagedValue (st : BitVec 5) (rx : Byte) (d : Dec) : (raiseEvent st rx d).stagedValue = d.stagedValue := rfl
@[simp] theorem raiseEvent_rxReg (st : BitVec 5) (rx : Byte) (d : Dec) : (raiseEvent st rx d).rxReg = (if statBF st then rx else d.rxReg) := rfl
@[simp] theorem raiseEvent_txReg (st : BitVec 5) (rx : Byte) (d : Dec) : (raiseEvent st rx d).txReg = d.txReg := rfl
@[simp] theorem raiseEvent_sclHeld (st : BitVec 5) (rx : Byte) (d : Dec) : (raiseEvent st rx d).sclHeld = true := rfl
@[simp] theorem raiseEvent_stat (st : BitVec 5) (rx : Byte) (d : Dec) : (raiseEvent st rx d).stat = st := rfl
@[simp] theorem raiseEvent_wcolLatch (st : BitVec 5) (rx : Byte) (d : Dec) : (raiseEvent st rx d).wcolLatch = d.wcolLatch := rfl
@[simp] theorem raiseEvent_rxOvfLatch (st : BitVec 5) (rx : Byte) (d : Dec) : (raiseEvent st rx d).rxOvfLatch = d.rxOvfLatch := rfl
@[simp] theorem raiseEvent_busPhase (st : BitVec 5) (rx : Byte) (d : Dec) : (raiseEvent st rx d).busPhase = d.busPhase := rfl
@[simp] theorem raiseEvent_sampleDue (st : BitVec 5) (rx : Byte) (d : Dec) : (raiseEvent st rx d).sampleDue = d.sampleDue := rfl

@[simp] theorem clearLatches_pointer (d : Dec) : (clearLatches d).pointer = d.pointer := rfl
@[simp] theorem clearLatches_shadow (d : Dec) : (clearLatches d).shadow = d.shadow := rfl
@[simp] theorem clearLatches_phaseCount (d : Dec) : (clearLatches d).phaseCount = d.phaseCount := rfl
@[simp] theorem clearLatches_stagedValue (d : Dec) : (clearLatches d).stagedValue = d.stagedValue := rfl
@[simp] theorem clearLatches_rxReg (d : Dec) : (clearLatches d).rxReg = d.rxReg := rfl
@[simp] theorem clearLatches_txReg (d : Dec) : (clearLatches d).txReg = d.txReg := rfl
@[simp] theorem clearLatches_sclHeld (d : Dec) : (clearLatches d).sclHeld = d.sclHeld := rfl
@[simp] theorem clearLatches_stat (d : Dec) : (clearLatches d).stat = d.stat := rfl
@[simp] theorem clearLatches_wcolLatch (d : Dec) : (clearLatches d).wcolLatch = false := rfl
@[simp] theorem clearLatches_rxOvfLatch (d : Dec) : (clearLatches d).rxOvfLatch = false := rfl
@[simp] theorem clearLatches_busPhase (d : Dec) : (clearLatches d).busPhase = d.busPhase := rfl
@[simp] theorem clearLatches_sampleDue (d : Dec) : (clearLatches d).sampleDue = d.sampleDue := rfl

@[simp] theorem setLatch_pointer (w : Latch) (d : Dec) : (setLatch w d).pointer = d.pointer := by
  cases w <;> rfl
@[simp] theorem setLatch_shadow (w : Latch) (d : Dec) : (setLatch w d).shadow = d.shadow := by
  cases w <;> rfl
@[simp] theorem setLatch_phaseCount (w : Latch) (d : Dec) : (setLatch w d).phaseCount = d.phaseCount := by
  cases w <;> rfl
@[simp] theorem setLatch_stagedValue (w : Latch) (d : Dec) : (setLatch w d).stagedValue = d.stagedValue := by
  cases w <;> rfl
@[simp] theorem setLatch_rxReg (w : Latch) (d : Dec) : (setLatch w d).rxReg = d.rxReg := by
  cases w <;> rfl
@[simp] theorem setLatch_txReg (w : Latch) (d : Dec) : (setLatch w d).txReg = d.txReg := by
  cases w <;> rfl
@[simp] theorem setLatch_sclHeld (w : Latch) (d : Dec) : (setLatch w d).sclHeld = d.sclHeld := by
  cases w <;> rfl
@[simp] theorem setLatch_stat (w : Latch) (d : Dec) : (setLatch w d).stat = d.stat := by
  cases w <;> rfl
@[simp] theorem setLatch_wcolLatch (w : Latch) (d : Dec) : (setLatch w d).wcolLatch = (match w with | .wcol => true | .rxovf => d.wcolLatch) := by
  cases w <;> rfl
@[simp] theorem setLatch_rxOvfLatch (w : Latch) (d : Dec) : (setLatch w d).rxOvfLatch = (match w with | .wcol => d.rxOvfLatch | .rxovf => true) := by
  cases w <;> rfl
@[simp] theorem setLatch_busPhase (w : Latch) (d : Dec) : (setLatch w d).busPhase = d.busPhase := by
  cases w <;> rfl
@[simp] theorem setLatch_sampleDue (w : Latch) (d : Dec) : (setLatch w d).sampleDue = d.sampleDue := by
  cases w <;> rfl

end Sys2Proof.Machine
end

