-- ==== Sys2Proof/Laws/Cells.lean ====
section
/-! SUPPORT. Cells: a read after a write, and the canonical form of the writable stores and of the packet buffers. -/

namespace Sys2Proof.Machine

/-! ## Reading after writing -/

theorem cellLookup_insert (m : List Host.Cell) (a : Nat) (v : Byte) (b : Nat) :
    cellLookup (cellInsert m a v) b = if b = a then some v else cellLookup m b := by
  induction m with
  | nil => simp [cellInsert, cellLookup, eq_comm]
  | cons c t ih =>
    obtain ⟨k, w⟩ := c
    simp only [cellInsert]
    split_ifs with h1 h2
    · subst h2; simp [cellLookup]
    · simp only [cellLookup, if_neg (Ne.symm h2)]
    all_goals
      simp only [cellLookup, ih]
      split_ifs <;> first | rfl | (exfalso; omega)

theorem cellLookup_insert_self (m : List Host.Cell) (a : Nat) (v : Byte) : cellLookup (cellInsert m a v) a = some v := by
  simp [cellLookup_insert]

theorem cellLookup_insert_other (m : List Host.Cell) (a b : Nat) (v : Byte) (h : b ≠ a) :
    cellLookup (cellInsert m a v) b = cellLookup m b := by
  simp [cellLookup_insert, h]

theorem cellLookup_erase (m : List Host.Cell) (a b : Nat) :
    cellLookup (cellErase m a) b = if b = a then none else cellLookup m b := by
  induction m with
  | nil => simp [cellErase, cellLookup]
  | cons c t ih =>
    obtain ⟨k, w⟩ := c
    simp only [cellErase, List.filter_cons] at ih ⊢
    by_cases hk : k = a
    · subst hk
      simp only [bne_self_eq_false, Bool.false_eq_true, if_false, ih, cellLookup]
      split_ifs <;> first | rfl | (exfalso; omega)
    · simp only [bne_iff_ne, ne_eq, hk, not_false_eq_true, if_true, cellLookup, ih]
      split_ifs <;> first | rfl | (exfalso; omega)

theorem memRead_memWrite (m : Memory) (a b : Nat) (v : Byte) :
    memRead (memWrite m a v) b = if b = a then v else memRead m b := by
  unfold memRead memWrite
  by_cases hv : v = Config.unlistedByte
  · simp only [hv, if_true, cellLookup_erase]
    split_ifs <;> rfl
  · simp only [hv, if_false, cellLookup_insert]
    split_ifs <;> rfl

/-! ## Rising keys -/

theorem cellsSorted_cons {k : Nat} {v : Byte} {t : List Host.Cell} :
    cellsSorted ((k, v) :: t) = true ↔ cellsSorted t = true ∧ ∀ c ∈ t, k < c.1 := by
  induction t generalizing k v with
  | nil => simp [cellsSorted]
  | cons d t ih =>
    obtain ⟨k', w⟩ := d
    simp only [cellsSorted, Bool.and_eq_true, decide_eq_true_eq]
    constructor
    · rintro ⟨hk, ht⟩
      refine ⟨ht, ?_⟩
      intro c hc
      rcases List.mem_cons.mp hc with rfl | hc
      · exact hk
      · exact lt_trans hk ((ih.mp ht).2 c hc)
    · rintro ⟨ht, hall⟩
      exact ⟨hall (k', w) (by simp), ht⟩

theorem mem_cellInsert {m : List Host.Cell} {a : Nat} {v : Byte} {c : Host.Cell} (h : c ∈ cellInsert m a v) :
    c = (a, v) ∨ c ∈ m := by
  induction m with
  | nil => simpa [cellInsert] using h
  | cons d t ih =>
    obtain ⟨k, w⟩ := d
    simp only [cellInsert] at h
    split_ifs at h
    · rcases List.mem_cons.mp h with h | h <;> tauto
    · rcases List.mem_cons.mp h with h | h
      · exact .inl h
      · exact .inr (List.mem_cons_of_mem _ h)
    · rcases List.mem_cons.mp h with h | h
      · exact .inr (by simp [h])
      · rcases ih h with h | h
        · exact .inl h
        · exact .inr (List.mem_cons_of_mem _ h)

theorem cellsSorted_insert {m : List Host.Cell} (h : cellsSorted m = true) (a : Nat) (v : Byte) :
    cellsSorted (cellInsert m a v) = true := by
  induction m with
  | nil => rfl
  | cons d t ih =>
    obtain ⟨k, w⟩ := d
    have ht := cellsSorted_cons.mp h
    simp only [cellInsert]
    split_ifs with h1 h2
    · refine cellsSorted_cons.mpr ⟨h, ?_⟩
      intro c hc
      rcases List.mem_cons.mp hc with rfl | hc
      · exact h1
      · exact lt_trans h1 (ht.2 c hc)
    · subst h2
      exact cellsSorted_cons.mpr ht
    · refine cellsSorted_cons.mpr ⟨ih ht.1, ?_⟩
      intro c hc
      rcases mem_cellInsert hc with rfl | hc
      · show k < a
        omega
      · exact ht.2 c hc

theorem cellsSorted_erase {m : List Host.Cell} (h : cellsSorted m = true) (a : Nat) : cellsSorted (cellErase m a) = true := by
  induction m with
  | nil => rfl
  | cons d t ih =>
    obtain ⟨k, w⟩ := d
    have ht := cellsSorted_cons.mp h
    have it := ih ht.1
    simp only [cellErase, List.filter_cons] at it ⊢
    split_ifs
    · refine cellsSorted_cons.mpr ⟨it, ?_⟩
      intro c hc
      exact ht.2 c (List.mem_filter.mp hc).1
    · exact it

/-! ## The canonical form of the writable stores -/

/-- The form holds of reset's memory. -/
theorem wf_nil : Memory.wf [] = true := rfl

/-- A write at a writable address keeps the canonical form. -/
theorem wf_memWrite {m : Memory} (h : Memory.wf m = true) {a : Nat} (ha : writableAt a = true) (v : Byte) :
    Memory.wf (memWrite m a v) = true := by
  simp only [Memory.wf, Bool.and_eq_true, List.all_eq_true] at h ⊢
  unfold memWrite
  split_ifs with hv
  · exact ⟨cellsSorted_erase h.1 a, fun c hc => h.2 c (List.mem_filter.mp hc).1⟩
  · refine ⟨cellsSorted_insert h.1 a v, fun c hc => ?_⟩
    rcases mem_cellInsert hc with rfl | hc
    · simp [hv, ha]
    · exact h.2 c hc

/-! ## The form of a packet buffer -/

theorem cellLookup_cellsFrom (bs : List Byte) (k i : Nat) :
    cellLookup (cellsFrom k bs) i = if k ≤ i then bs[i - k]? else none := by
  induction bs generalizing k with
  | nil => simp [cellsFrom, cellLookup]
  | cons b bs ih =>
    simp only [cellsFrom, cellLookup, ih]
    by_cases h : k = i
    · subst h; simp
    · rw [if_neg h]
      by_cases hle : k + 1 ≤ i
      · rw [if_pos hle, if_pos (by omega), show i - k = (i - (k + 1)) + 1 by omega]
        simp
      · rw [if_neg hle, if_neg (by omega)]

theorem cellsSorted_cellsFrom (bs : List Byte) (k : Nat) :
    cellsSorted (cellsFrom k bs) = true ∧ ∀ c ∈ cellsFrom k bs, k ≤ c.1 ∧ c.1 < k + bs.length := by
  induction bs generalizing k with
  | nil => simp [cellsFrom, cellsSorted]
  | cons b bs ih =>
    obtain ⟨hs, hm⟩ := ih (k + 1)
    constructor
    · refine cellsSorted_cons.mpr ⟨hs, fun c hc => ?_⟩
      have := (hm c hc).1; omega
    · intro c hc
      simp only [cellsFrom, List.mem_cons] at hc
      rcases hc with rfl | hc
      · simp
      · have := hm c hc
        simp only [List.length_cons]; omega

/-- A buffer read succeeds exactly when all its bytes are written, and gives them in order. -/
theorem readRun_eq (buf : List Host.Cell) (k n : Nat) (bs : List Byte) :
    readRun buf k n = some bs ↔ bs.length = n ∧ ∀ i, i < n → cellLookup buf (k + i) = bs[i]? := by
  induction n generalizing k bs with
  | zero =>
    cases bs <;> simp [readRun]
  | succ n ih =>
    simp only [readRun]
    constructor
    · intro h
      cases hb : cellLookup buf k with
      | none => simp [hb] at h
      | some b =>
        cases hr : readRun buf (k + 1) n with
        | none => simp [hb, hr] at h
        | some r =>
          simp only [hb, hr, Option.some.injEq] at h
          subst h
          obtain ⟨hl, hi⟩ := (ih (k + 1) r).mp hr
          refine ⟨by simp [hl], fun i hlt => ?_⟩
          cases i with
          | zero => simpa using hb
          | succ i =>
            have := hi i (by omega)
            rw [show k + (i + 1) = k + 1 + i by omega]
            simpa using this
    · rintro ⟨hl, hi⟩
      cases bs with
      | nil => simp at hl
      | cons b r =>
        have h0 := hi 0 (by omega)
        simp only [Nat.add_zero, List.getElem?_cons_zero] at h0
        have hr : readRun buf (k + 1) n = some r := by
          refine (ih (k + 1) r).mpr ⟨by simpa using hl, fun i hlt => ?_⟩
          have := hi (i + 1) (by omega)
          rw [show k + (i + 1) = k + 1 + i by omega] at this
          simpa using this
        simp [h0, hr]

end Sys2Proof.Machine
end

