-- ==== Sys2Proof/Laws/AddressSpace.lean ====
section
/-! SUPPORT. The address space: region decode by ranges, what a write leaves, a read after a write. -/

namespace Sys2Proof.Machine

/-- Region decode as the ranges of 20_memory.md R61; they are disjoint, so the order of the list shows nowhere. -/
theorem regionAt_eq (a : Nat) :
    regionAt a =
      if a ≤ 0x03FF then some .identity
      else if 0x0400 ≤ a ∧ a ≤ 0x04FF then some .eeprom
      else if 0x0600 ≤ a ∧ a ≤ 0x06FF then some .telemetry
      else if 0x0700 ≤ a ∧ a ≤ 0x070F then some .serialId
      else if 0x0800 ≤ a ∧ a ≤ 0x0802 then some .outputs
      else none := by
  unfold regionAt regionList
  simp only [List.find?_cons, List.find?_nil]
  by_cases h1 : a ≤ 0x03FF
  · simp [h1]
  by_cases h2 : 0x0400 ≤ a ∧ a ≤ 0x04FF
  · simp [h1, h2]
  by_cases h3 : 0x0600 ≤ a ∧ a ≤ 0x06FF
  · simp [h1, h2, h3]
  by_cases h4 : 0x0700 ≤ a ∧ a ≤ 0x070F
  · simp [h1, h2, h3, h4]
  by_cases h5 : 0x0800 ≤ a ∧ a ≤ 0x0802
  · simp [h1, h2, h3, h4, h5]
  · simp [h1, h2, h3, h4, h5]

/-- The writable addresses by ranges. -/
theorem writableAt_iff (a : Nat) :
    writableAt a = true ↔ (0x0400 ≤ a ∧ a ≤ 0x04FF) ∨ (0x0700 ≤ a ∧ a ≤ 0x070F) ∨ (0x0800 ≤ a ∧ a ≤ 0x0802) := by
  unfold writableAt
  rw [regionAt_eq]
  split_ifs <;> simp [regionWritable] <;> omega

/-! ## What a write leaves -/

@[simp] theorem asSet_params (a : Addr) (v : Byte) (s : State) : (asSet a v s).params = s.params := by
  unfold asSet; repeat' split
  all_goals rfl
@[simp] theorem asSet_dec (a : Addr) (v : Byte) (s : State) : (asSet a v s).dec = s.dec := by
  unfold asSet; repeat' split
  all_goals rfl
@[simp] theorem asSet_telem (a : Addr) (v : Byte) (s : State) : (asSet a v s).telem = s.telem := by
  unfold asSet; repeat' split
  all_goals rfl
@[simp] theorem asSet_ports (a : Addr) (v : Byte) (s : State) : (asSet a v s).ports = s.ports := by
  unfold asSet; repeat' split
  all_goals rfl
@[simp] theorem asSet_appHold (a : Addr) (v : Byte) (s : State) : (asSet a v s).appHold = s.appHold := by
  unfold asSet; repeat' split
  all_goals rfl
@[simp] theorem asSet_tickHold (a : Addr) (v : Byte) (s : State) : (asSet a v s).tickHold = s.tickHold := by
  unfold asSet; repeat' split
  all_goals rfl
@[simp] theorem asSet_sched (a : Addr) (v : Byte) (s : State) : (asSet a v s).sched = s.sched := by
  unfold asSet; repeat' split
  all_goals rfl
@[simp] theorem asSet_appProg (a : Addr) (v : Byte) (s : State) : (asSet a v s).appProg = s.appProg := by
  unfold asSet; repeat' split
  all_goals rfl

/-- The stores after a write (20_memory.md R63). -/
theorem asSet_mem (a : Addr) (v : Byte) (s : State) :
    (asSet a v s).mem = if writableAt a.toNat then memWrite s.mem a.toNat v else s.mem := by
  unfold asSet writableAt
  cases regionAt a.toNat with
  | none => rfl
  | some r => cases r <;> simp [regionWritable]; split <;> rfl

/-- The trace after a write: `REENUM` exactly at 0x070F (R67). -/
theorem asSet_trace (a : Addr) (v : Byte) (s : State) :
    (asSet a v s).trace = if a = reenumAddr then s.trace ++ [.reenum] else s.trace := by
  unfold asSet
  have h : a = reenumAddr → regionAt a.toNat = some .serialId := by rintro rfl; decide
  cases hr : regionAt a.toNat with
  | none => simp only; rw [if_neg]; intro e; rw [h e] at hr; cases hr
  | some r =>
    cases r with
    | serialId => simp only; split <;> rfl
    | _ => simp only; rw [if_neg]; intro e; rw [h e] at hr; cases hr

/-- A write keeps the canonical form. -/
theorem wf_asSet (a : Addr) (v : Byte) {s : State} (h : Memory.wf s.mem = true) : Memory.wf (asSet a v s).mem = true := by
  rw [asSet_mem]
  split_ifs with hw
  · exact wf_memWrite h hw v
  · exact h

/-! ## A read after a write -/

/-- A read depends on the parameters, the stores and the telemetry records only (20_memory.md R62). -/
theorem asGet_congr {s t : State} (hp : t.params = s.params) (hm : t.mem = s.mem) (ht : t.telem = s.telem) (a : Addr) :
    asGet t a = asGet s a := by
  unfold asGet
  rw [hp, hm, ht]

/-- A read after a write (20_memory.md R65, R72, R75): the written byte at a writable address, what it was elsewhere. -/
theorem asGet_asSet (a b : Addr) (v : Byte) (s : State) :
    asGet (asSet a v s) b = if b = a ∧ writableAt a.toNat = true then v else asGet s b := by
  have hmem := asSet_mem a v s
  have key : ∀ r, regionAt b.toNat = some r → regionWritable r = true →
      memRead (asSet a v s).mem b.toNat = if b = a ∧ writableAt a.toNat = true then v else memRead s.mem b.toNat := by
    intro r hr hw
    rw [hmem]
    by_cases hwa : writableAt a.toNat = true
    · simp only [hwa, if_true, memRead_memWrite, and_true, BitVec.toNat_inj]
    · simp [hwa]
  have skip : regionAt b.toNat = none ∨ (∃ r, regionAt b.toNat = some r ∧ regionWritable r = false) →
      ¬ (b = a ∧ writableAt a.toNat = true) := by
    rintro h ⟨rfl, hw⟩
    unfold writableAt at hw
    rcases h with h | ⟨r, h, hr⟩
    · simp [h] at hw
    · simp [h, hr] at hw
  unfold asGet
  cases hr : regionAt b.toNat with
  | none => rw [if_neg (skip (.inl hr))]
  | some r =>
    cases r with
    | identity => simp only [asSet_params]; rw [if_neg (skip (.inr ⟨_, hr, rfl⟩))]
    | telemetry => simp only [asSet_telem]; rw [if_neg (skip (.inr ⟨_, hr, rfl⟩))]
    | eeprom => exact key _ hr rfl
    | serialId => exact key _ hr rfl
    | outputs => exact key _ hr rfl

/-- What a streamed write turn leaves (40_i2c_decoder.md R138). -/
theorem writeTurn_eq (s : State) :
    writeTurn s =
      { asSet s.dec.pointer s.dec.stagedValue s with dec := { s.dec with pointer := s.dec.pointer + 1 } } := by
  unfold writeTurn
  simp

end Sys2Proof.Machine
end

