-- ==== Sys2Proof/Laws/Decode.lean ====
section
/-! SUPPORT. Fields of an encoded word read back, and the small laws of the phase counter. -/

namespace Sys2Proof

@[simp] theorem statDA_packStat (da p s rw bf : Bool) : statDA (packStat da p s rw bf) = da := by
  revert da p s rw bf; decide
@[simp] theorem statP_packStat (da p s rw bf : Bool) : statP (packStat da p s rw bf) = p := by
  revert da p s rw bf; decide
@[simp] theorem statS_packStat (da p s rw bf : Bool) : statS (packStat da p s rw bf) = s := by
  revert da p s rw bf; decide
@[simp] theorem statRW_packStat (da p s rw bf : Bool) : statRW (packStat da p s rw bf) = rw := by
  revert da p s rw bf; decide
@[simp] theorem statBF_packStat (da p s rw bf : Bool) : statBF (packStat da p s rw bf) = bf := by
  revert da p s rw bf; decide

theorem packStat_fields (st : BitVec 5) : packStat (statDA st) (statP st) (statS st) (statRW st) (statBF st) = st := by
  revert st; decide

theorem cmdWord_toNat (op p : Nat) (d : Byte) (ho : op < 16) (hp : p < 16) :
    (cmdWord op p d).toNat = op * 4096 + p * 256 + d.toNat := by
  have hd := d.isLt
  unfold cmdWord
  simp only [BitVec.toNat_append, BitVec.toNat_ofNat, Nat.mod_eq_of_lt (show op < 2 ^ 4 by omega),
    Nat.mod_eq_of_lt (show p < 2 ^ 4 by omega)]
  rw [← Nat.shiftLeft_add_eq_or_of_lt (by omega : p < 2 ^ 4), ← Nat.shiftLeft_add_eq_or_of_lt (by omega : d.toNat < 2 ^ 8)]
  simp only [Nat.shiftLeft_eq]
  omega

@[simp] theorem cmdOp_cmdWord (op p : Nat) (d : Byte) (ho : op < 16) (hp : p < 16) : cmdOp (cmdWord op p d) = op := by
  unfold cmdOp
  have hd := d.isLt
  rw [BitVec.extractLsb'_toNat, cmdWord_toNat op p d ho hp, Nat.shiftRight_eq_div_pow]
  omega

@[simp] theorem cmdPort_cmdWord (op p : Nat) (d : Byte) (ho : op < 16) (hp : p < 16) : cmdPort (cmdWord op p d) = p := by
  unfold cmdPort
  have hd := d.isLt
  rw [BitVec.extractLsb'_toNat, cmdWord_toNat op p d ho hp, Nat.shiftRight_eq_div_pow]
  omega

@[simp] theorem cmdData_cmdWord (op p : Nat) (d : Byte) (ho : op < 16) (hp : p < 16) : cmdData (cmdWord op p d) = d := by
  unfold cmdData
  have hd := d.isLt
  apply BitVec.eq_of_toNat_eq
  rw [BitVec.extractLsb'_toNat, cmdWord_toNat op p d ho hp, Nat.shiftRight_eq_div_pow]
  omega

theorem cmdOp_eq (w : BitVec 16) : cmdOp w = w.toNat / 4096 := by
  unfold cmdOp
  rw [BitVec.extractLsb'_toNat, Nat.shiftRight_eq_div_pow]
  have := w.isLt
  omega

@[simp] theorem word16_hi_lo (v : BitVec 16) : word16 (hiByte v) (loByte v) = v := by
  unfold word16 hiByte loByte
  apply BitVec.eq_of_getLsbD_eq
  intro i hi
  simp only [BitVec.getLsbD_append, BitVec.getLsbD_extractLsb']
  split_ifs with h
  · simp [h]
  · simp [show i - 8 < 8 by omega, show 8 + (i - 8) = i by omega]

@[simp] theorem hiByte_word16 (hi lo : Byte) : hiByte (word16 hi lo) = hi := by
  unfold word16 hiByte
  apply BitVec.eq_of_getLsbD_eq
  intro i h
  simp only [BitVec.getLsbD_extractLsb', BitVec.getLsbD_append, h, decide_true, Bool.true_and,
    show ¬ (8 + i < 8) by omega, if_false, show 8 + i - 8 = i by omega]

@[simp] theorem loByte_word16 (hi lo : Byte) : loByte (word16 hi lo) = lo := by
  unfold word16 loByte
  apply BitVec.eq_of_getLsbD_eq
  intro i h
  simp only [BitVec.getLsbD_extractLsb', BitVec.getLsbD_append, h, decide_true, Bool.true_and, if_true, Nat.zero_add]

@[simp] theorem stopBitsOf_code (x : StopBits) : stopBitsOf (stopBitsCode x) = some x := by cases x <;> rfl
@[simp] theorem parityOf_code (x : Parity) : parityOf (parityCode x) = some x := by cases x <;> rfl

@[simp] theorem baudOf_bytes (r : BitVec 32) :
    baudOf (r.extractLsb' 0 8) (r.extractLsb' 8 8) (r.extractLsb' 16 8) (r.extractLsb' 24 8) = r := by
  unfold baudOf
  apply BitVec.eq_of_getLsbD_eq
  intro i hi
  simp only [BitVec.getLsbD_append, BitVec.getLsbD_extractLsb']
  split_ifs with h1 h2 h3
  · simp [h1]
  · simp [h2, show 8 + (i - 8) = i by omega]
  · simp [h3, show 16 + (i - 8 - 8) = i by omega]
  · simp [show i - 8 - 8 - 8 < 8 by omega, show 24 + (i - 8 - 8 - 8) = i by omega]

/-- A line coding is read back from its seven bytes (30_encoding.md R107 (b)). -/
@[simp] theorem codingOf_codingBytes (c : LineCoding) : codingOf (codingBytes c) = .ok c := by
  simp [codingOf, codingBytes]

/-! ## The phase counter -/

@[simp] theorem nextPhase_false (ph : Phase) : nextPhase false ph = .address := rfl

/-- `phaseCount` after an event with a data byte: one more, saturating at 127 (40_i2c_decoder.md R131, R145). -/
theorem phaseInt_nextPhase_true (ph : Phase) : phaseInt (nextPhase true ph) = min (phaseInt ph + 1) 127 := by
  cases ph with
  | address => rfl
  | data i =>
    have hi := i.isLt
    simp only [nextPhase, satInc, phaseInt]
    split_ifs with h
    · simp only [Nat.cast_add, Nat.cast_one]; omega
    · omega

theorem phaseInt_bounds (ph : Phase) : -1 ≤ phaseInt ph ∧ phaseInt ph ≤ 127 := by
  cases ph with
  | address => simp [phaseInt]
  | data i => have := i.isLt; simp only [phaseInt]; omega

theorem phaseInt_injective {x y : Phase} (h : phaseInt x = phaseInt y) : x = y := by
  cases x with
  | address => cases y with
    | address => rfl
    | data j => simp only [phaseInt] at h; omega
  | data i => cases y with
    | address => simp only [phaseInt] at h; omega
    | data j => simp only [phaseInt] at h; congr 1; exact Fin.ext (by omega)

/-- A data byte never leaves the counter in the address phase. -/
theorem nextPhase_true_ne (ph : Phase) : nextPhase true ph ≠ .address := by
  cases ph <;> simp [nextPhase]

end Sys2Proof
end

