-- ==== Sys2Proof/Laws/Fifo.lean ====
section
/-! SUPPORT. What the shared operations of a port can do, said once, and that each keeps what `PortOk` says of a port. -/

namespace Sys2Proof.Machine

/-! ## Buffers -/

@[simp] theorem BufPair.sel_upd_self (bp : BufPair) (x : Bool) (m : List Host.Cell) : (bp.upd x m).sel x = m := by
  cases x <;> rfl

@[simp] theorem BufPair.sel_upd_not (bp : BufPair) (x : Bool) (m : List Host.Cell) : (bp.upd x m).sel (!x) = bp.sel (!x) := by
  cases x <;> rfl

@[simp] theorem BufPair.sel_upd_not' (bp : BufPair) (x : Bool) (m : List Host.Cell) : (bp.upd (!x) m).sel x = bp.sel x := by
  cases x <;> rfl

theorem writtenTo_zero (buf : List Host.Cell) : writtenTo buf 0 := by
  intro i hi; omega

theorem writtenTo_mono {buf : List Host.Cell} {n k : Nat} (h : writtenTo buf n) (hk : k ≤ n) : writtenTo buf k :=
  fun i hi => h i (by omega)

/-- Appending at the first unwritten index writes one more. -/
theorem writtenTo_insert {buf : List Host.Cell} {n : Nat} (h : writtenTo buf n) (b : Byte) :
    writtenTo (cellInsert buf n b) (n + 1) := by
  intro i hi
  rw [cellLookup_insert]
  split_ifs with e
  · rfl
  · exact h i (by omega)

theorem writtenTo_cellsFrom (bs : List Byte) : writtenTo (cellsFrom 0 bs) bs.length := by
  intro i hi
  rw [cellLookup_cellsFrom]
  simp [hi]

/-- Written bytes can be read in one run. -/
theorem readRun_of_written {buf : List Host.Cell} {n : Nat} (h : writtenTo buf n) : ∃ bs, readRun buf 0 n = some bs := by
  have key : ∀ m k, k + m ≤ n → ∃ bs, readRun buf k m = some bs := by
    intro m
    induction m with
    | zero => intro k _; exact ⟨[], rfl⟩
    | succ m ih =>
      intro k hk
      obtain ⟨bs, hbs⟩ := ih (k + 1) (by omega)
      obtain ⟨b, hb⟩ := Option.isSome_iff_exists.mp (h k (by omega))
      exact ⟨b :: bs, by simp [readRun, hb, hbs]⟩
  exact key n 0 (by omega)

theorem bufferOk_insert {n : Nat} {buf : List Host.Cell} (h : bufferOk n buf = true) {i : Nat} (hi : i < n) (b : Byte) :
    bufferOk n (cellInsert buf i b) = true := by
  simp only [bufferOk, Bool.and_eq_true, List.all_eq_true, decide_eq_true_eq] at h ⊢
  refine ⟨cellsSorted_insert h.1 i b, fun c hc => ?_⟩
  rcases mem_cellInsert hc with rfl | hc
  · exact hi
  · exact h.2 c hc

theorem bufferOk_cellsFrom {n : Nat} (bs : List Byte) (h : bs.length ≤ n) : bufferOk n (cellsFrom 0 bs) = true := by
  simp only [bufferOk, Bool.and_eq_true, List.all_eq_true, decide_eq_true_eq]
  obtain ⟨hs, hm⟩ := cellsSorted_cellsFrom bs 0
  exact ⟨hs, fun c hc => by have := (hm c hc).2; omega⟩

theorem buffersOk_iff {n : Nat} {q : Port} :
    buffersOk n q = true ↔ (∀ x, bufferOk n (q.inBuf.sel x) = true) ∧ (∀ x, bufferOk n (q.outBuf.sel x) = true) := by
  simp only [buffersOk, Bool.and_eq_true]
  constructor
  · rintro ⟨⟨⟨h1, h2⟩, h3⟩, h4⟩
    exact ⟨fun x => by cases x <;> assumption, fun x => by cases x <;> assumption⟩
  · rintro ⟨h1, h2⟩
    exact ⟨⟨⟨h1 true, h1 false⟩, h2 true⟩, h2 false⟩

theorem bufferOk_sel_upd {n : Nat} {bp : BufPair} (h : ∀ x, bufferOk n (bp.sel x) = true) {m : List Host.Cell}
    (hm : bufferOk n m = true) (y x : Bool) : bufferOk n ((bp.upd y m).sel x) = true := by
  cases x <;> cases y <;> first | exact hm | exact h true | exact h false

/-! ## Running a command on a port -/

/-- `withPort` completes only on an initialised port, and then as the command says. -/
theorem withPort_next {p : Nat} {s t : State} {k : Port → Result} :
    withPort p s k = .next t ↔ ∃ q, s.ports[p]? = some q ∧ q.inited = true ∧ k q = .next t := by
  unfold withPort
  cases h : s.ports[p]? with
  | none => simp
  | some q => cases hi : q.inited <;> simp [hi]

/-- `withPort` faults only as the command on the initialised port does. -/
theorem withPort_fault {p : Nat} {s : State} {k : Port → Result} {f : Fault} :
    withPort p s k = .fault f ↔ ∃ q, s.ports[p]? = some q ∧ q.inited = true ∧ k q = .fault f := by
  unfold withPort
  cases h : s.ports[p]? with
  | none => simp
  | some q => cases hi : q.inited <;> simp [hi]

/-- On an initialised port `withPort` is the command. -/
theorem withPort_of_inited {p : Nat} {s : State} {q : Port} (h : s.ports[p]? = some q) (hi : q.inited = true)
    (k : Port → Result) : withPort p s k = k q := by
  simp [withPort, h, hi]

/-- `settle` always completes: with the port replaced and the records emitted, or with the port replaced and the hold marked. -/
theorem settle_next {p : Nat} {mark : State → State} {s t : State} {r : PortStep} :
    settle p mark s r = .next t ↔
      (∃ q out, r = .done q out ∧ t = emitAll out (setPort p q s)) ∨ (∃ q, r = .held q ∧ t = mark (setPort p q s)) := by
  cases r <;> simp [settle, eq_comm]

theorem settle_not_fault {p : Nat} {mark : State → State} {s : State} {r : PortStep} {f : Fault} :
    settle p mark s r ≠ .fault f := by
  cases r <;> simp [settle]

/-- Replacing a port by itself changes nothing. -/
theorem setPort_self {p : Nat} {q : Port} {s : State} (h : s.ports[p]? = some q) : setPort p q s = s := by
  unfold setPort
  have : s.ports.set p q = s.ports := by
    apply List.ext_getElem?
    intro i
    rw [List.getElem?_set]
    split_ifs with h1 h2
    · subst h1; exact h.symm
    · subst h1
      rw [List.getElem?_eq_none (by omega)]
    · rfl
  rw [this]

/-- The ports after one was replaced. -/
theorem getElem?_setPort {p p' : Nat} {q q0 : Port} {s : State} (h : s.ports[p]? = some q0) :
    (setPort p q s).ports[p']? = if p' = p then some q else s.ports[p']? := by
  have hlt : p < s.ports.length := by
    by_contra hn
    rw [List.getElem?_eq_none (by omega)] at h
    cases h
  rw [setPort_ports, List.getElem?_set]
  by_cases e : p = p'
  · subst e; simp [hlt]
  · simp [e, Ne.symm e]

/-! ## What the IN operations can do -/

/-- A requested hand-off completes if the hardware owns nothing, else it holds (42_fifo_in.md R170, R171). -/
theorem handoffIn_free {p : Nat} {len : Byte} {o : Origin} {q : Port} (h : q.inDesc.owned = false) :
    handoffIn p len o q = .done (finishIn o (grantIn len q)) [submitRecord p len q] := by
  simp [handoffIn, h]

theorem handoffIn_owned {p : Nat} {len : Byte} {o : Origin} {q : Port} (h : q.inDesc.owned = true) :
    handoffIn p len o q = .held { q with inWait := some ⟨len, o⟩ } := by
  simp [handoffIn, h]

/-- The port that a flush hands off has its guard set; its length is `inLen`. -/
theorem flushPort_sends {p : Nat} {q : Port} (hg : q.flushInProgress = false) (h : q.inLen ≠ 0 ∨ q.zlpPending = true) :
    flushPort p q = handoffIn p q.inLen .flush { q with flushInProgress := true } := by
  unfold flushPort
  by_cases hl : q.inLen = 0
  · have hz : q.zlpPending = true := by tauto
    simp [hg, hl, hz]
  · rw [if_neg (by simp [hg]), if_pos hl]

theorem flushPort_quiet {p : Nat} {q : Port} (h : q.flushInProgress = true ∨ (q.inLen = 0 ∧ q.zlpPending = false)) :
    flushPort p q = .done q [] := by
  unfold flushPort
  rcases h with h | ⟨h1, h2⟩
  · simp [h]
  · simp [h1, h2]

/-- Everything a flush can do (42_fifo_in.md R173). -/
theorem flushPort_cases (p : Nat) (q : Port) :
    (flushPort p q = .done q [] ∧ (q.flushInProgress = true ∨ (q.inLen = 0 ∧ q.zlpPending = false))) ∨
    (q.flushInProgress = false ∧ (q.inLen ≠ 0 ∨ q.zlpPending = true) ∧ q.inDesc.owned = false ∧
      flushPort p q = .done (finishIn .flush (grantIn q.inLen { q with flushInProgress := true }))
        [submitRecord p q.inLen q]) ∨
    (q.flushInProgress = false ∧ (q.inLen ≠ 0 ∨ q.zlpPending = true) ∧ q.inDesc.owned = true ∧
      flushPort p q = .held { q with flushInProgress := true, inWait := some ⟨q.inLen, .flush⟩ }) := by
  by_cases hg : q.flushInProgress = true
  · exact .inl ⟨flushPort_quiet (.inl hg), .inl hg⟩
  rw [Bool.not_eq_true] at hg
  by_cases hs : q.inLen ≠ 0 ∨ q.zlpPending = true
  · rw [flushPort_sends hg hs]
    cases ho : q.inDesc.owned
    · exact .inr (.inl ⟨hg, hs, rfl, handoffIn_free ho⟩)
    · exact .inr (.inr ⟨hg, hs, rfl, handoffIn_owned ho⟩)
  · have h2 : q.inLen = 0 ∧ q.zlpPending = false := by
      rw [not_or, not_not, Bool.not_eq_true] at hs
      exact hs
    exact .inl ⟨flushPort_quiet (.inr h2), .inr h2⟩

/-- Everything a hand-off at its hold can do (R171). -/
theorem resumeIn_cases (p : Nat) (o : Origin) (q : Port) :
    (q.inDesc.owned = true ∧ resumeIn p o q = .held q) ∨
    (q.inDesc.owned = false ∧
      resumeIn p o q = .done (finishIn o (grantIn (pendingLen q) q)) [submitRecord p (pendingLen q) q]) := by
  unfold resumeIn
  cases h : q.inDesc.owned <;> simp

/-! ## What keeps a port good -/

/-- The part of `PortOk` that a hand-off starts from: everything but the lengths and flags it settles. -/
structure PortCore (n : Nat) (q : Port) : Prop where
  inOther : q.inDesc.bufIsA = !q.activeInIsA
  outOther : q.outDesc.bufIsA = !q.activeOutIsA
  inToggle : q.inDesc.toggle = q.activeInIsA
  outToggle : q.outDesc.toggle = q.activeOutIsA
  outLenLe : q.outLen.toNat ≤ q.outCnt.toNat
  outCntLe : q.outCnt.toNat ≤ n
  outCountLe : q.outDesc.count.toNat ≤ n
  inWritten : writtenTo (q.inBuf.sel q.activeInIsA) q.inLen.toNat
  outWritten : writtenTo (q.outBuf.sel q.activeOutIsA) q.outCnt.toNat
  waitingWritten : q.outDesc.owned = false → writtenTo (q.outBuf.sel q.outDesc.bufIsA) q.outDesc.count.toNat

theorem PortOk.core {n : Nat} {q : Port} (h : PortOk n q) : PortCore n q :=
  ⟨h.inOther, h.outOther, h.inToggle, h.outToggle, h.outLenLe, h.outCntLe, h.outCountLe, h.inWritten, h.outWritten,
    h.waitingWritten⟩

theorem toNat_add_one {x : Byte} (h : x.toNat < 255) : (x + 1).toNat = x.toNat + 1 := by
  rw [BitVec.toNat_add]
  show (x.toNat + 1) % 256 = _
  omega

/-- Appending below the capacity writes one more byte and keeps the rest (42_fifo_in.md R172). -/
theorem portCore_appendIn {n : Nat} {q : Port} (h : PortCore n q) (hlt : q.inLen.toNat < n) (hn : n ≤ 255) (b : Byte) :
    PortCore n (appendIn b q) where
  inOther := h.inOther
  outOther := h.outOther
  inToggle := h.inToggle
  outToggle := h.outToggle
  outLenLe := h.outLenLe
  outCntLe := h.outCntLe
  outCountLe := h.outCountLe
  inWritten := by
    simp only [appendIn_inBuf, appendIn_activeInIsA, appendIn_inLen, BufPair.sel_upd_self]
    rw [toNat_add_one (by omega)]
    exact writtenTo_insert h.inWritten b
  outWritten := h.outWritten
  waitingWritten := h.waitingWritten

theorem portOk_appendIn {n : Nat} {q : Port} (h : PortOk n q) (hw : q.inWait = none) (hn : n ≤ 255) (b : Byte)
    (hne : (q.inLen + 1).toNat ≠ n) : PortOk n (appendIn b q) := by
  have hlt : q.inLen.toNat < n := h.inLenLt (by simp [hw])
  have h1 := toNat_add_one (x := q.inLen) (by omega)
  have hc := portCore_appendIn h.core hlt hn b
  exact
    { inOther := hc.inOther, outOther := hc.outOther, inToggle := hc.inToggle, outToggle := hc.outToggle
      inLenLt := by intro _; simp only [appendIn_inLen]; omega
      outLenLe := hc.outLenLe, outCntLe := hc.outCntLe, inCountLe := h.inCountLe, outCountLe := hc.outCountLe
      guard := h.guard
      putWait := by simp [hw]
      flushWait := by simp [hw]
      zlpFull := h.zlpFull
      inWritten := hc.inWritten
      grantedWritten := by
        intro ho
        have := h.grantedWritten ho
        simp only [appendIn_inBuf, appendIn_inDesc, h.inOther, BufPair.sel_upd_not] at this ⊢
        exact this
      outWritten := hc.outWritten, waitingWritten := hc.waitingWritten }

/-- The full buffer at the hold of its hand-off (R171, R172). -/
theorem portOk_putWait {n : Nat} {q : Port} (h : PortOk n q) (hw : q.inWait = none) (hn : n ≤ 255) (b : Byte)
    (he : (q.inLen + 1).toNat = n) :
    PortOk n { appendIn b q with inWait := some ⟨BitVec.ofNat 8 n, .put⟩ } := by
  have hlt : q.inLen.toNat < n := h.inLenLt (by simp [hw])
  have hc := portCore_appendIn h.core hlt hn b
  have hnat : (BitVec.ofNat 8 n).toNat = n := by rw [BitVec.toNat_ofNat]; omega
  have hg : q.flushInProgress = false := by
    cases hf : q.flushInProgress with
    | false => rfl
    | true =>
      obtain ⟨w, h1, _⟩ := h.guard.mp hf
      rw [hw] at h1; cases h1
  exact
    { inOther := hc.inOther, outOther := hc.outOther, inToggle := hc.inToggle, outToggle := hc.outToggle
      inLenLt := by
        intro hf
        have := hf _ rfl
        cases this
      outLenLe := hc.outLenLe, outCntLe := hc.outCntLe, inCountLe := h.inCountLe, outCountLe := hc.outCountLe
      guard := by simp [hg]
      putWait := by
        intro w hw' _
        cases hw'
        refine ⟨hnat, ?_⟩
        apply BitVec.eq_of_toNat_eq
        show (q.inLen + 1).toNat = (BitVec.ofNat 8 n).toNat
        rw [hnat, he]
      flushWait := by
        intro w hw' ho
        cases hw'
        cases ho
      zlpFull := h.zlpFull
      inWritten := hc.inWritten
      grantedWritten := by
        intro ho
        have := h.grantedWritten ho
        simp only [appendIn_inBuf, appendIn_inDesc, h.inOther, BufPair.sel_upd_not] at this ⊢
        exact this
      outWritten := hc.outWritten, waitingWritten := hc.waitingWritten }

/-- A hand-off keeps the port good (R170, R172, R173): it needs its bytes written, its length at most `N`, `N` itself for a
`PUT`, and the guard clear for a `PUT`. -/
theorem portOk_grantIn {n : Nat} {q : Port} (h : PortCore n q) (hn : 1 ≤ n) (o : Origin) {len : Byte}
    (hlen : len.toNat ≤ q.inLen.toNat) (hle : len.toNat ≤ n) (hput : o = .put → len.toNat = n)
    (hguard : o = .put → q.flushInProgress = false) : PortOk n (finishIn o (grantIn len q)) where
  inOther := by simp
  outOther := by simpa using h.outOther
  inToggle := by simp [h.inToggle]
  outToggle := by simpa using h.outToggle
  inLenLt := by
    intro _
    simp only [finishIn_inLen, grantIn_inLen]
    show 0 < n
    omega
  outLenLe := by simpa using h.outLenLe
  outCntLe := by simpa using h.outCntLe
  inCountLe := by simpa using hle
  outCountLe := by simpa using h.outCountLe
  guard := by
    cases o with
    | put => simp [hguard rfl]
    | flush => simp
  putWait := by simp
  flushWait := by simp
  zlpFull := by
    cases o with
    | put => simpa using hput rfl
    | flush => simp
  inWritten := by
    simp only [finishIn_inLen, grantIn_inLen]
    exact writtenTo_zero _
  grantedWritten := by
    intro _
    simp only [finishIn_inBuf, finishIn_inDesc, grantIn_inBuf, grantIn_inDesc]
    exact writtenTo_mono h.inWritten hlen
  outWritten := by simpa using h.outWritten
  waitingWritten := by simpa using h.waitingWritten

/-- A flush at its hold (R171, R173). -/
theorem portOk_flushWait {n : Nat} {q : Port} (h : PortOk n q) (hw : q.inWait = none)
    (hs : q.inLen ≠ 0 ∨ q.zlpPending = true) :
    PortOk n { q with flushInProgress := true, inWait := some ⟨q.inLen, .flush⟩ } :=
  { inOther := h.inOther, outOther := h.outOther, inToggle := h.inToggle, outToggle := h.outToggle
    inLenLt := fun _ => h.inLenLt (by simp [hw])
    outLenLe := h.outLenLe, outCntLe := h.outCntLe, inCountLe := h.inCountLe, outCountLe := h.outCountLe
    guard := by simp
    putWait := by
      intro w hw' ho
      cases hw'
      cases ho
    flushWait := by
      intro w hw' _
      cases hw'
      refine ⟨rfl, fun h0 => ?_⟩
      rcases hs with hs | hs
      · exact absurd h0 hs
      · exact hs
    zlpFull := h.zlpFull, inWritten := h.inWritten, grantedWritten := h.grantedWritten
    outWritten := h.outWritten, waitingWritten := h.waitingWritten }

/-- A change of the counter, the line coding or the control lines keeps a port good. -/
theorem portOk_counters {n : Nat} {q : Port} (h : PortOk n q) (c : Byte) (l : LineCoding) (k : ControlLine) :
    PortOk n { q with timeoutCounter := c, lineCoding := l, controlLine := k } :=
  ⟨h.inOther, h.outOther, h.inToggle, h.outToggle, h.inLenLt, h.outLenLe, h.outCntLe, h.inCountLe, h.outCountLe, h.guard,
    h.putWait, h.flushWait, h.zlpFull, h.inWritten, h.grantedWritten, h.outWritten, h.waitingWritten⟩

/-- A swap keeps a port good (43_fifo_out.md R200). -/
theorem portOk_swapOut {n : Nat} {q : Port} (h : PortOk n q) (ho : q.outDesc.owned = false) :
    PortOk n (swapOut n q) :=
  { inOther := h.inOther
    outOther := by simp
    inToggle := h.inToggle
    outToggle := by simp [h.outToggle, h.outOther]
    inLenLt := h.inLenLt
    outLenLe := by simp
    outCntLe := by simpa using h.outCountLe
    inCountLe := h.inCountLe
    outCountLe := by
      simp only [swapOut_outDesc, BitVec.toNat_ofNat]
      exact Nat.mod_le _ _
    guard := h.guard, putWait := h.putWait, flushWait := h.flushWait, zlpFull := h.zlpFull, inWritten := h.inWritten
    grantedWritten := h.grantedWritten
    outWritten := by simpa using h.waitingWritten ho
    waitingWritten := by simp }

/-- Consuming a byte keeps a port good (43_fifo_out.md R201). -/
theorem portOk_take {n : Nat} {q : Port} (h : PortOk n q) (hl : q.outLen ≠ 0) : PortOk n { q with outLen := q.outLen - 1 } :=
  { inOther := h.inOther, outOther := h.outOther, inToggle := h.inToggle, outToggle := h.outToggle, inLenLt := h.inLenLt
    outLenLe := by
      have h1 := h.outLenLe
      have h0 : q.outLen.toNat ≠ 0 := fun e => hl (BitVec.eq_of_toNat_eq (by simpa using e))
      show (q.outLen - 1).toNat ≤ _
      have : (q.outLen - 1).toNat = q.outLen.toNat - 1 := by
        rw [BitVec.toNat_sub]
        have := q.outLen.isLt
        show (256 - 1 + q.outLen.toNat) % 256 = _
        omega
      show (q.outLen - 1).toNat ≤ q.outCnt.toNat
      omega
    outCntLe := h.outCntLe, inCountLe := h.inCountLe, outCountLe := h.outCountLe, guard := h.guard, putWait := h.putWait
    flushWait := h.flushWait, zlpFull := h.zlpFull, inWritten := h.inWritten, grantedWritten := h.grantedWritten
    outWritten := h.outWritten, waitingWritten := h.waitingWritten }

/-- The next unconsumed byte of a good port is written (43_fifo_out.md R205). -/
theorem nextOut_isSome {n : Nat} {q : Port} (h : PortOk n q) (hl : q.outLen ≠ 0) : ∃ b, nextOut q = some b := by
  have h0 : q.outLen.toNat ≠ 0 := fun e => hl (BitVec.eq_of_toNat_eq (by simpa using e))
  have hlt : readIndex q < q.outCnt.toNat := by
    unfold readIndex
    have h1 := h.outLenLe
    have h2 := q.outCnt.isLt
    rw [BitVec.toNat_sub]
    omega
  exact Option.isSome_iff_exists.mp (h.outWritten _ hlt)

/-- A received packet keeps a port good (46_environment.md R241). -/
theorem portOk_receiveOut {n : Nat} {q : Port} (h : PortOk n q) (hn : n ≤ 255) (bs : List Byte)
    (hb : bs.length ≤ n) : PortOk n (receiveOut bs q) := by
  have hnat : (BitVec.ofNat 8 bs.length).toNat = bs.length := by rw [BitVec.toNat_ofNat]; omega
  exact
    { inOther := h.inOther
      outOther := by simpa using h.outOther
      inToggle := h.inToggle
      outToggle := by simpa using h.outToggle
      inLenLt := h.inLenLt, outLenLe := h.outLenLe, outCntLe := h.outCntLe, inCountLe := h.inCountLe
      outCountLe := by
        simp only [receiveOut_outDesc, hnat]
        exact hb
      guard := h.guard, putWait := h.putWait, flushWait := h.flushWait, zlpFull := h.zlpFull, inWritten := h.inWritten
      grantedWritten := h.grantedWritten
      outWritten := by
        simp only [receiveOut_outBuf, receiveOut_activeOutIsA, receiveOut_outCnt]
        rw [h.outOther, BufPair.sel_upd_not']
        exact h.outWritten
      waitingWritten := by
        intro _
        simp only [receiveOut_outBuf, receiveOut_outDesc, BufPair.sel_upd_self, hnat]
        exact writtenTo_cellsFrom bs }

/-- The host's collection of a packet keeps a port good (46_environment.md R240). -/
theorem portOk_inDone {n : Nat} {q : Port} (h : PortOk n q) :
    PortOk n { q with inDesc := { q.inDesc with owned := false } } :=
  { inOther := h.inOther, outOther := h.outOther, inToggle := h.inToggle, outToggle := h.outToggle, inLenLt := h.inLenLt
    outLenLe := h.outLenLe, outCntLe := h.outCntLe, inCountLe := h.inCountLe, outCountLe := h.outCountLe
    guard := h.guard, putWait := h.putWait, flushWait := h.flushWait, zlpFull := h.zlpFull, inWritten := h.inWritten
    grantedWritten := by simp
    outWritten := h.outWritten, waitingWritten := h.waitingWritten }

/-- `INIT` makes a port good (44_port_control.md R220). -/
theorem portOk_initPort {n : Nat} (q : Port) (hn : 1 ≤ n) (hn' : n ≤ 255) : PortOk n (initPort n q) :=
  { inOther := rfl, outOther := rfl, inToggle := rfl, outToggle := rfl
    inLenLt := by
      intro _
      show 0 < n
      omega
    outLenLe := le_refl _
    outCntLe := Nat.zero_le _
    inCountLe := Nat.zero_le _
    outCountLe := by
      simp only [initPort_outDesc, BitVec.toNat_ofNat]
      exact Nat.mod_le _ _
    guard := by simp
    putWait := by simp
    flushWait := by simp
    zlpFull := by simp
    inWritten := writtenTo_zero _
    grantedWritten := by simp
    outWritten := writtenTo_zero _
    waitingWritten := by simp }

end Sys2Proof.Machine
end

