-- ==== Sys2Proof/Laws/Turns.lean ====
section
/-! SUPPORT. What decoding, issuing and taking a turn can come to, said once; and how operations go with a change of one port. -/

namespace Sys2Proof.Machine

/-! ## What decoding answers -/

/-- The pending event of DEC is a byte event. -/
theorem decodeEvent_isEvent (ph : Phase) (st : BitVec 5) : isEvent (decodeEvent ph st) = true := by
  unfold decodeEvent
  split_ifs <;> try rfl
  cases nextPhase (statDA st) ph with
  | address => rfl
  | data i => simp only; split_ifs <;> rfl

/-- A command is no byte event. -/
theorem decodeCommand_isCommand {c : Cmd} {i : Instr} (h : decodeCommand c = .ok i) : isEvent i = false := by
  obtain ⟨w, pl⟩ := c
  unfold decodeCommand at h
  simp only at h
  split at h
  all_goals try (unfold bare at h; cases pl <;> cases h; rfl)
  all_goals (split at h <;> cases h; rfl)

/-! ## What a step can come to -/

/-- A command that completes was decoded, and its agent may issue it (30_encoding.md R106). -/
theorem issue_next {who : Issuer} {c : Cmd} {s t : State} (h : issue who c s = .next t) :
    ∃ i, decodeCommand c = .ok i ∧ issuerOf i = who ∧ exec i s = .next t := by
  unfold issue at h
  cases hd : decodeCommand c with
  | error e => rw [hd] at h; cases h
  | ok i =>
    rw [hd] at h
    simp only at h
    split_ifs at h with hw
    exact ⟨i, rfl, hw, h⟩

/-- A step takes the first turn of the schedule, or idles with none left. -/
theorem step_next {s t : State} (h : step s = .next t) :
    (s.sched = [] ∧ t = s) ∨ ∃ u rest, s.sched = u :: rest ∧ runTurn u { s with sched := rest } = .next t := by
  unfold step takeTurn at h
  cases hs : s.sched with
  | nil => simp only [hs] at h; cases h; exact .inl ⟨rfl, rfl⟩
  | cons u rest => simp only [hs] at h; exact .inr ⟨u, rest, rfl, h⟩

/-- A byte event that completes leaves parameters, Telemetry, ports and holds, and keeps the form of the stores. -/
theorem exec_event_frame {s t : State} {i : Instr} (hi : isEvent i = true) (h : exec i s = .next t) :
    t.params = s.params ∧ t.telem = s.telem ∧ t.ports = s.ports ∧ t.appHold = s.appHold ∧ t.tickHold = s.tickHold ∧
      t.sched = s.sched ∧ t.appProg = s.appProg ∧ (Memory.wf s.mem = true → Memory.wf t.mem = true) := by
  cases i <;> simp only [isEvent, Bool.false_eq_true] at hi
  all_goals
    cases h
    simp [closeEvent, openEvent, stageHigh, commitLow, readTurn, writeTurn]
  intro hm
  exact wf_asSet _ _ hm

/-- `PEEK` on the port it settled on changes the trace alone (43_fifo_out.md R202). -/
theorem peekByte_next {s t : State} {q : Port} {out : List Record} (h : peekByte q out s = .next t) :
    ∃ tr, t = { s with trace := tr } := by
  unfold peekByte at h
  split at h
  · cases h; exact ⟨_, rfl⟩
  · split at h <;> cases h
    exact ⟨_, rfl⟩

/-- A byte returned by `GET` is the next one, and is consumed (43_fifo_out.md R201). -/
theorem takeByte_next {p : Nat} {q : Port} {out : List Record} {s t : State} (h : takeByte p q out s = .next t) :
    ∃ b, nextOut q = some b ∧ t = emitAll (out ++ [.ret (.byte b)]) (setPort p { q with outLen := q.outLen - 1 } s) := by
  unfold takeByte at h
  cases hn : nextOut q with
  | none => rw [hn] at h; cases h
  | some b => rw [hn] at h; cases h; exact ⟨b, rfl, rfl⟩

/-! ## Changing a port and running an operation -/

@[simp] theorem mapNext_next (f : State → State) (t : State) : mapNext f (.next t) = .next (f t) := rfl
@[simp] theorem mapNext_fault (f : State → State) (e : Fault) : mapNext f (.fault e) = .fault e := rfl
@[simp] theorem mapNext_refused (f : State → State) (e : Refusal) : mapNext f (.refused e) = .refused e := rfl

theorem mapPort_of_get {p : Nat} {q : Port} {s : State} (h : s.ports[p]? = some q) (f : Port → Port) :
    mapPort p f s = setPort p (f q) s := by
  unfold mapPort
  rw [h]

/-- The ports after one was changed. -/
theorem getElem?_mapPort (p p' : Nat) (f : Port → Port) (s : State) :
    (mapPort p f s).ports[p']? = if p' = p then s.ports[p]?.map f else s.ports[p']? := by
  cases h : s.ports[p]? with
  | none =>
    unfold mapPort
    rw [h]
    by_cases e : p' = p
    · subst e; simp [h]
    · simp [e]
  | some q =>
    rw [mapPort_of_get h, getElem?_setPort h]
    rfl

/-- Replacing two ports commutes. -/
theorem setPort_comm {p p' : Nat} (h : p ≠ p') (q q' : Port) (s : State) :
    setPort p q (setPort p' q' s) = setPort p' q' (setPort p q s) := by
  unfold setPort
  rw [List.set_comm _ _ h.symm]

/-- A command on a port commutes with a change `f` of the state that makes `g` of that port, if its continuation does. -/
theorem withPort_mapNext {p : Nat} {f : State → State} {g : Port → Port} {s : State} {k k' : Port → Result}
    (hf : (f s).ports[p]? = s.ports[p]?.map g) (hg : ∀ q, (g q).inited = q.inited)
    (hk : ∀ q, s.ports[p]? = some q → q.inited = true → k' (g q) = mapNext f (k q)) :
    withPort p (f s) k' = mapNext f (withPort p s k) := by
  unfold withPort
  rw [hf]
  cases h : s.ports[p]? with
  | none => rfl
  | some q =>
    simp only [Option.map_some, hg]
    cases hi : q.inited with
    | false => rfl
    | true => exact hk q h hi

end Sys2Proof.Machine
end

