-- ==== Sys2Proof/Laws/Invariant.lean ====
section
/-! SUPPORT. When the invariant passes from one state to the next: the ways in which a step can change one port and the holds
(10_state.md R38, R39; 42_fifo_in.md R171, R175, R177). -/

namespace Sys2Proof.Machine

/-- `t` differs from `s` at most in port `p`, which is `q`, in the holds, and in the schedule, program and trace. -/
structure OnlyPort (s t : State) (p : Nat) (q : Port) : Prop where
  ports : t.ports = s.ports.set p q
  params : t.params = s.params
  telem : t.telem = s.telem
  mem : t.mem = s.mem
  dec : t.dec = s.dec

/-- What the new value of a port must satisfy by itself. -/
structure GoodPort (n : Nat) (q : Port) : Prop where
  buffers : buffersOk n q = true
  ok : PortOk n q
  inited : q.inited = true

theorem waitsWith_congr {o : Origin} {s t : State} (h : t.ports = s.ports) (p : Nat) :
    waitsWith o t p ↔ waitsWith o s p := by
  unfold waitsWith
  rw [h]

/-- The buffers of a port keep their form when only other fields change. -/
theorem buffersOk_congr {n : Nat} {q q' : Port} (h1 : q'.inBuf = q.inBuf) (h2 : q'.outBuf = q.outBuf)
    (h : buffersOk n q = true) : buffersOk n q' = true := by
  unfold buffersOk
  rw [h1, h2]
  exact h

/-- Appending below the packet size keeps the form of the buffers (42_fifo_in.md R172). -/
theorem buffersOk_appendIn {n : Nat} {q : Port} (h : buffersOk n q = true) (hl : q.inLen.toNat < n) (b : Byte) :
    buffersOk n (appendIn b q) = true := by
  rw [buffersOk_iff] at h ⊢
  refine ⟨fun x => ?_, h.2⟩
  simp only [appendIn_inBuf]
  exact bufferOk_sel_upd h.1 (bufferOk_insert (h.1 _) hl b) _ _

/-- The invariant reads neither the schedule nor the program nor the trace, and of the stores and DEC only their form. -/
theorem Inv.congr {s t : State} (h : Inv s) (h1 : t.params = s.params) (h2 : t.telem.length = s.telem.length)
    (h3 : t.ports = s.ports) (h4 : Memory.wf t.mem = true) (h5 : DecOk t.dec) (h6 : t.appHold = s.appHold)
    (h7 : t.tickHold = s.tickHold) : Inv t where
  params := h1 ▸ h.params
  telemLe := h2 ▸ h.telemLe
  portsPos := h3 ▸ h.portsPos
  mem := h4
  dec := h5
  buffers := by rw [h1, h3]; exact h.buffers
  port := by rw [h1, h3]; exact h.port
  idlePort := by rw [h3]; exact h.idlePort
  ticks := by rw [h1, h3, h7]; exact h.ticks
  putHold := by intro p; rw [h6, waitsWith_congr h3]; exact h.putHold p
  flushHold := by intro p; rw [h6, h7, waitsWith_congr h3]; exact h.flushHold p
  oneFlush := by rw [h6, h7]; exact h.oneFlush
  holdInited := by rw [h3, h6]; exact h.holdInited

section change

variable {s t : State} {p : Nat} {q q' : Port}

/-- One port changes; the holds that concern hand-offs change so that they still say which port waits. -/
theorem Inv.update (h : Inv s) (hq : s.ports[p]? = some q) (ho : OnlyPort s t p q')
    (hg : GoodPort s.params.packetSize q')
    (htick : q'.timeoutCounter.toNat < s.params.flushTicks ∨
      (t.tickHold = some p ∧ q'.timeoutCounter.toNat = s.params.flushTicks))
    (htick' : ∀ p', p' ≠ p → s.tickHold = some p' → t.tickHold = some p')
    (hput : ∀ p', t.appHold = some (.putHandoff p') ↔
      (if p' = p then ∃ w, q'.inWait = some w ∧ w.origin = .put else s.appHold = some (.putHandoff p')))
    (hfl : ∀ p', (t.appHold = some (.flushHandoff p') ∨ t.tickHold = some p') ↔
      (if p' = p then ∃ w, q'.inWait = some w ∧ w.origin = .flush
        else (s.appHold = some (.flushHandoff p') ∨ s.tickHold = some p')))
    (hone : ∀ p', ¬ (t.appHold = some (.flushHandoff p') ∧ t.tickHold = some p'))
    (hhi : ∀ a, t.appHold = some a → holdPort a = p ∨ s.appHold = some a) : Inv t := by
  have hlt : p < s.ports.length := by
    by_contra hn
    rw [List.getElem?_eq_none (by omega)] at hq
    cases hq
  have get : ∀ p', t.ports[p']? = if p' = p then some q' else s.ports[p']? := by
    intro p'
    rw [ho.ports, List.getElem?_set]
    by_cases e : p = p'
    · subst e; simp [hlt]
    · simp [e, Ne.symm e]
  have hw : ∀ o p', waitsWith o t p' ↔
      (if p' = p then ∃ w, q'.inWait = some w ∧ w.origin = o else waitsWith o s p') := by
    intro o p'
    unfold waitsWith
    rw [get]
    by_cases e : p' = p
    · simp [e, hg.inited]
    · simp [e]
  constructor
  · exact ho.params ▸ h.params
  · exact ho.telem ▸ h.telemLe
  · rw [ho.ports, List.length_set]; exact h.portsPos
  · exact ho.mem ▸ h.mem
  · exact ho.dec ▸ h.dec
  · intro p' q0
    rw [get, ho.params]
    split_ifs
    · rintro ⟨⟩; exact hg.buffers
    · exact h.buffers p' q0
  · intro p' q0
    rw [get, ho.params]
    split_ifs
    · rintro ⟨⟩ _; exact hg.ok
    · exact h.port p' q0
  · intro p' q0
    rw [get]
    split_ifs
    · rintro ⟨⟩ h0; rw [hg.inited] at h0; cases h0
    · exact h.idlePort p' q0
  · intro p' q0
    rw [get, ho.params]
    split_ifs with e
    · rintro ⟨⟩ _; rw [e]; exact htick
    · intro a b
      rcases h.ticks p' q0 a b with x | ⟨x, y⟩
      · exact .inl x
      · exact .inr ⟨htick' p' e x, y⟩
  · intro p'
    rw [hput, hw]
    split_ifs
    · rfl
    · exact h.putHold p'
  · intro p'
    rw [hfl, hw]
    split_ifs
    · rfl
    · exact h.flushHold p'
  · exact hone
  · intro a ha
    by_cases e : holdPort a = p
    · exact ⟨q', by rw [get]; simp [e], hg.inited⟩
    · rw [get]
      simp only [e, if_false]
      exact h.holdInited a ((hhi a ha).resolve_left e)

/-- Nobody stands at a hand-off hold of a port where none is pending. -/
theorem Inv.no_handoff_hold (h : Inv s) (hq : s.ports[p]? = some q) (hw : q.inWait = none) :
    s.appHold ≠ some (.putHandoff p) ∧ s.appHold ≠ some (.flushHandoff p) ∧ s.tickHold ≠ some p := by
  have none : ∀ o, ¬ waitsWith o s p := by
    rintro o ⟨q0, w, a, -, c, -⟩
    rw [hq] at a
    cases a
    rw [hw] at c
    cases c
  exact ⟨fun e => none _ ((h.putHold p).mp e), fun e => none _ ((h.flushHold p).mp (.inl e)),
    fun e => none _ ((h.flushHold p).mp (.inr e))⟩

/-- A port changes and its pending hand-off does not; `APP` may come to stand at an entry hold or in a `GET`. -/
theorem Inv.same_wait (h : Inv s) (hq : s.ports[p]? = some q) (ho : OnlyPort s t p q') (hg : GoodPort s.params.packetSize q')
    (ha : t.appHold = s.appHold ∨ (s.appHold = none ∧ ∃ a, t.appHold = some a ∧ holdPort a = p ∧
      ∀ p', a ≠ .putHandoff p' ∧ a ≠ .flushHandoff p'))
    (hk : t.tickHold = s.tickHold) (hw : q'.inWait = q.inWait)
    (htick : q'.timeoutCounter.toNat < s.params.flushTicks ∨ (q.inited = true ∧ q'.timeoutCounter = q.timeoutCounter)) :
    Inv t := by
  have hA : ∀ p', t.appHold = some (.putHandoff p') ↔ s.appHold = some (.putHandoff p') := by
    intro p'
    rcases ha with ha | ⟨ha, a, hb, -, hc⟩
    · rw [ha]
    · rw [ha, hb]; simp; exact (hc p').1
  have hB : ∀ p', t.appHold = some (.flushHandoff p') ↔ s.appHold = some (.flushHandoff p') := by
    intro p'
    rcases ha with ha | ⟨ha, a, hb, -, hc⟩
    · rw [ha]
    · rw [ha, hb]; simp; exact (hc p').2
  have hW : ∀ o, waitsWith o s p ↔ ∃ w, q'.inWait = some w ∧ w.origin = o := by
    intro o
    unfold waitsWith
    simp only [hq, hw]
    constructor
    · rintro ⟨q0, w, e, -, b, c⟩; cases e; exact ⟨w, b, c⟩
    · rintro ⟨w, b, c⟩
      refine ⟨q, w, rfl, ?_, b, c⟩
      by_contra hn
      rw [h.idlePort p q hq (by simpa using hn)] at b
      cases b
  apply h.update hq ho hg
  · rcases htick with x | ⟨a, b⟩
    · exact .inl x
    · rw [b, hk]; exact h.ticks p q hq a
  · intro p' _ e; rw [hk, e]
  · intro p'
    rw [hA]
    split_ifs with e
    · rw [e, ← hW]; exact h.putHold p
    · rfl
  · intro p'
    rw [hB, hk]
    split_ifs with e
    · rw [e, ← hW]; exact h.flushHold p
    · rfl
  · intro p'; rw [hB, hk]; exact h.oneFlush p'
  · intro a hta
    rcases ha with ha | ⟨-, a', hb, hc, -⟩
    · right; rw [← ha, hta]
    · left; rw [hb] at hta; cases hta; exact hc

/-- `APP` comes to the hand-off hold of a `PUT` (42_fifo_in.md R171, R172). -/
theorem Inv.app_put_holds (h : Inv s) (hq : s.ports[p]? = some q) (hi : q.inited = true) (hw : q.inWait = none)
    (ho : OnlyPort s t p q') (hg : GoodPort s.params.packetSize q') (hc : q'.timeoutCounter = q.timeoutCounter)
    (ha : s.appHold = none) (ha' : t.appHold = some (.putHandoff p)) (hk : t.tickHold = s.tickHold)
    {l : Byte} (hw' : q'.inWait = some ⟨l, .put⟩) : Inv t := by
  have hn := (h.no_handoff_hold hq hw).2.2
  refine h.update hq ho hg ?_ (fun _ _ e => hk ▸ e) ?_ ?_ ?_ ?_
  · rw [hc, hk]; exact h.ticks p q hq hi
  · intro p'; rw [ha', ha, hw']; simp [eq_comm]
  · intro p'; rw [ha', ha, hw', hk]; simp; rintro e rfl; exact hn e
  · intro p'; rw [ha']; simp
  · intro a e; rw [ha'] at e; cases e; exact .inl rfl

/-- `APP` comes to the hand-off hold of a `FLUSH` (R171, R173). -/
theorem Inv.app_flush_holds (h : Inv s) (hq : s.ports[p]? = some q) (hi : q.inited = true) (hw : q.inWait = none)
    (ho : OnlyPort s t p q') (hg : GoodPort s.params.packetSize q') (hc : q'.timeoutCounter = q.timeoutCounter)
    (ha : s.appHold = none) (ha' : t.appHold = some (.flushHandoff p)) (hk : t.tickHold = s.tickHold)
    {l : Byte} (hw' : q'.inWait = some ⟨l, .flush⟩) : Inv t := by
  have hn := (h.no_handoff_hold hq hw).2.2
  refine h.update hq ho hg ?_ (fun _ _ e => hk ▸ e) ?_ ?_ ?_ ?_
  · rw [hc, hk]; exact h.ticks p q hq hi
  · intro p'; rw [ha', ha, hw']; simp
  · intro p'
    rw [ha', ha, hw', hk]
    by_cases e : p' = p <;> simp [e, eq_comm]
    intro e'; exact absurd e'.symm e
  · intro p'; rw [ha', hk]; simp; intro e; subst e; exact hn
  · intro a e; rw [ha'] at e; cases e; exact .inl rfl

/-- The tick handler comes to the hand-off hold of its flush, its count at the threshold (R175). -/
theorem Inv.tick_flush_holds (h : Inv s) (hq : s.ports[p]? = some q) (hw : q.inWait = none) (ho : OnlyPort s t p q')
    (hg : GoodPort s.params.packetSize q') (hc : q'.timeoutCounter.toNat = s.params.flushTicks)
    (ha : s.tickHold = none) (ha' : t.tickHold = some p) (hk : t.appHold = s.appHold)
    {l : Byte} (hw' : q'.inWait = some ⟨l, .flush⟩) : Inv t := by
  have hn := h.no_handoff_hold hq hw
  refine h.update hq ho hg (.inr ⟨ha', hc⟩) (fun p' _ e => by rw [ha] at e; cases e) ?_ ?_ ?_ ?_
  · intro p'
    rw [hk, hw']
    by_cases e : p' = p
    · subst e; simp; exact hn.1
    · simp [e]
  · intro p'
    rw [ha', ha, hw', hk]
    by_cases e : p' = p <;> simp [e, eq_comm]
    intro e'; exact absurd e'.symm e
  · intro p'; rw [ha', hk]; simp; rintro e e'; subst e'; exact hn.2.1 e
  · intro a e; rw [hk] at e; exact .inr e

/-- No two agents stand at the hand-off of one port with different origins. -/
theorem waitsWith_not_both (hp : waitsWith .put s p) (hf : waitsWith .flush s p) : False := by
  obtain ⟨q1, w1, a1, -, b1, c1⟩ := hp
  obtain ⟨q2, w2, a2, -, b2, c2⟩ := hf
  rw [a1] at a2
  cases a2
  rw [b1] at b2
  cases b2
  rw [c1] at c2
  cases c2

/-- `APP`'s pending hand-off is lifted (R170 to R173). -/
theorem Inv.app_released (h : Inv s) (hq : s.ports[p]? = some q) (hi : q.inited = true) (ho : OnlyPort s t p q')
    (hg : GoodPort s.params.packetSize q') (hc : q'.timeoutCounter = q.timeoutCounter)
    (ha : s.appHold = some (.putHandoff p) ∨ s.appHold = some (.flushHandoff p)) (ha' : t.appHold = none)
    (hk : t.tickHold = s.tickHold) (hw' : q'.inWait = none) : Inv t := by
  have hnt : s.tickHold ≠ some p := by
    intro e
    rcases ha with ha | ha
    · exact waitsWith_not_both ((h.putHold p).mp ha) ((h.flushHold p).mp (.inr e))
    · exact h.oneFlush p ⟨ha, e⟩
  refine h.update hq ho hg ?_ (fun _ _ e => hk ▸ e) ?_ ?_ ?_ ?_
  · rw [hc, hk]; exact h.ticks p q hq hi
  · intro p'
    rw [ha', hw']
    rcases ha with ha | ha <;> simp [ha]
    intro e e'; exact absurd e'.symm e
  · intro p'
    rw [ha', hw', hk]
    by_cases e : p' = p
    · subst e; simp; exact hnt
    · rcases ha with ha | ha <;> simp [ha, e]
      intro e'; exact absurd e'.symm e
  · intro p'; rw [ha']; simp
  · intro a e; rw [ha'] at e; cases e

/-- The tick handler's pending hand-off is lifted and its count restarted (R175). -/
theorem Inv.tick_released (h : Inv s) (hq : s.ports[p]? = some q) (ho : OnlyPort s t p q')
    (hg : GoodPort s.params.packetSize q') (hc : q'.timeoutCounter = 0)
    (ha : s.tickHold = some p) (ha' : t.tickHold = none) (hk : t.appHold = s.appHold) (hw' : q'.inWait = none) : Inv t := by
  have hnf : s.appHold ≠ some (.flushHandoff p) := fun e => h.oneFlush p ⟨e, ha⟩
  have hnp : s.appHold ≠ some (.putHandoff p) :=
    fun e => waitsWith_not_both ((h.putHold p).mp e) ((h.flushHold p).mp (.inr ha))
  refine h.update hq ho hg (.inl (by rw [hc]; exact h.params.ticksPos))
    (fun p' e e' => by rw [ha] at e'; cases e'; exact absurd rfl e) ?_ ?_ ?_ ?_
  · intro p'
    rw [hk, hw']
    by_cases e : p' = p
    · subst e; simp; exact hnp
    · simp [e]
  · intro p'
    rw [ha', hw', hk, ha]
    by_cases e : p' = p
    · subst e; simp; exact hnf
    · simp [e]; intro e'; exact absurd e'.symm e
  · intro p'; rw [ha']; simp
  · intro a e; rw [hk] at e; exact .inr e

/-- `APP` leaves a hold that is no hand-off. -/
theorem Inv.leaves_entry_hold (h : Inv s)
    (ha : ∀ p, s.appHold ≠ some (.putHandoff p) ∧ s.appHold ≠ some (.flushHandoff p)) : Inv { s with appHold := none } where
  params := h.params
  telemLe := h.telemLe
  portsPos := h.portsPos
  mem := h.mem
  dec := h.dec
  buffers := h.buffers
  port := h.port
  idlePort := h.idlePort
  ticks := h.ticks
  putHold := by intro p; have := h.putHold p; simp [(ha p).1] at this ⊢; exact this
  flushHold := by intro p; have := h.flushHold p; simp [(ha p).2] at this ⊢; exact this
  oneFlush := by simp
  holdInited := by simp

/-- The length of a pending hand-off is `inLen` (R171). -/
theorem Inv.pendingLen_eq (h : Inv s) (hq : s.ports[p]? = some q) (hi : q.inited = true) : pendingLen q = q.inLen := by
  unfold pendingLen
  cases hw : q.inWait with
  | none => rfl
  | some w =>
    cases ho : w.origin with
    | put => exact ((h.port p q hq hi).putWait w hw ho).2.symm
    | flush => exact ((h.port p q hq hi).flushWait w hw ho).1.symm

/-- A pending hand-off that is granted leaves a good port (R170 to R173). -/
theorem Inv.granted_port (h : Inv s) (hq : s.ports[p]? = some q) (hi : q.inited = true) {w : InWait} (hw : q.inWait = some w) :
    GoodPort s.params.packetSize (finishIn w.origin (grantIn (pendingLen q) q)) := by
  have hok := h.port p q hq hi
  have hpl := h.pendingLen_eq hq hi
  refine ⟨buffersOk_congr (by simp) (by simp) (h.buffers p q hq), ?_, by simp [hi]⟩
  refine portOk_grantIn hok.core h.params.packetPos w.origin (by rw [hpl]) ?_ ?_ ?_
  · rw [hpl]
    cases ho : w.origin with
    | put =>
      obtain ⟨h1, h2⟩ := hok.putWait w hw ho
      rw [h2]; omega
    | flush =>
      have := hok.inLenLt (by rw [hw]; rintro _ ⟨⟩; exact ho)
      omega
  · intro ho
    obtain ⟨h1, h2⟩ := hok.putWait w hw ho
    rw [hpl, h2]
    exact h1
  · intro ho
    cases hf : q.flushInProgress with
    | false => rfl
    | true =>
      obtain ⟨w', h1, h2⟩ := hok.guard.mp hf
      rw [hw] at h1
      cases h1
      rw [ho] at h2
      cases h2

end change

end Sys2Proof.Machine
end

