-- ==== Sys2Proof/Laws/PerInstr.lean ====
section
/-! SUPPORT. The family RoundTrip: what an operation encodes to decodes to it, one lemma per constructor of Instr. -/

namespace Sys2Proof.Laws.RoundTrip

/-- A well-formed operation is read back from its encoding at every `phaseCount` at which its class arises
(30_encoding.md R101, R104 to R107, R113). -/
def Statement (i : Instr) : Prop :=
  wellFormed i = true → ∀ ph, arisesAt i ph = true → decode ph (encode i) = .ok i

theorem i2cStop (da st rw bf : Bool) : Statement (.i2cStop da st rw bf) := by
  intro _ ph _
  simp [decode, encode, decodeEvent]

theorem i2cWaddr (st bf : Bool) : Statement (.i2cWaddr st bf) := by
  intro _ ph _
  simp [decode, encode, decodeEvent]

theorem i2cAhi (st bf : Bool) : Statement (.i2cAhi st bf) := by
  intro _ ph h
  have h1 : phaseInt ph = -1 := by simpa [arisesAt] using h
  have hp : ph = .address := phaseInt_injective h1
  subst hp
  simp [decode, encode, decodeEvent, nextPhase]

theorem i2cAlo (st bf : Bool) : Statement (.i2cAlo st bf) := by
  intro _ ph h
  have h1 : phaseInt ph = 0 := by simpa [arisesAt] using h
  have hp : ph = .data 0 := phaseInt_injective h1
  subst hp
  simp [decode, encode, decodeEvent, nextPhase, satInc]

theorem i2cWdata (st bf : Bool) : Statement (.i2cWdata st bf) := by
  intro _ ph h
  have h1 : 1 ≤ phaseInt ph := by simpa [arisesAt] using h
  have h2 := phaseInt_nextPhase_true ph
  simp only [decode, encode, decodeEvent, statP_packStat, statRW_packStat, statDA_packStat, statS_packStat, statBF_packStat]
  cases hn : nextPhase true ph with
  | address => exact absurd hn (nextPhase_true_ne ph)
  | data i =>
    have hi : (2 : Int) ≤ (i.val : Int) := by
      have : phaseInt (.data i) = (i.val : Int) := rfl
      rw [← this, ← hn, h2]; omega
    have h3 : ¬ i.val = 0 ∧ ¬ i.val = 1 := by omega
    simp [h3]

theorem i2cRaddr (st bf : Bool) : Statement (.i2cRaddr st bf) := by
  intro _ ph _
  simp [decode, encode, decodeEvent]

theorem i2cRnext (st bf : Bool) : Statement (.i2cRnext st bf) := by
  intro _ ph _
  simp [decode, encode, decodeEvent]

theorem init (p : Nat) : Statement (.init p) := by
  intro h ph _
  have hp : p < 16 := by simpa [wellFormed, portFits] using h
  simp [decode, encode, bareCode, decodeCommand, bare, hp]

theorem flush (p : Nat) : Statement (.flush p) := by
  intro h ph _
  have hp : p < 16 := by simpa [wellFormed, portFits] using h
  simp [decode, encode, bareCode, decodeCommand, bare, hp]

theorem tick (p : Nat) : Statement (.tick p) := by
  intro h ph _
  have hp : p < 16 := by simpa [wellFormed, portFits] using h
  simp [decode, encode, bareCode, decodeCommand, bare, hp]

theorem get (p : Nat) : Statement (.get p) := by
  intro h ph _
  have hp : p < 16 := by simpa [wellFormed, portFits] using h
  simp [decode, encode, bareCode, decodeCommand, bare, hp]

theorem peek (p : Nat) : Statement (.peek p) := by
  intro h ph _
  have hp : p < 16 := by simpa [wellFormed, portFits] using h
  simp [decode, encode, bareCode, decodeCommand, bare, hp]

theorem inrdy (p : Nat) : Statement (.inrdy p) := by
  intro h ph _
  have hp : p < 16 := by simpa [wellFormed, portFits] using h
  simp [decode, encode, bareCode, decodeCommand, bare, hp]

theorem outrdy (p : Nat) : Statement (.outrdy p) := by
  intro h ph _
  have hp : p < 16 := by simpa [wellFormed, portFits] using h
  simp [decode, encode, bareCode, decodeCommand, bare, hp]

theorem getlc (p : Nat) : Statement (.getlc p) := by
  intro h ph _
  have hp : p < 16 := by simpa [wellFormed, portFits] using h
  simp [decode, encode, bareCode, decodeCommand, bare, hp]

theorem put (p : Nat) (b : Byte) : Statement (.put p b) := by
  intro h ph _
  have hp : p < 16 := by simpa [wellFormed, portFits] using h
  simp [decode, encode, bareCode, decodeCommand, bare, hp]

theorem setlc (p : Nat) (c : LineCoding) : Statement (.setlc p c) := by
  intro h ph _
  have hp : p < 16 := by simpa [wellFormed, portFits] using h
  simp [decode, encode, decodeCommand, hp]

theorem setcls (p : Nat) (dtr rts : Bool) : Statement (.setcls p dtr rts) := by
  intro h ph _
  have hp : p < 16 := by simpa [wellFormed, portFits] using h
  have h0 : ∀ d : Byte, (cmdWord 0xA p d).getLsbD 0 = d.getLsbD 0 := by
    intro d
    simp only [cmdWord, BitVec.getLsbD_append, show 0 < 8 by decide, if_true]
  have h1 : ∀ d : Byte, (cmdWord 0xA p d).getLsbD 1 = d.getLsbD 1 := by
    intro d
    simp only [cmdWord, BitVec.getLsbD_append, show 1 < 8 by decide, if_true]
  simp only [decode, encode, bareCode, decodeCommand, cmdOp_cmdWord _ _ _ (show 0xA < 16 by decide) hp,
    cmdPort_cmdWord _ _ _ (show 0xA < 16 by decide) hp, h0, h1, bare]
  cases dtr <;> cases rts <;> rfl

theorem i2creset : Statement .i2creset := by
  intro _ ph _
  rfl

theorem asget (a : Addr) : Statement (.asget a) := by
  intro _ ph _
  simp [decode, encode, decodeCommand]

theorem asset (a : Addr) (v : Byte) : Statement (.asset a v) := by
  intro _ ph _
  simp [decode, encode, decodeCommand]

theorem reserved (w : BitVec 16) : Statement (.reserved w) := by
  intro h ph _
  have hw : 0xE000 ≤ w.toNat := by simpa [wellFormed, reservedWord] using h
  have hlt := w.isLt
  have ho : cmdOp w = 14 ∨ cmdOp w = 15 := by rw [cmdOp_eq]; omega
  simp only [decode, encode, decodeCommand]
  rcases ho with ho | ho <;> rw [ho] <;> rfl

end Sys2Proof.Laws.RoundTrip
end

