-- ==== Sys2Proof/Tests/Slice0.lean ====
section
/-! SUPPORT. Small tests: well-formedness, decoding of written-out words, one step of each operation against 95_test_vectors.md
and the cited rules, and for each obligation with hypotheses a state and operands that meet them. -/

namespace Sys2Proof.Tests

-- one thread per file is enough here, and keeps the memory of the check small
set_option Elab.async false

open Sys2Proof Sys2Proof.Machine

/-! ## Start states -/

/-- S0 of 95_test_vectors.md, section 0. -/
def s0 : State :=
  { State.reset with
    params := ⟨16, 3, 12000000, (List.range 1024).map (fun i => BitVec.ofNat 8 (i % 251)), .shadowOnly, true⟩
    mem := (List.range 16).map (fun i => (0x700 + i, 0x30))
    telem := [⟨true, 0x07, 0x0123⟩, ⟨false, 0x00, 0x0000⟩, ⟨true, 0xFF, 0xBEEF⟩, ⟨true, 0x01, 0x00FF⟩] }

/-- A port as `INIT` leaves it with `N = 16` (section 0, S1). -/
def port1 : Port := initPort 16 Port.reset

/-- S1 with port 0 replaced. -/
def st (q : Port) : State := { s0 with ports := [q, port1] }

/-- S0 with an event pending. -/
def ev (stat : BitVec 5) (rx : Byte) (ph : Phase) (pointer : Addr) : State :=
  { s0 with dec := { s0.dec with
      stat := stat, rxReg := rx, phaseCount := ph, pointer := pointer, shadow := 0x0410, stagedValue := 0x33, sclHeld := true }
            sched := [.dec] }

/-- The next state, if there is one. -/
def nextOf : Result → Option State
  | .next t => some t
  | _ => none

/-- One field after an operation. -/
def after {α : Type} (r : Result) (f : State → α) : Option α := (nextOf r).map f

/-- Port 0 after an operation. -/
def port0 {α : Type} (r : Result) (f : Port → α) : Option α := (nextOf r).bind (fun t => t.ports[0]?.map f)

theorem nextOf_isSome {r : Result} (h : (nextOf r).isSome = true) : ∃ t, r = .next t := by
  cases r with
  | next t => exact ⟨t, rfl⟩
  | fault f => cases h
  | refused f => cases h

/-! ## Well-formedness: an ill-formed term for each check -/

/-- A port number of 16 does not fit `cmd[11:8]` (R105), in any command that has one. -/
theorem test_ill_formed_ports :
    [Instr.init 16, .put 16 0, .flush 16, .tick 16, .get 16, .peek 16, .inrdy 16, .outrdy 16, .setlc 16 ⟨9600, .one, .none, 8⟩,
      .getlc 16, .setcls 16 true true].all (fun i => !wellFormed i) = true := by decide

/-- 0xDFFF has `op` 0xD, which is not reserved (R106, R108 (a)). -/
theorem test_ill_formed_reserved : wellFormed (.reserved 0xDFFF) = false := by decide

theorem test_well_formed_boundaries : wellFormed (.put 15 0xFF) = true ∧ wellFormed (.reserved 0xE000) = true := by decide

/-! ## Decoding of words written out from R101, R105, R106, R107 -/

/-- `DA P S RW BF`, with the `phaseCount` before the event (R104). -/
theorem test_decode_events :
    decodeEvent (.data 2) 0b11000 = .i2cStop true false false false ∧
    decodeEvent (.data 2) 0b01011 = .i2cStop false false true true ∧
    decodeEvent (.data 2) 0b00101 = .i2cWaddr true true ∧
    decodeEvent .address 0b10001 = .i2cAhi false true ∧
    decodeEvent (.data 0) 0b10100 = .i2cAlo true false ∧
    decodeEvent (.data 1) 0b10101 = .i2cWdata true true ∧
    decodeEvent (.data 127) 0b10000 = .i2cWdata false false ∧
    decodeEvent (.data 7) 0b00110 = .i2cRaddr true false ∧
    decodeEvent .address 0b10010 = .i2cRnext false false := by decide

/-- `op port data`, nibble by nibble (R105, R106). -/
theorem test_decode_commands :
    decodeCommand ⟨0b0000000100000000, []⟩ = .ok (.init 1) ∧
    decodeCommand ⟨0b0001000101010000, []⟩ = .ok (.put 1 0x50) ∧
    decodeCommand ⟨0b0010000000000000, []⟩ = .ok (.flush 0) ∧
    decodeCommand ⟨0b0011000100000000, []⟩ = .ok (.tick 1) ∧
    decodeCommand ⟨0b0100000000000000, []⟩ = .ok (.get 0) ∧
    decodeCommand ⟨0b0101111100000000, []⟩ = .ok (.peek 15) ∧
    decodeCommand ⟨0b0110000000000000, []⟩ = .ok (.inrdy 0) ∧
    decodeCommand ⟨0b0111000100000000, []⟩ = .ok (.outrdy 1) ∧
    decodeCommand ⟨0b1001000000000000, []⟩ = .ok (.getlc 0) ∧
    decodeCommand ⟨0b1010000000000010, []⟩ = .ok (.setcls 0 false true) ∧
    decodeCommand ⟨0b1011000000000000, []⟩ = .ok .i2creset ∧
    decodeCommand ⟨0b1111000000000001, []⟩ = .ok (.reserved 0xF001) := by decide

/-- The commands with payload (R107): V-LC-1, V-LC-4, V-MEM-20. -/
theorem test_decode_payloads :
    decodeCommand ⟨0x8000, [0x80, 0x25, 0, 0, 0, 0, 8]⟩ = .ok (.setlc 0 ⟨9600, .one, .none, 8⟩) ∧
    decodeCommand ⟨0x8100, [0x00, 0x4B, 0, 0, 2, 2, 7]⟩ = .ok (.setlc 1 ⟨19200, .two, .even, 7⟩) ∧
    decodeCommand ⟨0xC000, [0x06, 0x22]⟩ = .ok (.asget 0x0622) ∧
    decodeCommand ⟨0xD099, [0x00, 0x10]⟩ = .ok (.asset 0x0010 0x99) := by decide +kernel

/-- What the decoder turns away (R106, R108 (d)). -/
theorem test_decode_refuses :
    decodeCommand ⟨0x1050, [0]⟩ = .error .payloadLength ∧
    decodeCommand ⟨0xC000, [0]⟩ = .error .payloadLength ∧
    decodeCommand ⟨0x8000, [0x80, 0x25, 0, 0, 3, 0, 8]⟩ = .error .stopBitsCode ∧
    decodeCommand ⟨0x8000, [0x80, 0x25, 0, 0, 2, 5, 8]⟩ = .error .parityCode := by decide +kernel

/-- The numbering of spec/opcode_table.json: match words of a few rows. -/
theorem test_table_words :
    decodeTableWord 5 0x08 = some (.i2cStop false false false false) ∧
    decodeTableWord 8 0x10 = some (.i2cAhi false false) ∧
    decodeTableWord 16 0x1000 = some (.put 0 0) ∧
    decodeTableWord 16 0x8000 = some (.setlc 0 ⟨0, .one, .none, 0⟩) ∧
    decodeTableWord 16 0xE000 = some (.reserved 0xE000) := by decide +kernel

/-- A placed word is fetched by the very next step, from power-on: `I2CRESET` completes, `PUT` on a port that was never
initialised is refused (R108 (c)). -/
theorem test_placed_words :
    (nextOf (step (State.reset.withFetchWord 16 0xB000))).isSome = true ∧
    (nextOf (step (State.reset.withFetchWord 8 0x05))).isSome = true ∧
    nextOf (step (State.reset.withFetchWord 16 0x1050)) = none := by decide +kernel

/-! ## One step of each operation -/

/-- V-DEC-4 (b), (c). -/
theorem test_i2cStop :
    after (exec (.i2cStop true false true false) (ev 0x1A 0 .address 0x0412)) (fun t => (t.dec.phaseCount, t.dec.pointer)) =
      some (.data 0, 0x0412) ∧
    after (exec (.i2cStop false false false true) (ev 0x09 0x77 (.data 3) 0x0412))
        (fun t => (t.dec.phaseCount, t.dec.stagedValue, t.dec.sclHeld)) = some (.address, 0x77, false) := by decide +kernel

/-- V-DEC-1 step 1, and V-DEC-12 word 0x00 (no capture). -/
theorem test_i2cWaddr :
    after (exec (.i2cWaddr true true) (ev 0x05 0xA2 (.data 4) 0)) (fun t => (t.dec.phaseCount, t.dec.stagedValue, rxFull t.dec)) =
      some (.address, 0xA2, false) ∧
    after (exec (.i2cWaddr false false) (ev 0x00 0xA2 (.data 5) 0x0410)) (fun t => t.dec.stagedValue) = some 0x33 := by
  decide +kernel

/-- V-DEC-6, under both policies: `shadow` 0x0410 takes the high byte 0x07. -/
theorem test_i2cAhi :
    after (exec (.i2cAhi true true) (ev 0x15 0x07 .address 0x0411)) (fun t => (t.dec.shadow, t.dec.pointer)) =
      some (0x0710, 0x0411) ∧
    after (exec (.i2cAhi true true)
        { ev 0x15 0x07 .address 0x0411 with params := { s0.params with commitPolicy := .pointerFromShadow } })
        (fun t => (t.dec.shadow, t.dec.pointer)) = some (0x0710, 0x0710) := by decide +kernel

/-- V-DEC-13, the NACK hazard: the stale byte goes to the low half and the pointer. -/
theorem test_i2cAlo :
    after (exec (.i2cAlo true false) (ev 0x14 0 (.data 0) 0x0412)) (fun t => (t.dec.shadow, t.dec.pointer, t.dec.phaseCount)) =
      some (0x0433, 0x0433, .data 1) := by decide +kernel

/-- V-DEC-12 (word 0x11) and V-DEC-8 (`REENUM` at 0x070F). -/
theorem test_i2cWdata :
    after (exec (.i2cWdata false true) (ev 0x11 0x44 (.data 5) 0x0410)) (fun t => (asGet t 0x0410, t.dec.pointer, t.dec.phaseCount)) =
      some (0x44, 0x0411, .data 6) ∧
    after (exec (.i2cWdata true true) (ev 0x15 0x42 (.data 127) 0x070F)) (fun t => (t.trace, t.dec.phaseCount)) =
      some ([.reenum], .data 127) := by decide +kernel

/-- V-DEC-5: the pointer wraps. -/
theorem test_i2cRaddr :
    after (exec (.i2cRaddr true true) (ev 0x07 0xA3 (.data 1) 0xFFFF)) (fun t => (t.dec.txReg, t.dec.pointer, t.dec.stagedValue)) =
      some (0xFF, 0x0000, 0xA3) := by decide +kernel

/-- V-DEC-5 second event, V-DEC-12 word 0x17. -/
theorem test_i2cRnext :
    after (exec (.i2cRnext true false) (ev 0x16 0 .address 0x0010)) (fun t => (t.dec.txReg, t.dec.pointer, t.dec.phaseCount)) =
      some (0x10, 0x0011, .data 0) ∧
    after (exec (.i2cRnext true true) (ev 0x17 0x66 (.data 5) 0x0600)) (fun t => (t.dec.stagedValue, t.dec.txReg)) =
      some (0x66, 0x01) := by decide +kernel

/-- S1, section 0; V-LC-6. -/
theorem test_init :
    after (exec (.init 0) s0) (fun t => t.trace) = some [.armOut 0 true false] ∧
    port0 (exec (.init 0) s0) (fun q => (q.inDesc, q.outDesc, q.activeInIsA, q.lineCoding)) =
      some (⟨false, false, 0, true⟩, ⟨true, true, 16, false⟩, true, ⟨115200, .one, .none, 8⟩) ∧
    nextOf (exec (.init 0) (st port1)) = none := by decide +kernel

/-- V-IN-1 (first byte) and V-IN-2 (the 16th). -/
theorem test_put :
    port0 (exec (.put 0 0x50) (st port1)) (fun q => (q.inBuf.a, q.inLen)) = some ([(0, 0x50)], 1) ∧
    after (exec (.put 0 0x50) (st { port1 with inLen := 15 })) (fun t => t.trace) = some [.submitIn 0 true 16 false] := by
  decide +kernel

/-- V-IN-1 and the hold of V-IN-2. -/
theorem test_flush :
    after (exec (.flush 0) (st { port1 with inLen := 4 })) (fun t => t.trace) = some [.submitIn 0 true 4 false] ∧
    after (exec (.flush 0) (st { port1 with zlpPending := true, inDesc := ⟨true, true, 16, false⟩, activeInIsA := false }))
      (fun t => t.appHold) = some (some (.flushHandoff 0)) := by decide +kernel

/-- V-IN-6 and V-IN-9. -/
theorem test_tick :
    after (exec (.tick 0) (st { port1 with inLen := 1, timeoutCounter := 2 })) (fun t => t.trace) =
      some [.submitIn 0 true 1 false] ∧
    port0 (exec (.tick 0) (st { port1 with zlpPending := true, timeoutCounter := 2, inDesc := ⟨true, true, 16, false⟩ }))
      (fun q => (q.timeoutCounter, q.inWait)) = some (3, some ⟨0, .flush⟩) := by decide +kernel

/-- V-OUT-1, and the hold of V-OUT-2. -/
theorem test_get :
    after (exec (.get 0) (st { port1 with outBuf := ⟨[(0, 0x61), (1, 0x62)], []⟩, outDesc := ⟨false, true, 2, false⟩ }))
      (fun t => t.trace) = some [.armOut 0 false true, .ret (.byte 0x61)] ∧
    after (exec (.get 0) (st { port1 with outDesc := ⟨false, true, 0, false⟩ })) (fun t => (t.trace, t.appHold)) =
      some ([.armOut 0 false true], some (.getSwap 0)) := by decide +kernel

/-- V-OUT-3. -/
theorem test_peek :
    after (exec (.peek 0) (st port1)) (fun t => t.trace) = some [.ret (.peek none)] ∧
    after (exec (.peek 0) (st { port1 with outBuf := ⟨[], [(0, 0x7A)]⟩, outDesc := ⟨false, false, 1, true⟩ })) (fun t => t.trace) =
      some [.armOut 0 true false, .ret (.peek (some 0x7A))] := by decide +kernel

/-- V-IN-10 and V-OUT-4. -/
theorem test_ready :
    after (exec (.inrdy 0) (st port1)) (fun t => t.trace) = some [.ret (.bool true)] ∧
    after (exec (.outrdy 0) (st port1)) (fun t => t.trace) = some [.ret (.bool false)] := by decide +kernel

/-- V-LC-1, V-LC-2 (a rate of 25000000 is refused). -/
theorem test_setlc :
    after (exec (.setlc 0 ⟨9600, .one, .none, 8⟩) (st port1)) (fun t => t.trace) = some [.divisor 0 0x04E1] ∧
    nextOf (exec (.setlc 0 ⟨25000000, .one, .none, 8⟩) (st port1)) = none := by decide +kernel

/-- V-LC-2, the divisors. -/
theorem test_divisors :
    [115200, 57600, 38400, 19200, 1200, 300, 150, 7000000, 9000000, 12000000, 20000000, 24000000, 25000000].map
      (divisorOf 12000000) = [103, 207, 312, 624, 9999, 39999, 79999, 1, 0, 0, 0, 0, -1] := by decide +kernel

/-- V-LC-3. -/
theorem test_getlc :
    after (exec (.getlc 1) (st port1)) (fun t => t.trace) = some [.ret (.coding [0x00, 0xC2, 0x01, 0x00, 0x00, 0x00, 0x08])] := by
  decide +kernel

/-- V-LC-5. -/
theorem test_setcls : port0 (exec (.setcls 0 true false) (st port1)) (fun q => q.controlLine) = some ⟨true, false⟩ := by
  decide +kernel

/-- V-EX-1. -/
theorem test_i2creset :
    after (exec .i2creset { s0 with dec := { s0.dec with rxOvfLatch := true, wcolLatch := true, pointer := 0x0400 } })
      (fun t => (t.dec.rxOvfLatch, t.dec.wcolLatch, t.dec.pointer)) = some (false, false, 0x0400) := by decide +kernel

/-- V-MEM-1 to V-MEM-19. -/
theorem test_asget :
    [0x0000, 0x03FF, 0x0400, 0x04FF, 0x0500, 0x05FF, 0x0600, 0x0601, 0x0610, 0x0612, 0x0622, 0x0632, 0x0604, 0x0640, 0x06F3, 0x06F7,
        0x06FF, 0x0700, 0x070F, 0x0710, 0x0800, 0x0802, 0x0803, 0x0900, 0x0901, 0xFFFF].map (asGet s0) =
      [0x00, 0x13, 0x00, 0x00, 0xFF, 0xFF, 0x01, 0x00, 0x07, 0xFF, 0xEF, 0xBE, 0xFD, 0xFE, 0xFE, 0xFD, 0xFD, 0x30, 0x30, 0xFF, 0x00,
        0x00, 0xFF, 0xFF, 0xFF, 0xFF] := by decide +kernel

/-- V-MEM-20, V-MEM-21, V-MEM-24: discarded, stored, `REENUM`. -/
theorem test_asset :
    after (exec (.asset 0x0010 0x99) s0) (fun t => asGet t 0x0010) = some 0x10 ∧
    after (exec (.asset 0x0450 0x77) s0) (fun t => (asGet t 0x0450, t.trace)) = some (0x77, []) ∧
    after (exec (.asset 0x070F 0x30) s0) (fun t => (t.mem, t.trace)) = some (s0.mem, [.reenum]) := by decide +kernel

/-- V-LC-6. -/
theorem test_reserved : nextOf (exec (.reserved 0xE000) (st port1)) = none := by decide +kernel

/-- The zero written back is not listed: the form stays canonical. -/
theorem test_memory_form :
    memWrite (memWrite [] 0x0450 0x77) 0x0450 0x00 = [] ∧ Memory.wf s0.mem = true := by decide +kernel

/-! ## Witnesses: for each obligation with hypotheses, a state and operands that meet them, clause by clause -/

theorem test_witness_DecodeEncodeRoundTrip :
    (wellFormed (.i2cWdata true true) = true ∧ arisesAt (.i2cWdata true true) (.data 127) = true) ∧
    (wellFormed (.i2cAhi true true) = true ∧ arisesAt (.i2cAhi true true) .address = true) ∧
    (wellFormed (.put 15 0xFF) = true ∧ arisesAt (.put 15 0xFF) (.data 0) = true) := by decide

theorem test_witness_DecodedOperationFits :
    decode (.data 127) (.evt 0b10000) = .ok (.i2cWdata false false) ∧ decode .address (.cmd ⟨0xFFFF, []⟩) = .ok (.reserved 0xFFFF) := by
  decide

/-- The phase of each clause of EventClassesByStatusBits, the counting ones at both ends. -/
theorem test_witness_EventClassesByStatusBits :
    phaseInt .address = -1 ∧ phaseInt (.data 0) = 0 ∧ 1 ≤ phaseInt (.data 1) ∧ 1 ≤ phaseInt (.data 127) := by decide

theorem test_witness_IgnoredFieldsChangeNothing :
    (cmdOp 0x0000 = cmdOp 0x00FF ∧ cmdOp 0x0000 = 0 ∧ cmdPort 0x0000 = cmdPort 0x00FF) ∧
    (cmdOp 0x2F00 = cmdOp 0x2FFF ∧ cmdOp 0x2F00 = 2 ∧ cmdPort 0x2F00 = cmdPort 0x2FFF) ∧
    (cmdOp 0x9000 = cmdOp 0x9001 ∧ cmdOp 0x9000 = 9 ∧ cmdPort 0x9000 = cmdPort 0x9001) ∧
    (cmdOp 0xA003 = cmdOp 0xA0FF ∧ cmdOp 0xA003 = 10 ∧ cmdPort 0xA003 = cmdPort 0xA0FF ∧
      (0xA003 : BitVec 16).getLsbD 0 = (0xA0FF : BitVec 16).getLsbD 0 ∧
      (0xA003 : BitVec 16).getLsbD 1 = (0xA0FF : BitVec 16).getLsbD 1) ∧
    (cmdOp 0xB000 = cmdOp 0xBFFF ∧ cmdOp 0xB000 = 11) ∧ (cmdOp 0xC000 = cmdOp 0xCFFF ∧ cmdOp 0xC000 = 12) ∧
    (cmdOp 0xD077 = cmdOp 0xDF77 ∧ cmdOp 0xD077 = 13 ∧ cmdData 0xD077 = cmdData 0xDF77) := by decide

/-- S1 with a program of one command. -/
def prog (c : Cmd) : State := { st port1 with sched := [.app], appProg := [c] }

theorem test_witness_StepRunsDecodedOperation :
    ((prog ⟨0x1050, []⟩).sched = .app :: [] ∧ (prog ⟨0x1050, []⟩).appHold = none ∧
      (prog ⟨0x1050, []⟩).appProg = ⟨0x1050, []⟩ :: [] ∧ decodeCommand ⟨0x1050, []⟩ = .ok (.put 0 0x50)) ∧
    ((st port1).tickHold = none ∧ decodeCommand ⟨0x3100, []⟩ = .ok (.tick 1)) ∧
    ((ev 0x05 0xA2 .address 0).sched = .dec :: [] ∧ (ev 0x05 0xA2 .address 0).dec.sclHeld = true) ∧
    ([.putEntry 0 0x50, .flushEntry 0, .getSwap 0].all (fun h =>
      let s := { st port1 with sched := [.app], appHold := some h }
      decide (s.sched = .app :: [] ∧ s.appHold = some h ∧ (nextOf (step s)).isSome = true)) = true) := by decide +kernel

/-- Clause by clause; the second on a tick word is the third. -/
theorem test_witness_PlacedWordIsRun :
    (0 < 32 ∧ 31 < 32) ∧ decodeTableWord 16 0x1050 = some (.put 0 0x50) ∧ decodeTableWord 16 0x3000 = some (.tick 0) := by
  decide +kernel

/-- A port whose IN descriptor the hardware owns. -/
def busy : Port := { port1 with inDesc := ⟨true, true, 16, false⟩, activeInIsA := false, zlpPending := true }

/-- A full buffer of a `PUT` at its hand-off hold. -/
def putWaits : Port := { busy with inLen := 16, inWait := some ⟨16, .put⟩ }

/-- A flush at its hand-off hold. -/
def flushWaits : Port := { busy with inLen := 1, inWait := some ⟨1, .flush⟩, flushInProgress := true }

theorem test_witness_HoldStandsUntilHardwareLifts :
    (let s := { st flushWaits with sched := [.tick ⟨0x3100, []⟩], tickHold := some 0 };
      s.sched = .tick ⟨0x3100, []⟩ :: [] ∧ s.tickHold = some 0) ∧
    (let s := { st putWaits with sched := [.app], appHold := some (.putHandoff 0) };
      s.sched = .app :: [] ∧ s.ports[0]? = some putWaits ∧ putWaits.inited = true ∧ putWaits.inDesc.owned = true ∧
        s.appHold = some (.putHandoff 0)) ∧
    (let s := { st flushWaits with sched := [.app], appHold := some (.flushHandoff 0) };
      s.ports[0]? = some flushWaits ∧ flushWaits.inited = true ∧ flushWaits.inDesc.owned = true ∧
        s.appHold = some (.flushHandoff 0)) ∧
    (let s := { st flushWaits with sched := [.tickResume], tickHold := some 0 };
      s.sched = .tickResume :: [] ∧ s.ports[0]? = some flushWaits ∧ s.tickHold = some 0) ∧
    (let s := { st port1 with sched := [.app], appHold := some (.getSwap 0) };
      s.sched = .app :: [] ∧ s.ports[0]? = some port1 ∧ port1.inited = true ∧ port1.outLen = 0 ∧ port1.outDesc.owned = true ∧
        s.appHold = some (.getSwap 0)) ∧
    ([.putEntry 0 0x50, .flushEntry 0].all (fun h =>
      let s := { st flushWaits with sched := [.app], appHold := some h }
      decide (s.sched = .app :: [] ∧ s.ports[0]? = some flushWaits ∧ flushWaits.inited = true ∧ flushWaits.inWait ≠ none ∧
        s.appHold = some h)) = true) := by decide +kernel

theorem test_witness_PhaseCountSaturates : phaseInt (.data 126) < 127 ∧ ¬ phaseInt (.data 127) < 127 := by decide

/-- The hypotheses of DecStepIsNormativeHandler and of EveryEventCompletes. -/
theorem test_witness_DecStepIsNormativeHandler :
    (ev 0x1F 0x66 (.data 127) 0x0410).sched = .dec :: [] ∧ (ev 0x1F 0x66 (.data 127) 0x0410).dec.sclHeld = true := by decide +kernel

/-- Steps that move `pointer` (an `ALO`, a `WDATA`, a read turn) and one that moves `shadow` (an `AHI`). -/
theorem test_witness_PointerAndShadowWriters :
    after (step (ev 0x15 0x11 (.data 0) 0x0410)) (fun t => decide (t.dec.pointer ≠ 0x0410)) = some true ∧
    after (step (ev 0x15 0x11 (.data 1) 0x0410)) (fun t => decide (t.dec.pointer ≠ 0x0410)) = some true ∧
    after (step (ev 0x07 0xA3 (.data 1) 0x0410)) (fun t => decide (t.dec.pointer ≠ 0x0410)) = some true ∧
    after (step (ev 0x15 0x11 .address 0x0410)) (fun t => decide (t.dec.shadow ≠ 0x0410)) = some true := by decide +kernel

theorem test_witness_WriteTransactionLaw :
    let s := { s0 with sched := i2cWrite .epMin (0x04 :: 0x10 :: [0xAA]) }
    s.dec.sclHeld = false ∧ s.sched = i2cWrite .epMin (0x04 :: 0x10 :: [0xAA]) := by decide +kernel

theorem test_witness_ReadTransactionLaw :
    let s := { s0 with sched := i2cRead .epMin (1 + 1) }
    s.dec.sclHeld = false ∧ s.sched = i2cRead .epMin (1 + 1) := by decide +kernel

theorem test_witness_AsGetByRanges : s0.params.identity.length = 1024 := by decide +kernel

theorem test_witness_TelemetryByNibbles :
    (s0.telem.length ≤ (0x04 : Byte).toNat % 16 ∧ s0.telem.length ≤ (0xFF : Byte).toNat % 16) ∧
    s0.telem[(0x32 : Byte).toNat % 16]? = some ⟨true, 0xFF, 0xBEEF⟩ ∧ (0x02 : Byte).toNat / 16 = 0 ∧ (0x12 : Byte).toNat / 16 = 1 ∧
    (0x22 : Byte).toNat / 16 = 2 ∧ (0x32 : Byte).toNat / 16 = 3 ∧ 4 ≤ (0x42 : Byte).toNat / 16 ∧ 4 ≤ (0xF2 : Byte).toNat / 16 := by
  decide +kernel

/-- The clauses of WriteDataEffect, DirectAccessEffect and ReadOnlyReadsAreInvariant meet at these addresses. -/
theorem test_witness_mutableAt :
    (mutableAt 0x0400 ∧ mutableAt 0x04FF ∧ mutableAt 0x0700 ∧ mutableAt 0x070F ∧ mutableAt 0x0800 ∧ mutableAt 0x0802) ∧
    (¬ mutableAt 0x0000 ∧ ¬ mutableAt 0x03FF ∧ ¬ mutableAt 0x0500 ∧ ¬ mutableAt 0x06FF ∧ ¬ mutableAt 0x0710 ∧ ¬ mutableAt 0x07FF ∧
      ¬ mutableAt 0x0803 ∧ ¬ mutableAt 0xFFFF) := by simp [mutableAt]

theorem test_witness_PutAppends :
    (st port1).ports[0]? = some port1 ∧ port1.inited = true ∧ port1.inWait = none ∧
      (port1.inLen + 1).toNat ≠ (st port1).params.packetSize ∧
      (({ port1 with inLen := 14 } : Port).inLen + 1).toNat ≠ (st port1).params.packetSize := by decide +kernel

theorem test_witness_PutLastByteHandsOff :
    let q := { port1 with inLen := 15 }
    (st q).ports[0]? = some q ∧ q.inited = true ∧ q.inWait = none ∧ (q.inLen + 1).toNat = (st q).params.packetSize ∧
      q.inDesc.owned = false := by decide +kernel

theorem test_witness_PutHolds :
    ((st putWaits).ports[0]? = some putWaits ∧ putWaits.inited = true ∧ putWaits.inWait ≠ none) ∧
    (let q := { busy with inLen := 15 };
      (st q).ports[0]? = some q ∧ q.inited = true ∧ q.inWait = none ∧ (q.inLen + 1).toNat = (st q).params.packetSize ∧
        q.inDesc.owned = true) := by decide +kernel

/-- Both branches: something to send, and nothing. -/
theorem test_witness_FlushCompletes :
    (st port1).ports[0]? = some port1 ∧ port1.inited = true ∧ port1.inWait = none ∧ port1.inDesc.owned = false ∧
      ({ port1 with inLen := 1 } : Port).inLen ≠ 0 ∧ ({ port1 with zlpPending := true } : Port).inDesc.owned = false := by
  decide +kernel

/-- A guard set while nothing waits is a state no run reaches (10_state.md R38); the statement holds there too. -/
theorem test_witness_GuardedFlushIsNoOp :
    let q := { port1 with flushInProgress := true, inLen := 3 }
    (st q).ports[0]? = some q ∧ q.inited = true ∧ q.inWait = none ∧ q.flushInProgress = true := by decide +kernel

theorem test_witness_FlushHolds :
    ((st flushWaits).ports[0]? = some flushWaits ∧ flushWaits.inited = true ∧ flushWaits.inWait ≠ none) ∧
    ((st busy).ports[0]? = some busy ∧ busy.inited = true ∧ busy.inWait = none ∧ busy.inDesc.owned = true ∧
      busy.flushInProgress = false ∧ busy.zlpPending = true) ∧
    ((st port1).ports[0]? = some port1 ∧ port1.inWait = none ∧ port1.flushInProgress = false ∧ port1.inLen = 0 ∧
      port1.zlpPending = false) := by decide +kernel

/-- Below the threshold (1 of 3, 2 of 3), and at it with each reason to send nothing. -/
theorem test_witness_TickCounts :
    ((st port1).ports[0]? = some port1 ∧ port1.inited = true) ∧
    ((port1.timeoutCounter + 1).toNat < s0.params.flushTicks ∧ ((1 : Byte) + 1).toNat < s0.params.flushTicks) ∧
    s0.params.flushTicks ≤ ((2 : Byte) + 1).toNat ∧ flushWaits.inWait ≠ none ∧ busy.inDesc.owned = true ∧
    ({ s0.params with tickFlushBlocks := false } : Params).tickFlushBlocks = false ∧ flushWaits.flushInProgress = true ∧
    (port1.inLen = 0 ∧ port1.zlpPending = false) := by decide +kernel

theorem test_witness_TickForcesFlush :
    (let q := { port1 with inLen := 1, timeoutCounter := 2 };
      (st q).ports[0]? = some q ∧ q.inited = true ∧ q.inWait = none ∧ q.flushInProgress = false ∧ q.inLen ≠ 0 ∧
        (st q).params.flushTicks ≤ (q.timeoutCounter + 1).toNat ∧ q.inDesc.owned = false) ∧
    (let q := { busy with timeoutCounter := 2 };
      (st q).ports[0]? = some q ∧ q.inited = true ∧ q.inWait = none ∧ q.flushInProgress = false ∧ q.zlpPending = true ∧
        (st q).params.flushTicks ≤ (q.timeoutCounter + 1).toNat ∧ q.inDesc.owned = true ∧
        (st q).params.tickFlushBlocks = true) := by decide +kernel

theorem test_witness_LiftedHandoffCompletes :
    (let q := { putWaits with inDesc := ⟨false, true, 16, false⟩ };
      let s := { st q with sched := [.app], appHold := some (.putHandoff 0) };
      s.ports[0]? = some q ∧ q.inited = true ∧ q.inWait = some ⟨16, .put⟩ ∧ q.inDesc.owned = false ∧ s.sched = .app :: [] ∧
        s.appHold = some (.putHandoff 0)) ∧
    (let q := { flushWaits with inDesc := ⟨false, true, 16, false⟩ };
      let s := { st q with sched := [.app], appHold := some (.flushHandoff 0) };
      let u := { st q with sched := [.tickResume], tickHold := some 0 };
      s.ports[0]? = some q ∧ q.inited = true ∧ q.inWait = some ⟨1, .flush⟩ ∧ q.inDesc.owned = false ∧ s.sched = .app :: [] ∧
        s.appHold = some (.flushHandoff 0) ∧ u.ports[0]? = some q ∧ u.sched = .tickResume :: [] ∧ u.tickHold = some 0) := by
  decide +kernel

/-- The hypotheses of ReadyQueriesEffect, InitEffect (second clause), SetControlLineEffect, GetLineCodingReturnsStored (first
clause). -/
theorem test_witness_ReadyQueriesEffect : (st port1).ports[0]? = some port1 ∧ port1.inited = true := by decide +kernel

/-- A tick, the tick handler from its hold, and an `INIT` over a counter that was not 0. -/
theorem test_witness_TimeoutCounterWriters :
    port0 (step { st port1 with sched := [.tick ⟨0x3000, []⟩] }) (fun q => q.timeoutCounter) = some 1 ∧
    port0 (step { st { flushWaits with inDesc := ⟨false, true, 16, false⟩, timeoutCounter := 3 } with
      sched := [.tickResume], tickHold := some 0 }) (fun q => q.timeoutCounter) = some 0 ∧
    port0 (step { st { Port.reset with timeoutCounter := 7 } with sched := [.app], appProg := [⟨0x0000, []⟩] })
      (fun q => q.timeoutCounter) = some 0 := by decide +kernel

/-- Two bytes received and one of them returned. -/
def draining : Port :=
  { port1 with outBuf := ⟨[(0, 0x61), (1, 0x62)], []⟩, outLen := 1, outCnt := 2, activeOutIsA := true,
               outDesc := ⟨true, false, 16, true⟩ }

/-- Two bytes received, none drained yet. -/
def received : Port := { port1 with outBuf := ⟨[(0, 0x61), (1, 0x62)], []⟩, outDesc := ⟨false, true, 2, false⟩ }

theorem test_witness_GetReturnsNextByte :
    (st draining).ports[0]? = some draining ∧ draining.inited = true ∧ draining.outLen ≠ 0 ∧
      cellLookup (draining.outBuf.sel draining.activeOutIsA) (draining.outCnt - draining.outLen).toNat = some 0x62 := by
  decide +kernel

theorem test_witness_GetSwapsOrHolds :
    ((st port1).ports[0]? = some port1 ∧ port1.inited = true ∧ port1.outLen = 0 ∧ port1.outDesc.owned = true) ∧
    (let q := { port1 with outDesc := ⟨false, true, 0, false⟩ };
      (st q).ports[0]? = some q ∧ q.inited = true ∧ q.outLen = 0 ∧ q.outDesc.owned = false ∧ q.outDesc.count = 0) ∧
    ((st received).ports[0]? = some received ∧ received.inited = true ∧ received.outLen = 0 ∧ received.outDesc.owned = false ∧
      received.outDesc.count ≠ 0 ∧ cellLookup (received.outBuf.sel received.outDesc.bufIsA) 0 = some 0x61) := by decide +kernel

/-- The hypotheses of each clause of PeekAnswersOnce: those of the two theorems above, and a packet of length 0. -/
theorem test_witness_PeekAnswersOnce :
    (draining.outLen ≠ 0 ∧ nextOut draining = some 0x62) ∧ (port1.outLen = 0 ∧ port1.outDesc.owned = true) ∧
    (let q := { port1 with outDesc := ⟨false, true, 0, false⟩ };
      q.outLen = 0 ∧ q.outDesc.owned = false ∧ q.outDesc.count = 0) ∧
    (received.outLen = 0 ∧ received.outDesc.owned = false ∧ received.outDesc.count ≠ 0 ∧
      cellLookup (received.outBuf.sel received.outDesc.bufIsA) 0 = some 0x61) := by decide +kernel

theorem test_witness_InitEffect :
    s0.ports[1]? = some Port.reset ∧ Port.reset.inited = false ∧ (st port1).ports[0]? = some port1 ∧ port1.inited = true := by
  decide +kernel

/-- The divisor as the statement spells it. -/
def divisorSpelled (clock baud : Nat) : Int :=
  if baud > 2 * (clock % baud) then ((clock / baud : Nat) : Int) - 1 else ((clock / baud : Nat) : Int)

/-- A rate of 0; a rate with divisor 0; at a clock of 65536 Hz and of 65537 Hz the greatest divisor and the first beyond it; a
rate above twice the clock. -/
theorem test_witness_SetLineCodingEffect :
    (st port1).ports[0]? = some port1 ∧ port1.inited = true ∧ (0 : BitVec 32) = 0 ∧ (24000000 : BitVec 32) ≠ 0 ∧
    divisorSpelled s0.params.clockFreq (24000000 : BitVec 32).toNat = ((0 : BitVec 16).toNat : Int) ∧
    divisorSpelled 65536 (1 : BitVec 32).toNat = ((0xFFFF : BitVec 16).toNat : Int) ∧
    0xFFFF < divisorSpelled 65537 (1 : BitVec 32).toNat ∧
    divisorSpelled s0.params.clockFreq (24000001 : BitVec 32).toNat < 0 := by
  decide +kernel

/-- Both sides of the sign, where they meet. -/
theorem test_witness_DivisorRoundsHalfUp :
    0 < 24000000 ∧ ¬ 2 * 12000000 < 24000000 ∧ 2 * 12000000 < 24000001 := by decide

theorem test_witness_GetLineCodingReturnsStored :
    (st port1).ports[0]? = some port1 ∧ port1.inited = true ∧
      (nextOf (exec (.setlc 0 ⟨9600, .two, .space, 5⟩) (st port1))).isSome = true ∧
      port0 (step (prog ⟨0x8000, [0x80, 0x25, 0x00, 0x00, 0x02, 0x04, 0x05]⟩)) (fun q => decide (q.lineCoding ≠ port1.lineCoding)) =
        some true ∧
      port0 (step { s0 with sched := [.app], appProg := [⟨0x0000, []⟩] }) (fun q => decide (q.lineCoding ≠ Port.reset.lineCoding)) =
        some true := by decide +kernel

/-- The encoding clauses of StopEventEffect, ReadTurnEffect, ReadyQueriesEffect, GetLineCodingReturnsStored,
SetControlLineEffect and I2cResetEffect: the least and the greatest word of each; and an `INIT` that completes. -/
theorem test_witness_encoding_clauses :
    ((0x08 : BitVec 5) &&& 0x08 = 0x08 ∧ (0x1F : BitVec 5) &&& 0x08 = 0x08) ∧
    ((0x02 : BitVec 5) &&& 0x1A = 0x02 ∧ (0x07 : BitVec 5) &&& 0x1A = 0x02) ∧
    ((0x12 : BitVec 5) &&& 0x1A = 0x12 ∧ (0x17 : BitVec 5) &&& 0x1A = 0x12) ∧
    ((0x6000 : BitVec 16).toNat / 4096 = 6 ∧ (0x6FFF : BitVec 16).toNat / 4096 = 6) ∧
    ((0x7000 : BitVec 16).toNat / 4096 = 7 ∧ (0x7FFF : BitVec 16).toNat / 4096 = 7) ∧
    ((0x9000 : BitVec 16).toNat / 4096 = 9 ∧ (0x9FFF : BitVec 16).toNat / 4096 = 9) ∧
    ((0xA000 : BitVec 16).toNat / 4096 = 10 ∧ (0xAFFF : BitVec 16).toNat / 4096 = 10) ∧
    ((0xB000 : BitVec 16).toNat / 4096 = 11 ∧ (0xBFFF : BitVec 16).toNat / 4096 = 11) ∧
    (nextOf (exec (.init 1) s0)).isSome = true := by decide +kernel

theorem test_witness_RefusedCommands :
    (portOf (.get 2) = some 2 ∧ (st port1).ports.length ≤ 2) ∧
    (portOf (.put 0 0) = some 0 ∧ s0.ports[0]? = some Port.reset ∧ Port.reset.inited = false ∧ Instr.put 0 0 ≠ .init 0) ∧
    (cmdOp 0x8000 = 8 ∧ cmdOp 0x8FFF = 8 ∧ 2 < (3 : Byte).toNat ∧ (2 : Byte).toNat ≤ 2 ∧ 4 < (5 : Byte).toNat) ∧
    (let s := prog ⟨0x8000, [0, 0, 0, 0, 2, 5, 8]⟩;
      s.sched = .app :: [] ∧ s.appHold = none ∧ s.appProg = ⟨0x8000, [0, 0, 0, 0, 2, 5, 8]⟩ :: [] ∧
        decodeCommand ⟨0x8000, [0, 0, 0, 0, 2, 5, 8]⟩ = .error .parityCode) := by decide +kernel

theorem test_witness_InDoneEffect :
    let q := { busy with inBuf := ⟨[(0, 0x50), (1, 0x4F)], []⟩, inDesc := ⟨true, true, 2, false⟩ }
    let s := { st q with sched := [.hwepInDone 0] }
    s.sched = .hwepInDone 0 :: [] ∧ s.ports[0]? = some q ∧ q.inited = true ∧ q.inDesc.owned = true ∧
      [0x50, 0x4F].length = q.inDesc.count.toNat ∧
      ∀ i, i < [0x50, 0x4F].length → cellLookup (q.inBuf.sel q.inDesc.bufIsA) i = ([0x50, 0x4F] : List Byte)[i]? := by
  decide +kernel

/-- A packet of `N` bytes, the longest. -/
theorem test_witness_OutDoneEffect :
    let bytes : List Byte := List.replicate 16 0x2E
    let s := { st port1 with sched := [.hwepOutDone 0 bytes] }
    s.sched = .hwepOutDone 0 bytes :: [] ∧ s.ports[0]? = some port1 ∧ port1.inited = true ∧ port1.outDesc.owned = true ∧
      bytes.length ≤ s.params.packetSize := by decide +kernel

theorem test_witness_PeripheralStepsEffect :
    (let s := { s0 with sched := [.i2cpEvent 0x05 0xA2] }; s.sched = .i2cpEvent 0x05 0xA2 :: [] ∧ s.dec.sclHeld = false) ∧
    (let s := { ev 0 0 .address 0 with sched := [.i2cpEvent 0x05 0xA2] };
      s.sched = .i2cpEvent 0x05 0xA2 :: [] ∧ s.dec.sclHeld = true) ∧
    (let s := { s0 with sched := [.i2cpSample], dec := { s0.dec with sampleDue := true } };
      s.sched = .i2cpSample :: [] ∧ s.dec.sclHeld = false ∧ s.dec.sampleDue = true) ∧
    (let s := { s0 with sched := [.i2cpLatch .wcol] }; s.sched = .i2cpLatch .wcol :: []) ∧
    (let s := { s0 with sched := [.i2cpLatch .rxovf] }; s.sched = .i2cpLatch .rxovf :: []) ∧
    (let s := { s0 with sched := [.prodTelem 3 ⟨true, 0x08, 0x0200⟩] };
      s.sched = .prodTelem 3 ⟨true, 0x08, 0x0200⟩ :: [] ∧ 3 < s.telem.length ∧ s.telem.length ≤ 4) ∧
    (let s := { s0 with sched := [.i2cpSample] }; s.sched = .i2cpSample :: [] ∧ s.dec.sclHeld = false ∧ s.dec.sampleDue = false) ∧
    ([.prodReadPtr, .prodGet 0x0501, .prodOutput 2 0xFF].all (fun u =>
      decide (({ s0 with sched := [u] } : State).sched = u :: [])) = true) := by decide +kernel

/-- Steps that lift an ownership bit. -/
theorem test_witness_OnlyHardwareLiftsOwnership :
    (let q := { busy with inDesc := ⟨true, true, 0, false⟩ };
      q.inited = true ∧ q.inDesc.owned = true ∧
        port0 (step { st q with sched := [.hwepInDone 0] }) (fun q' => q'.inDesc.owned) = some false) ∧
    (port1.outDesc.owned = true ∧
      port0 (step { st port1 with sched := [.hwepOutDone 0 [0x61]] }) (fun q' => q'.outDesc.owned) = some false) := by
  decide +kernel

/-- The hypotheses of UnitsShareNoState and UnitsCommute: an event and a port command that both complete in one state. -/
theorem test_witness_UnitsCommute :
    isEvent (.i2cWdata true true) = true ∧ portOf (.put 0 0x50) ≠ none ∧ isEvent (.put 0 0x50) = false ∧
      (nextOf (exec (.i2cWdata true true) (st port1))).isSome = true ∧ (nextOf (exec (.put 0 0x50) (st port1))).isSome = true := by
  decide +kernel

theorem test_witness_PortsAreIndependent :
    portOf (.put 0 0x50) = some 0 ∧ (nextOf (exec (.put 0 0x50) (st port1))).isSome = true ∧ (1 : Nat) ≠ 0 ∧
      (nextOf (step (prog ⟨0x1050, []⟩))).isSome = true ∧ (1 : Nat) ≠ holdPort (.getSwap 0) := by decide +kernel

/-- The commands of each side complete on one port; the reading clauses have no other hypothesis than which command it is. -/
theorem test_witness_DirectionsAreIndependent :
    (st received).ports[0]? = some received ∧ (nextOf (exec (.put 0 0x50) (st received))).isSome = true ∧
      (nextOf (exec (.flush 0) (st received))).isSome = true ∧ (nextOf (exec (.tick 0) (st received))).isSome = true ∧
      (nextOf (exec (.inrdy 0) (st received))).isSome = true ∧ (nextOf (exec (.get 0) (st received))).isSome = true ∧
      (nextOf (exec (.peek 0) (st received))).isSome = true ∧ (nextOf (exec (.outrdy 0) (st received))).isSome = true := by
  decide +kernel

theorem test_witness_MemoryFormIsKept :
    Memory.wf s0.mem = true ∧ (nextOf (step { ev 0x15 0xAA (.data 1) 0x0410 with mem := s0.mem })).isSome = true := by
  decide +kernel

/-! ### States with the invariant -/

/-- A state with `N = 2` and port 0 given; port 1 is not initialised. -/
def small (q : Port) (sched : List Turn) (cmds : List Cmd) : State :=
  { State.reset with
    params := ⟨2, 3, 12000000, List.replicate 1024 0x00, .shadowOnly, true⟩
    telem := []
    ports := [q, Port.reset]
    sched := sched
    appProg := cmds }

/-- The invariant of such a state with no hand-off pending. -/
theorem inv_small {q : Port} (hq : PortOk 2 q) (hb : buffersOk 2 q = true) (hi : q.inited = true) (hw : q.inWait = none)
    (ht : q.timeoutCounter.toNat < 3) (sched : List Turn) (cmds : List Cmd) : Inv (small q sched cmds) := by
  have hp : ∀ (p : Nat) (q' : Port), (small q sched cmds).ports[p]? = some q' → q' = q ∨ q' = Port.reset := by
    intro p q' h
    match p, h with
    | 0, h => exact .inl (Option.some.inj h).symm
    | 1, h => exact .inr (Option.some.inj h).symm
    | _ + 2, h => cases h
  have hn : ∀ o p, ¬ waitsWith o (small q sched cmds) p := by
    rintro o p ⟨q', w, h, -, h', -⟩
    rcases hp p q' h with rfl | rfl
    · rw [hw] at h'; cases h'
    · cases h'
  refine ⟨⟨show 1 ≤ 2 by decide, show 2 ≤ 255 by decide, show 1 ≤ 3 by decide, show 3 ≤ 255 by decide, show 0 < 12000000 by decide,
      List.length_replicate ..⟩, show 0 ≤ 16 by decide, show 1 ≤ 2 by decide, rfl,
    ⟨fun h => (by cases h), fun h => (by cases h), fun h => (by cases h), fun h => (by cases h)⟩, ?_, ?_, ?_, ?_, ?_, ?_, ?_, ?_⟩
  · intro p q' h
    rcases hp p q' h with rfl | rfl
    · exact hb
    · rfl
  · intro p q' h h'
    rcases hp p q' h with rfl | rfl
    · exact hq
    · cases h'
  · intro p q' h h'
    rcases hp p q' h with rfl | rfl
    · exact hw
    · rfl
  · intro p q' h h'
    rcases hp p q' h with rfl | rfl
    · exact .inl ht
    · cases h'
  · intro p; exact ⟨fun h => (by cases h), fun h => (hn _ _ h).elim⟩
  · intro p; exact ⟨fun h => (by rcases h with h | h <;> cases h), fun h => (hn _ _ h).elim⟩
  · rintro p ⟨h, -⟩; cases h
  · intro h h'; cases h'

/-- `N = 2`: one byte waits in buffer B, a full buffer A is with the hardware, two bytes arrived and one is left. -/
def mid : Port where
  inBuf := ⟨[(0, 0x50), (1, 0x4F)], [(0, 0x4E)]⟩
  outBuf := ⟨[(0, 0x61), (1, 0x62)], []⟩
  inLen := 1
  outLen := 1
  outCnt := 2
  activeInIsA := false
  activeOutIsA := true
  timeoutCounter := 2
  zlpPending := true
  flushInProgress := false
  inWait := none
  lineCoding := ⟨115200, .one, .none, 8⟩
  controlLine := ⟨false, false⟩
  inited := true
  inDesc := ⟨true, true, 2, false⟩
  outDesc := ⟨true, false, 2, true⟩

/-- The same after the host collected the packet and the byte waiting was never put: only a zero-length packet is owed. -/
def owing : Port := { mid with inLen := 0, inDesc := ⟨false, true, 2, false⟩ }

theorem portOk_mid : PortOk 2 mid where
  inOther := rfl
  outOther := rfl
  inToggle := rfl
  outToggle := rfl
  inLenLt := by intro _; decide
  outLenLe := by decide
  outCntLe := by decide
  inCountLe := by decide
  outCountLe := by decide
  guard := by simp [mid]
  putWait := by simp [mid]
  flushWait := by simp [mid]
  zlpFull := by intro _; decide
  inWritten := by unfold writtenTo; decide
  grantedWritten := by intro _; unfold writtenTo; decide
  outWritten := by unfold writtenTo; decide
  waitingWritten := by simp [mid]

theorem portOk_owing : PortOk 2 owing where
  inOther := rfl
  outOther := rfl
  inToggle := rfl
  outToggle := rfl
  inLenLt := by intro _; decide
  outLenLe := by decide
  outCntLe := by decide
  inCountLe := by decide
  outCountLe := by decide
  guard := by simp [owing, mid]
  putWait := by simp [owing, mid]
  flushWait := by simp [owing, mid]
  zlpFull := by intro _; decide
  inWritten := by unfold writtenTo; decide
  grantedWritten := by simp [owing]
  outWritten := by unfold writtenTo; decide
  waitingWritten := by simp [owing, mid]

theorem inv_mid (sched : List Turn) (cmds : List Cmd) : Inv (small mid sched cmds) :=
  inv_small portOk_mid (by decide) rfl rfl (by decide) sched cmds

theorem inv_owing (sched : List Turn) (cmds : List Cmd) : Inv (small owing sched cmds) :=
  inv_small portOk_owing (by decide) rfl rfl (by decide) sched cmds

/-- InvariantIsKept and NoFaultUnderInvariant: a state with the invariant whose step hands a full buffer over to a hold. -/
theorem test_witness_InvariantIsKept :
    Inv (small mid [.app] [⟨0x1050, []⟩]) ∧ ∃ t, step (small mid [.app] [⟨0x1050, []⟩]) = .next t :=
  ⟨inv_mid _ _, nextOf_isSome (by decide +kernel)⟩

/-- GrantedBufferIsUntouched: both descriptors owned, a step that completes and is no `HWEP.OUTDONE`, and a `GET` that completes. -/
theorem test_witness_GrantedBufferIsUntouched :
    let s := small mid [.app] [⟨0x1050, []⟩]
    Inv s ∧ (∃ t, step s = .next t) ∧ s.ports[0]? = some mid ∧ mid.inited = true ∧ mid.inDesc.owned = true ∧
      mid.outDesc.owned = true ∧ (∃ t, exec (.get 0) s = .next t) ∧ ∀ bytes rest, s.sched ≠ .hwepOutDone 0 bytes :: rest :=
  ⟨inv_mid _ _, nextOf_isSome (by decide +kernel), rfl, rfl, rfl, rfl, nextOf_isSome (by decide +kernel), fun _ _ h => (by cases h)⟩

/-- ZeroLengthOnlyWhenOwed: a flush of a port that owes only a zero-length packet submits it. -/
theorem test_witness_ZeroLengthOnlyWhenOwed :
    let s := small owing [.app] [⟨0x2000, []⟩]
    Inv s ∧ (∃ t, step s = .next t) ∧ after (step s) (fun t => t.trace) = some (s.trace ++ [.submitIn 0 false 0 true]) :=
  ⟨inv_owing _ _, nextOf_isSome (by decide +kernel), by decide +kernel⟩

/-- A turn of `APP` that issues this command. -/
theorem appRuns_of {s : State} {rest : List Turn} {h : AppHold} {c : Cmd} {cs : List Cmd} {i : Instr} (h1 : s.sched = .app :: rest)
    (h2 : s.appHold = none) (h3 : s.appProg = c :: cs) (h4 : decodeCommand c = .ok i) : appRuns s h i :=
  ⟨⟨rest, h1⟩, .inr ⟨h2, c, cs, h3, h4⟩⟩

/-- A turn of `APP` that issues this command runs no other. -/
theorem not_appRuns_of {s : State} {h : AppHold} {c : Cmd} {cs : List Cmd} {i j : Instr} (h2 : s.appHold = none)
    (h3 : s.appProg = c :: cs) (h4 : decodeCommand c = .ok j) (hn : i ≠ j) : ¬ appRuns s h i := by
  rintro ⟨-, h5 | ⟨-, c', cs', h6, h7⟩⟩
  · rw [h2] at h5; cases h5
  · rw [h3] at h6; cases h6
    rw [h4] at h7; cases h7
    exact hn rfl

/-- InStreamIsAQueue: a step of each of its three kinds (a `PUT`, a delivery, a query). -/
theorem test_witness_InStreamIsAQueue :
    (let s := small mid [.app] [⟨0x1050, []⟩];
      Inv s ∧ (∃ t, step s = .next t) ∧ entersPut s 0 0x50 ∧ mid.inWait = none) ∧
    (let s := small mid [.hwepInDone 0] []; Inv s ∧ ∃ t, step s = .next t) ∧
    (let s := small mid [.app] [⟨0x6000, []⟩];
      Inv s ∧ (∃ t, step s = .next t) ∧ (∀ b, entersPut s 0 b → mid.inWait ≠ none) ∧
        ∀ rest, s.sched ≠ .hwepInDone 0 :: rest) ∧
    inStream mid = [some 0x50, some 0x4F, some 0x4E] ∧ (small mid [] []).ports[0]? = some mid ∧ mid.inited = true :=
  ⟨⟨inv_mid _ _, nextOf_isSome (by decide +kernel), appRuns_of rfl rfl rfl (by decide), rfl⟩,
    ⟨inv_mid _ _, nextOf_isSome (by decide +kernel)⟩,
    ⟨inv_mid _ _, nextOf_isSome (by decide +kernel),
      fun b h => absurd h (not_appRuns_of (j := .inrdy 0) rfl rfl (by decide) (by simp)), fun _ h => (by cases h)⟩,
    by decide +kernel, rfl, rfl⟩

/-- The byte that waits was taken: a `GET` finds nothing. -/
def drained : Port := { mid with outLen := 0 }

theorem portOk_drained : PortOk 2 drained :=
  { portOk_mid with outLenLe := by decide }

/-- OutStreamIsAQueue: a step of each of its four kinds (an arrival, a `GET` with nothing and one with a byte, a query). -/
theorem test_witness_OutStreamIsAQueue :
    (let s := small mid [.hwepOutDone 0 [0x63, 0x64]] []; Inv s ∧ ∃ t, step s = .next t) ∧
    (let s := small drained [.app] [⟨0x4000, []⟩];
      Inv s ∧ (∃ t, step s = .next t) ∧ entersGet s 0 ∧ outStream drained = [] ∧ s.ports[0]? = some drained ∧ drained.inited = true) ∧
    (let s := small mid [.app] [⟨0x4000, []⟩];
      Inv s ∧ (∃ t, step s = .next t) ∧ entersGet s 0 ∧ outStream mid ≠ []) ∧
    (let s := small mid [.app] [⟨0x7000, []⟩];
      Inv s ∧ (∃ t, step s = .next t) ∧ ¬ entersGet s 0 ∧ ∀ bytes rest, s.sched ≠ .hwepOutDone 0 bytes :: rest) ∧
    outStream mid = [some 0x62] ∧ (small mid [] []).ports[0]? = some mid ∧ mid.inited = true :=
  ⟨⟨inv_mid _ _, nextOf_isSome (by decide +kernel)⟩,
    ⟨inv_small portOk_drained (by decide) rfl rfl (by decide) _ _, nextOf_isSome (by decide +kernel),
      appRuns_of rfl rfl rfl (by decide), by decide +kernel, rfl, rfl⟩,
    ⟨inv_mid _ _, nextOf_isSome (by decide +kernel), appRuns_of rfl rfl rfl (by decide), by decide +kernel⟩,
    ⟨inv_mid _ _, nextOf_isSome (by decide +kernel), not_appRuns_of (j := .outrdy 0) rfl rfl (by decide) (by simp),
      fun _ _ h => (by cases h)⟩,
    by decide +kernel, rfl, rfl⟩

end Sys2Proof.Tests
end

section
/-! The address space read by ranges (20_memory.md R62). -/

namespace Sys2Proof.Machine

/-- `AS_get` as one chain of tests on the address, in every state: `regionAt_eq` decides the region, the region its accessor. -/
theorem asGet_eq_ranges (s : State) (a : Addr) :
    asGet s a =
      if a.toNat ≤ 0x03FF then s.params.identity.getD a.toNat 0
      else if 0x0400 ≤ a.toNat ∧ a.toNat ≤ 0x04FF then memRead s.mem a.toNat
      else if 0x0600 ≤ a.toNat ∧ a.toNat ≤ 0x06FF then telemetryGet s.telem (loByte a)
      else if 0x0700 ≤ a.toNat ∧ a.toNat ≤ 0x070F then memRead s.mem a.toNat
      else if 0x0800 ≤ a.toNat ∧ a.toNat ≤ 0x0802 then memRead s.mem a.toNat
      else 0xFF := by
  unfold asGet
  rw [regionAt_eq]
  split_ifs <;> rfl

/-- Settles O20: with 1024 bytes of `IDENTITY_BLOB` (R5) every Identity address is an index of it, so the default of the
model's list lookup is never read; the other ranges are those of `asGet_eq_ranges`. -/
theorem asGetByRanges : Obligations.AsGetByRanges := by
  unfold Obligations.AsGetByRanges
  intro s a hlen
  rw [asGet_eq_ranges]
  by_cases hid : a.toNat ≤ 0x03FF
  · have hlt : a.toNat < s.params.identity.length := by omega
    rw [if_pos hid, dif_pos ⟨hid, hlt⟩, List.getD_eq_getElem _ _ hlt]
  · rw [if_neg hid, dif_neg (fun h => hid h.1)]

end Sys2Proof.Machine
end

section
/-! Unit DEC (40_i2c_decoder.md): what a status word decodes to, each class of byte event against the normative handler of R151,
and which steps move `pointer` and `shadow`. -/

namespace Sys2Proof.Machine

/-! ## The class of a status word -/

/-- With `P` set the event is a Stop, whatever the other bits say (30_encoding.md R104). -/
theorem decodeEvent_of_stop {w : BitVec 5} (hp : statP w = true) (ph : Phase) :
    decodeEvent ph w = .i2cStop (statDA w) (statS w) (statRW w) (statBF w) := by
  simp [decodeEvent, hp]

theorem decodeEvent_of_readAddress {w : BitVec 5} (hp : statP w = false) (hr : statRW w = true) (hd : statDA w = false)
    (ph : Phase) : decodeEvent ph w = .i2cRaddr (statS w) (statBF w) := by
  simp [decodeEvent, hp, hr, hd]

theorem decodeEvent_of_readNext {w : BitVec 5} (hp : statP w = false) (hr : statRW w = true) (hd : statDA w = true)
    (ph : Phase) : decodeEvent ph w = .i2cRnext (statS w) (statBF w) := by
  simp [decodeEvent, hp, hr, hd]

theorem decodeEvent_of_writeAddress {w : BitVec 5} (hp : statP w = false) (hr : statRW w = false) (hd : statDA w = false)
    (ph : Phase) : decodeEvent ph w = .i2cWaddr (statS w) (statBF w) := by
  simp [decodeEvent, hp, hr, hd]

/-- A data byte of a write turn: its class is the updated index (R104, R113). -/
theorem decodeEvent_of_writeData {w : BitVec 5} (hp : statP w = false) (hr : statRW w = false) (hd : statDA w = true)
    {ph : Phase} {i : Fin 128} (hi : nextPhase true ph = .data i) :
    decodeEvent ph w =
      if i.val = 0 then .i2cAhi (statS w) (statBF w)
      else if i.val = 1 then .i2cAlo (statS w) (statBF w)
      else .i2cWdata (statS w) (statBF w) := by
  simp [decodeEvent, hp, hr, hd, hi]

/-- The mask and match of `I2C.STOP` say that `P` is set. -/
theorem statP_of_mask {w : BitVec 5} (h : w &&& 0x08 = 0x08) : statP w = true := by
  revert w; decide

/-- The mask and match of `I2C.RADDR` fix `DA`, `P` and `RW`. -/
theorem stat_of_readAddress_mask {w : BitVec 5} (h : w &&& 0x1A = 0x02) :
    statP w = false ∧ statRW w = true ∧ statDA w = false := by
  revert w; decide

/-- The mask and match of `I2C.RNEXT` fix `DA`, `P` and `RW`. -/
theorem stat_of_readNext_mask {w : BitVec 5} (h : w &&& 0x1A = 0x12) :
    statP w = false ∧ statRW w = true ∧ statDA w = true := by
  revert w; decide

/-! ## What each class does

Each opens the event, takes the action of its class and closes the event (R134 to R140). -/

theorem exec_i2cStop (da st rw bf : Bool) (s : State) :
    exec (.i2cStop da st rw bf) s = .next (closeEvent .idle false (openEvent (nextPhase da s.dec.phaseCount) bf s)) := rfl

theorem exec_i2cWaddr (st bf : Bool) (s : State) :
    exec (.i2cWaddr st bf) s = .next (closeEvent .addrHi false (openEvent .address bf s)) := rfl

theorem exec_i2cAhi (st bf : Bool) (s : State) :
    exec (.i2cAhi st bf) s = .next (closeEvent .addrLo false (stageHigh (openEvent (.data 0) bf s))) := rfl

theorem exec_i2cAlo (st bf : Bool) (s : State) :
    exec (.i2cAlo st bf) s = .next (closeEvent .streamWrite false (commitLow (openEvent (.data 1) bf s))) := rfl

theorem exec_i2cWdata (st bf : Bool) (s : State) :
    exec (.i2cWdata st bf) s =
      .next (closeEvent .streamWrite false (writeTurn (openEvent (nextPhase true s.dec.phaseCount) bf s))) := rfl

theorem exec_i2cRaddr (st bf : Bool) (s : State) :
    exec (.i2cRaddr st bf) s = .next (closeEvent .streamRead true (readTurn (openEvent .address bf s))) := rfl

theorem exec_i2cRnext (st bf : Bool) (s : State) :
    exec (.i2cRnext st bf) s =
      .next (closeEvent .streamRead true (readTurn (openEvent (nextPhase true s.dec.phaseCount) bf s))) := rfl

/-! ## What opens and closes an event -/

theorem openEvent_phaseCount (ph : Phase) (bf : Bool) (s : State) : (openEvent ph bf s).dec.phaseCount = ph := rfl

/-- An event that only opens and closes leaves DEC as `afterEvent` says and nothing else changed (R131, R132, R142). -/
theorem closeEvent_openEvent (ph : Phase) (bf : Bool) (label : BusPhase) (due : Bool) (s : State) :
    closeEvent label due (openEvent ph bf s) = { s with dec := afterEvent ph bf label due s.dec } := rfl

/-- A read turn between opening and closing reads at the pointer of the state before the event (R139, R140). -/
theorem closeEvent_readTurn_openEvent (ph : Phase) (bf : Bool) (label : BusPhase) (due : Bool) (s : State) :
    closeEvent label due (readTurn (openEvent ph bf s)) =
      { s with dec := { afterEvent ph bf label due s.dec with
          txReg := asGet s s.dec.pointer
          pointer := s.dec.pointer + 1 } } := by
  have hread : asGet (openEvent ph bf s) s.dec.pointer = asGet s s.dec.pointer := asGet_congr rfl rfl rfl _
  unfold closeEvent readTurn
  rw [show (openEvent ph bf s).dec.pointer = s.dec.pointer from rfl, hread]
  rfl

/-- The phase update as the statements write it: an address byte resets the count (R131). -/
theorem nextPhase_eq_ite (da : Bool) (ph : Phase) :
    nextPhase da ph = if da then nextPhase true ph else .address := by
  cases da <;> rfl

/-- Settles O10: the mask fixes `P`, and the class is phase update, capture and release alone. -/
theorem stopEventEffect : Obligations.StopEventEffect := by
  unfold Obligations.StopEventEffect
  refine ⟨fun ph w hw => decodeEvent_of_stop (statP_of_mask hw) ph, fun s da st rw bf => ?_⟩
  rw [exec_i2cStop, closeEvent_openEvent, nextPhase_eq_ite]

/-- Settles O13: the masks fix `P`, `RW` and `DA`; both classes are one read turn between opening and closing the event. -/
theorem readTurnEffect : Obligations.ReadTurnEffect := by
  unfold Obligations.ReadTurnEffect
  refine ⟨fun ph w => ⟨fun hw => ?_, fun hw => ?_⟩, fun s st bf => ⟨?_, ?_⟩⟩
  · obtain ⟨hp, hr, hd⟩ := stat_of_readAddress_mask hw
    exact decodeEvent_of_readAddress hp hr hd ph
  · obtain ⟨hp, hr, hd⟩ := stat_of_readNext_mask hw
    exact decodeEvent_of_readNext hp hr hd ph
  · rw [exec_i2cRaddr, closeEvent_readTurn_openEvent]
  · rw [exec_i2cRnext, closeEvent_readTurn_openEvent]

/-! ## The normative handler

Step 3 of R151, case by case, is the shared operation that the meaning of one class uses; so the handler, opened and closed as
every event is, is the meaning of the decoded class. -/

theorem handlerDispatch_read (s : State) : handlerDispatch true s = readTurn s := rfl

theorem handlerDispatch_address {s : State} (h : s.dec.phaseCount = .address) : handlerDispatch false s = s := by
  simp [handlerDispatch, h, phaseInt]

/-- The first address byte; the policies differ in `pointer` alone (R136, decision D4). -/
theorem handlerDispatch_first {s : State} (h : s.dec.phaseCount = .data 0) : handlerDispatch false s = stageHigh s := by
  have h0 : phaseInt s.dec.phaseCount = 0 := by rw [h]; rfl
  cases hc : s.params.commitPolicy <;> simp [handlerDispatch, stageHigh, h0, hc]

theorem handlerDispatch_second {s : State} (h : s.dec.phaseCount = .data 1) : handlerDispatch false s = commitLow s := by
  have h1 : phaseInt s.dec.phaseCount = 1 := by rw [h]; rfl
  simp [handlerDispatch, commitLow, h1]

theorem handlerDispatch_stream {s : State} (h : 2 ≤ phaseInt s.dec.phaseCount) :
    handlerDispatch false s = writeTurn s := by
  have h0 : phaseInt s.dec.phaseCount ≠ 0 := by omega
  have h1 : phaseInt s.dec.phaseCount ≠ 1 := by omega
  simp [handlerDispatch, writeTurn, h, h0, h1]

/-- After the second address byte the label is that of the written stream (R148). -/
theorem handlerLabel_stream {ph : Phase} (h : 1 ≤ phaseInt ph) : handlerLabel false false ph = .streamWrite := by
  have ha : phaseInt ph ≠ -1 := by omega
  have h0 : phaseInt ph ≠ 0 := by omega
  simp [handlerLabel, ha, h0]

/-- Dispatch leaves the phase count, which the label of the event is read from. -/
theorem handlerDispatch_phaseCount (rw : Bool) (s : State) :
    (handlerDispatch rw s).dec.phaseCount = s.dec.phaseCount := by
  unfold handlerDispatch
  split_ifs <;> simp

/-- The handler with a Stop present opens and closes the event. -/
theorem decHandler_of_stop {s : State} (hp : statP s.dec.stat = true) :
    decHandler s =
      closeEvent .idle false (openEvent (nextPhase (statDA s.dec.stat) s.dec.phaseCount) (statBF s.dec.stat) s) := by
  rw [nextPhase_eq_ite]
  cases hb : statBF s.dec.stat <;> simp [decHandler, handlerLabel, closeEvent, openEvent, hp, hb]

/-- The handler without a Stop opens the event, dispatches and closes it with the label of the new phase count. -/
theorem decHandler_of_dispatch {s o : State} (hp : statP s.dec.stat = false)
    (ho : o = openEvent (nextPhase (statDA s.dec.stat) s.dec.phaseCount) (statBF s.dec.stat) s) :
    decHandler s =
      closeEvent (handlerLabel false (statRW s.dec.stat) o.dec.phaseCount) (statRW s.dec.stat)
        (handlerDispatch (statRW s.dec.stat) o) := by
  subst ho
  rw [← handlerDispatch_phaseCount (statRW s.dec.stat), nextPhase_eq_ite]
  cases hb : statBF s.dec.stat <;> simp [decHandler, closeEvent, openEvent, hp, hb]

/-- The meaning of the decoded class is the handler, in every state (R151). -/
theorem exec_decodeEvent_eq_decHandler (s : State) :
    exec (decodeEvent s.dec.phaseCount s.dec.stat) s = .next (decHandler s) := by
  cases hp : statP s.dec.stat with
  | true => rw [decodeEvent_of_stop hp, decHandler_of_stop hp, exec_i2cStop]
  | false =>
    rw [decHandler_of_dispatch hp rfl]
    cases hr : statRW s.dec.stat with
    | true =>
      rw [handlerDispatch_read]
      cases hd : statDA s.dec.stat with
      | true => rw [decodeEvent_of_readNext hp hr hd]; exact exec_i2cRnext _ _ s
      | false => rw [decodeEvent_of_readAddress hp hr hd]; exact exec_i2cRaddr _ _ s
    | false =>
      cases hd : statDA s.dec.stat with
      | false => rw [decodeEvent_of_writeAddress hp hr hd, handlerDispatch_address rfl]; exact exec_i2cWaddr _ _ s
      | true =>
        cases hi : nextPhase true s.dec.phaseCount with
        | address => exact absurd hi (nextPhase_true_ne _)
        | data i =>
          rw [decodeEvent_of_writeData hp hr hd hi]
          by_cases h0 : i = 0
          · subst h0
            rw [handlerDispatch_first rfl]
            exact exec_i2cAhi _ _ s
          by_cases h1 : i = 1
          · subst h1
            rw [handlerDispatch_second rfl]
            exact exec_i2cAlo _ _ s
          · have h2 : 2 ≤ phaseInt (.data i) := by simp only [phaseInt]; omega
            rw [if_neg (by omega), if_neg (by omega), exec_i2cWdata, hi, openEvent_phaseCount,
              handlerDispatch_stream h2, handlerLabel_stream (by omega)]

/-- A step of DEC with an event pending runs the decoded class (R130). -/
theorem step_dec_pending {s : State} {rest : List Turn} (hs : s.sched = .dec :: rest) (hh : s.dec.sclHeld = true) :
    step s = exec (decodeEvent s.dec.phaseCount s.dec.stat) { s with sched := rest } := by
  simp [step, takeTurn, hs, runTurn, turnDec, hh]

/-- Settles O15: the step runs the decoded class, and that is the handler. -/
theorem decStepIsNormativeHandler : Obligations.DecStepIsNormativeHandler := by
  unfold Obligations.DecStepIsNormativeHandler
  intro s rest hs hh
  rw [step_dec_pending hs hh]
  exact exec_decodeEvent_eq_decHandler { s with sched := rest }

/-! ## Who writes `pointer` and `shadow` -/

/-- A byte event that moves `pointer` is one of the writers of R146. -/
theorem exec_event_moves_pointer {s t : State} {i : Instr} (hi : isEvent i = true) (h : exec i s = .next t)
    (hne : t.dec.pointer ≠ s.dec.pointer) :
    ∃ st bf, i = .i2cAlo st bf ∨ i = .i2cWdata st bf ∨ i = .i2cRaddr st bf ∨ i = .i2cRnext st bf ∨
      (i = .i2cAhi st bf ∧ s.params.commitPolicy = .pointerFromShadow) := by
  cases i with
  | i2cStop _ _ _ _ => cases h; exact absurd rfl hne
  | i2cWaddr _ _ => cases h; exact absurd rfl hne
  | i2cAhi st bf =>
    cases h
    cases hc : s.params.commitPolicy with
    | shadowOnly => exact absurd (by simp [hc]) hne
    | pointerFromShadow => exact ⟨st, bf, by simp⟩
  | i2cAlo st bf => exact ⟨st, bf, by simp⟩
  | i2cWdata st bf => exact ⟨st, bf, by simp⟩
  | i2cRaddr st bf => exact ⟨st, bf, by simp⟩
  | i2cRnext st bf => exact ⟨st, bf, by simp⟩
  | _ => cases hi

/-- A byte event that moves `shadow` is one of the two address bytes of a write (10_state.md R21). -/
theorem exec_event_moves_shadow {s t : State} {i : Instr} (hi : isEvent i = true) (h : exec i s = .next t)
    (hne : t.dec.shadow ≠ s.dec.shadow) : ∃ st bf, i = .i2cAhi st bf ∨ i = .i2cAlo st bf := by
  cases i with
  | i2cAhi st bf => exact ⟨st, bf, .inl rfl⟩
  | i2cAlo st bf => exact ⟨st, bf, .inr rfl⟩
  | i2cWdata st bf => cases h; exact absurd (by simp [writeTurn_eq]) hne
  | i2cStop _ _ _ _ => cases h; exact absurd rfl hne
  | i2cWaddr _ _ => cases h; exact absurd rfl hne
  | i2cRaddr _ _ => cases h; exact absurd rfl hne
  | i2cRnext _ _ => cases h; exact absurd rfl hne
  | _ => cases hi

/-- `t` has the `pointer` and the `shadow` of `s`. -/
structure SameAddress (s t : State) : Prop where
  pointer : t.dec.pointer = s.dec.pointer
  shadow : t.dec.shadow = s.dec.shadow

theorem SameAddress.of_dec {s t : State} (h : t.dec = s.dec) : SameAddress s t := ⟨by rw [h], by rw [h]⟩

/-- A settled command of a port leaves DEC alone, if the mark of its hold does. -/
theorem settle_dec {p : Nat} {mark : State → State} {s t : State} {r : PortStep} (h : settle p mark s r = .next t)
    (hm : ∀ u, (mark u).dec = u.dec) : t.dec = s.dec := by
  rcases settle_next.mp h with ⟨q, out, -, rfl⟩ | ⟨q, -, rfl⟩
  · rfl
  · exact hm _

theorem execPut_dec {p : Nat} {b : Byte} {s t : State} (h : execPut p b s = .next t) : t.dec = s.dec := by
  obtain ⟨q, -, -, h⟩ := withPort_next.mp h
  split at h
  · cases h; rfl
  split_ifs at h
  · exact settle_dec h (fun _ => rfl)
  · cases h; rfl

theorem execFlush_dec {p : Nat} {s t : State} (h : execFlush p s = .next t) : t.dec = s.dec := by
  obtain ⟨q, -, -, h⟩ := withPort_next.mp h
  split at h
  · cases h; rfl
  · exact settle_dec h (fun _ => rfl)

theorem execTick_dec {p : Nat} {s t : State} (h : execTick p s = .next t) : t.dec = s.dec := by
  obtain ⟨q, -, -, h⟩ := withPort_next.mp h
  split_ifs at h
  · exact settle_dec h (fun _ => rfl)
  · cases h; rfl

theorem execGet_dec {p : Nat} {s t : State} (h : execGet p s = .next t) : t.dec = s.dec := by
  obtain ⟨q, -, -, h⟩ := withPort_next.mp h
  split_ifs at h
  · obtain ⟨b, -, rfl⟩ := takeByte_next h; rfl
  · cases h; rfl
  · obtain ⟨b, -, rfl⟩ := takeByte_next h; rfl
  · cases h; rfl

theorem execPeek_dec {p : Nat} {s t : State} (h : execPeek p s = .next t) : t.dec = s.dec := by
  obtain ⟨q, -, -, h⟩ := withPort_next.mp h
  split_ifs at h
  · obtain ⟨tr, rfl⟩ := peekByte_next h; rfl
  · obtain ⟨tr, rfl⟩ := peekByte_next h; rfl

theorem execInit_dec {p : Nat} {s t : State} (h : execInit p s = .next t) : t.dec = s.dec := by
  unfold execInit at h
  split at h
  · cases h
  split_ifs at h
  cases h; rfl

theorem execSetlc_dec {p : Nat} {c : LineCoding} {s t : State} (h : execSetlc p c s = .next t) : t.dec = s.dec := by
  obtain ⟨q, -, -, h⟩ := withPort_next.mp h
  split_ifs at h
  cases h; rfl

/-- A command that only looks at a port or sets one field of it leaves DEC alone. -/
theorem withPort_dec {p : Nat} {s t : State} {k : Port → State} (hk : ∀ q, (k q).dec = s.dec)
    (h : withPort p s (fun q => .next (k q)) = .next t) : t.dec = s.dec := by
  obtain ⟨q, -, -, h⟩ := withPort_next.mp h
  cases h
  exact hk q

/-- No command moves `pointer` or `shadow`: only `I2CRESET` writes DEC at all, and it writes the latches. -/
theorem exec_command_sameAddress {s t : State} {i : Instr} (hi : isEvent i = false) (h : exec i s = .next t) :
    SameAddress s t := by
  cases i with
  | init p => exact .of_dec (execInit_dec h)
  | put p b => exact .of_dec (execPut_dec h)
  | flush p => exact .of_dec (execFlush_dec h)
  | tick p => exact .of_dec (execTick_dec h)
  | get p => exact .of_dec (execGet_dec h)
  | peek p => exact .of_dec (execPeek_dec h)
  | inrdy p => exact .of_dec (withPort_dec (fun _ => emit_dec _ s) h)
  | outrdy p => exact .of_dec (withPort_dec (fun _ => emit_dec _ s) h)
  | setlc p c => exact .of_dec (execSetlc_dec h)
  | getlc p => exact .of_dec (withPort_dec (fun _ => emit_dec _ s) h)
  | setcls p dtr rts => exact .of_dec (withPort_dec (fun _ => setPort_dec p _ s) h)
  | i2creset => cases h; exact ⟨rfl, rfl⟩
  | asget a => cases h; exact .of_dec (emit_dec _ s)
  | asset a v => cases h; exact .of_dec (asSet_dec a v s)
  | reserved w => cases h
  | _ => cases hi

theorem issue_sameAddress {who : Issuer} {c : Cmd} {s t : State} (h : issue who c s = .next t) : SameAddress s t := by
  obtain ⟨i, hd, -, hx⟩ := issue_next h
  exact exec_command_sameAddress (decodeCommand_isCommand hd) hx

theorem resumeApp_dec {a : AppHold} {s t : State} (h : resumeApp a s = .next t) : t.dec = s.dec := by
  cases a with
  | putEntry p b => exact execPut_dec h
  | flushEntry p => exact execFlush_dec h
  | getSwap p => exact execGet_dec h
  | putHandoff p =>
    obtain ⟨q, -, -, h⟩ := withPort_next.mp h
    exact settle_dec h (fun _ => rfl)
  | flushHandoff p =>
    obtain ⟨q, -, -, h⟩ := withPort_next.mp h
    exact settle_dec h (fun _ => rfl)

theorem turnApp_sameAddress {s t : State} (h : turnApp s = .next t) : SameAddress s t := by
  unfold turnApp at h
  split at h
  · have hd := resumeApp_dec h
    exact .of_dec hd
  · cases h; exact ⟨rfl, rfl⟩
  · obtain ⟨hp, hs⟩ := issue_sameAddress h
    exact ⟨hp, hs⟩

theorem turnTick_sameAddress {c : Cmd} {s t : State} (h : turnTick c s = .next t) : SameAddress s t := by
  unfold turnTick at h
  split at h
  · cases h; exact ⟨rfl, rfl⟩
  · exact issue_sameAddress h

theorem resumeTick_dec {p : Nat} {s t : State} (h : resumeTick p s = .next t) : t.dec = s.dec := by
  obtain ⟨q, -, -, h⟩ := withPort_next.mp h
  exact settle_dec h (fun _ => rfl)

theorem turnTickResume_dec {s t : State} (h : turnTickResume s = .next t) : t.dec = s.dec := by
  unfold turnTickResume at h
  split at h
  · cases h; rfl
  · have hd := resumeTick_dec h
    exact hd

theorem envInDone_dec {p : Nat} {s t : State} (h : envInDone p s = .next t) : t.dec = s.dec := by
  unfold envInDone at h
  split at h
  · cases h
  split_ifs at h
  split at h <;> cases h
  rfl

theorem envOutDone_dec {p : Nat} {bytes : List Byte} {s t : State} (h : envOutDone p bytes s = .next t) :
    t.dec = s.dec := by
  unfold envOutDone at h
  split at h
  · cases h
  split_ifs at h
  cases h; rfl

/-- The peripheral's own steps write other registers of DEC (46_environment.md R242, R243, R245). -/
theorem envEvent_sameAddress {st : BitVec 5} {rx : Byte} {s t : State} (h : envEvent st rx s = .next t) :
    SameAddress s t := by
  unfold envEvent at h
  split_ifs at h
  cases h; exact ⟨rfl, rfl⟩

theorem envSample_sameAddress {s t : State} (h : envSample s = .next t) : SameAddress s t := by
  unfold envSample at h
  split_ifs at h
  cases h; exact ⟨rfl, rfl⟩

theorem envTelem_dec {ch : Nat} {rec : TelemRec} {s t : State} (h : envTelem ch rec s = .next t) : t.dec = s.dec := by
  unfold envTelem at h
  split_ifs at h
  cases h; rfl

/-- Every turn but that of DEC leaves `pointer` and `shadow`. -/
theorem runTurn_sameAddress {u : Turn} (hu : u ≠ .dec) {s t : State} (h : runTurn u s = .next t) : SameAddress s t := by
  cases u with
  | app => exact turnApp_sameAddress h
  | tick c => exact turnTick_sameAddress h
  | tickResume => exact .of_dec (turnTickResume_dec h)
  | dec => exact absurd rfl hu
  | hwepInDone p => exact .of_dec (envInDone_dec h)
  | hwepOutDone p bytes => exact .of_dec (envOutDone_dec h)
  | i2cpEvent st rx => exact envEvent_sameAddress h
  | i2cpSample => exact envSample_sameAddress h
  | i2cpLatch w => cases h; exact ⟨setLatch_pointer w _, setLatch_shadow w _⟩
  | prodTelem ch rec => exact .of_dec (envTelem_dec h)
  | prodReadPtr => cases h; exact .of_dec (emit_dec _ s)
  | prodGet a => exact exec_command_sameAddress (i := .asget a) rfl h
  | prodOutput i v => exact exec_command_sameAddress (i := .asset (outputAddr i) v) rfl h

/-- Everything a step can do to `pointer` and `shadow`: nothing, or run the pending byte event (R130). -/
theorem step_sameAddress_or_event {s t : State} (h : step s = .next t) :
    SameAddress s t ∨ ∃ rest, s.sched = .dec :: rest ∧ s.dec.sclHeld = true ∧
      exec (decodeEvent s.dec.phaseCount s.dec.stat) { s with sched := rest } = .next t := by
  rcases step_next h with ⟨-, rfl⟩ | ⟨u, rest, hs, hr⟩
  · exact .inl ⟨rfl, rfl⟩
  by_cases hu : u = .dec
  · subst hu
    cases hh : s.dec.sclHeld with
    | true => exact .inr ⟨rest, hs, rfl, by rw [← step_dec_pending hs hh]; exact h⟩
    | false =>
      simp only [runTurn, turnDec, hh] at hr
      cases hr
      exact .inl ⟨rfl, rfl⟩
  · obtain ⟨hp, hsh⟩ := runTurn_sameAddress hu hr
    exact .inl ⟨hp, hsh⟩

/-- Settles O17: a step that moves either register runs the pending event, and only the named classes move it. -/
theorem pointerAndShadowWriters : Obligations.PointerAndShadowWriters := by
  unfold Obligations.PointerAndShadowWriters
  intro s t h
  rcases step_sameAddress_or_event h with hsame | ⟨rest, hs, hh, hx⟩
  · exact ⟨fun hne => absurd hsame.pointer hne, fun hne => absurd hsame.shadow hne⟩
  · have hev := decodeEvent_isEvent s.dec.phaseCount s.dec.stat
    have hpointer := exec_event_moves_pointer hev hx
    have hshadow := exec_event_moves_shadow hev hx
    exact ⟨fun hne => ⟨⟨rest, hs⟩, hh, hpointer hne⟩, fun hne => ⟨⟨rest, hs⟩, hh, hshadow hne⟩⟩

end Sys2Proof.Machine
end

section
/-! Unit FIFO, IN path (42_fifo_in.md): a flush under the guard, and the readiness queries of both paths. -/

namespace Sys2Proof.Machine

/-! ## A flush under the guard -/

/-- To emit no record changes nothing. -/
@[simp] theorem emitAll_nil (s : State) : emitAll [] s = s := by
  simp [emitAll]

/-- With no hand-off pending `FLUSH` passes its first hold, and the flush of the port decides (R173, R177). -/
theorem execFlush_of_no_wait {p : Nat} {q : Port} {s : State} (hq : s.ports[p]? = some q) (hi : q.inited = true)
    (hw : q.inWait = none) :
    execFlush p s = settle p (fun t => { t with appHold := some (.flushHandoff p) }) s (flushPort p q) := by
  rw [execFlush, withPort_of_inited hq hi]
  simp only [hw]

/-- A port step that leaves the port as it was and records nothing settles to the same state. -/
theorem settle_done_self {p : Nat} {q : Port} {s : State} (hq : s.ports[p]? = some q) (mark : State → State) :
    settle p mark s (.done q []) = .next s := by
  rw [settle, setPort_self hq, emitAll_nil]

/-- Settles O28: the flush of a guarded port is the quiet one, and putting the port back as it was changes nothing. -/
theorem guardedFlushIsNoOp : Obligations.GuardedFlushIsNoOp := by
  unfold Obligations.GuardedFlushIsNoOp
  intro s p q hq hi hw hg
  have hquiet : flushPort p q = .done q [] := flushPort_quiet (.inl hg)
  calc exec (.flush p) s
      = settle p (fun t => { t with appHold := some (.flushHandoff p) }) s (flushPort p q) :=
        execFlush_of_no_wait hq hi hw
    _ = .next s := by rw [hquiet, settle_done_self hq]

/-! ## The readiness queries -/

/-- The port field of a command word as a number (30_encoding.md R105). -/
theorem cmdPort_eq (w : BitVec 16) : cmdPort w = w.toNat / 256 % 16 := by
  rw [cmdPort, BitVec.extractLsb'_toNat, Nat.shiftRight_eq_div_pow]

theorem decodeCommand_inrdy {w : BitVec 16} (h : cmdOp w = 6) : decodeCommand ⟨w, []⟩ = .ok (.inrdy (cmdPort w)) := by
  simp [decodeCommand, h, bare]

theorem decodeCommand_outrdy {w : BitVec 16} (h : cmdOp w = 7) : decodeCommand ⟨w, []⟩ = .ok (.outrdy (cmdPort w)) := by
  simp [decodeCommand, h, bare]

/-- `INRDY` records whether the IN descriptor is free (R178). -/
theorem execInrdy_of_inited {p : Nat} {q : Port} {s : State} (hq : s.ports[p]? = some q) (hi : q.inited = true) :
    execInrdy p s = .next (emit (.ret (.bool (!q.inDesc.owned))) s) := by
  rw [execInrdy, withPort_of_inited hq hi, inReady]

/-- `OUTRDY` records whether the OUT descriptor is free (43_fifo_out.md R203). -/
theorem execOutrdy_of_inited {p : Nat} {q : Port} {s : State} (hq : s.ports[p]? = some q) (hi : q.inited = true) :
    execOutrdy p s = .next (emit (.ret (.bool (!q.outDesc.owned))) s) := by
  rw [execOutrdy, withPort_of_inited hq hi, outReady]

/-- Settles O33: the fields of the word decide the query and its port, and either query only emits its answer. -/
theorem readyQueriesEffect : Obligations.ReadyQueriesEffect := by
  unfold Obligations.ReadyQueriesEffect
  refine ⟨fun w => ?_, fun s p q hq hi => ⟨execInrdy_of_inited hq hi, execOutrdy_of_inited hq hi⟩⟩
  rw [← cmdOp_eq, ← cmdPort_eq]
  exact ⟨decodeCommand_inrdy, decodeCommand_outrdy⟩

end Sys2Proof.Machine
end

section
/-! Port control (44_port_control.md): what a port answers about its line coding, which steps change a coding, and the control
lines. -/

namespace Sys2Proof.Machine

/-! ## The command words -/

theorem decodeCommand_getlc {w : BitVec 16} (h : cmdOp w = 9) : decodeCommand ⟨w, []⟩ = .ok (.getlc (cmdPort w)) := by
  simp [decodeCommand, h, bare]

theorem decodeCommand_setcls {w : BitVec 16} (h : cmdOp w = 10) :
    decodeCommand ⟨w, []⟩ = .ok (.setcls (cmdPort w) (w.getLsbD 0) (w.getLsbD 1)) := by
  simp [decodeCommand, h, bare]

/-- The two bits of a control-line word as numbers (30_encoding.md R107 (c)). -/
theorem getLsbD_zero_eq_decide (w : BitVec 16) : w.getLsbD 0 = decide (w.toNat % 2 = 1) := by
  rw [BitVec.getLsbD, Nat.testBit_eq_decide_div_mod_eq, pow_zero, Nat.div_one]

theorem getLsbD_one_eq_decide (w : BitVec 16) : w.getLsbD 1 = decide (w.toNat / 2 % 2 = 1) := by
  rw [BitVec.getLsbD, Nat.testBit_eq_decide_div_mod_eq, pow_one]

/-! ## The control lines -/

/-- `SETCLS` replaces the control lines of the port (R223). -/
theorem execSetcls_of_inited {p : Nat} {q : Port} {dtr rts : Bool} {s : State} (hq : s.ports[p]? = some q)
    (hi : q.inited = true) : execSetcls p dtr rts s = .next (setPort p { q with controlLine := ⟨dtr, rts⟩ } s) := by
  rw [execSetcls, withPort_of_inited hq hi]

/-- Settles O42: the fields of the word are the operands, and the command replaces one field of one port. -/
theorem setControlLineEffect : Obligations.SetControlLineEffect := by
  unfold Obligations.SetControlLineEffect
  refine ⟨fun w hop => ?_, fun s p q dtr rts hq hi => execSetcls_of_inited hq hi⟩
  rw [← cmdOp_eq] at hop
  rw [← cmdPort_eq, ← getLsbD_zero_eq_decide, ← getLsbD_one_eq_decide]
  exact decodeCommand_setcls hop

/-! ## The line coding read back -/

/-- `GETLC` records the seven bytes of the stored coding (R222). -/
theorem execGetlc_of_inited {p : Nat} {q : Port} {s : State} (hq : s.ports[p]? = some q) (hi : q.inited = true) :
    execGetlc p s = .next (emit (.ret (.coding (codingBytes q.lineCoding))) s) := by
  rw [execGetlc, withPort_of_inited hq hi]

/-- A `SETLC` that completes stores the coding and emits the divisor (R221). -/
theorem execSetlc_next {p : Nat} {c : LineCoding} {s t : State} (h : execSetlc p c s = .next t) :
    ∃ q d, s.ports[p]? = some q ∧ q.inited = true ∧ t = emit (.divisor p d) (setPort p { q with lineCoding := c } s) := by
  obtain ⟨q, hq, hi, h⟩ := withPort_next.mp h
  split_ifs at h
  cases h
  exact ⟨q, _, hq, hi, rfl⟩

/-- An `INIT` that completes found a port and gave it the registers of R220. -/
theorem execInit_next {p : Nat} {s t : State} (h : execInit p s = .next t) :
    ∃ q, s.ports[p]? = some q ∧ t = emit (.armOut p true false) (setPort p (initPort s.params.packetSize q) s) := by
  unfold execInit at h
  split at h
  · cases h
  · next q hq =>
    split_ifs at h
    cases h
    exact ⟨q, hq, rfl⟩

/-- A port that was replaced is the new one, whatever was emitted after. -/
theorem getElem?_emit_setPort {p : Nat} {q q' : Port} {s : State} (hq : s.ports[p]? = some q) (r : Record) :
    (emit r (setPort p q' s)).ports[p]? = some q' := by
  rw [emit_ports, getElem?_setPort hq, if_pos rfl]

theorem execGetlc_after_setlc {p : Nat} {c : LineCoding} {s t : State} (h : execSetlc p c s = .next t) :
    execGetlc p t = .next (emit (.ret (.coding (codingBytes c))) t) := by
  obtain ⟨q, d, hq, hi, rfl⟩ := execSetlc_next h
  exact execGetlc_of_inited (getElem?_emit_setPort hq _) hi

theorem execGetlc_after_init {p : Nat} {s t : State} (h : execInit p s = .next t) :
    execGetlc p t = .next (emit (.ret (.coding (codingBytes ⟨115200, .one, .none, 8⟩))) t) := by
  obtain ⟨q, hq, rfl⟩ := execInit_next h
  exact execGetlc_of_inited (getElem?_emit_setPort hq _) rfl

/-! ## The stored codings

What a step does to the line codings is followed on the list of them, one per port. -/

/-- The stored line coding of each port (10_state.md R40). -/
def codings (s : State) : List LineCoding := s.ports.map Port.lineCoding

theorem codings_of_ports {s t : State} (h : t.ports = s.ports) : codings t = codings s := by
  rw [codings, codings, h]

/-- Replacing a port replaces its coding. -/
theorem codings_setPort (p : Nat) (q : Port) (s : State) : codings (setPort p q s) = (codings s).set p q.lineCoding :=
  List.map_set

/-- Replacing a port by one of the same coding keeps every coding. -/
theorem codings_setPort_same {p : Nat} {q q' : Port} {s : State} (hq : s.ports[p]? = some q)
    (hc : q'.lineCoding = q.lineCoding) : codings (setPort p q' s) = codings s := by
  rw [codings_setPort, hc, ← codings_setPort, setPort_self hq]

/-- If one coding was replaced, a port whose coding differs is that port, and has the new coding. -/
theorem moved_coding_of_set {p p' : Nat} {c : LineCoding} {s t : State} {q q' : Port}
    (hset : codings t = (codings s).set p' c) (hq : s.ports[p]? = some q) (hq' : t.ports[p]? = some q')
    (hne : q'.lineCoding ≠ q.lineCoding) : p' = p ∧ q'.lineCoding = c := by
  have hold : (codings s)[p]? = some q.lineCoding := by rw [codings, List.getElem?_map, hq, Option.map_some]
  have hnew : (codings t)[p]? = some q'.lineCoding := by rw [codings, List.getElem?_map, hq', Option.map_some]
  rw [hset, List.getElem?_set] at hnew
  split_ifs at hnew with hp
  · exact ⟨hp, (Option.some.inj hnew).symm⟩
  · rw [hold] at hnew
    exact absurd (Option.some.inj hnew).symm hne

/-! ## The operations of a port keep its coding -/

/-- The port that an operation of one port comes to, completed or held. -/
def PortStep.port : PortStep → Port
  | .done q _ => q
  | .held q => q

/-- A settled operation leaves every coding, if it leaves that of its port and the mark of its hold leaves the ports. -/
theorem settle_codings {p : Nat} {mark : State → State} {q : Port} {r : PortStep} {s t : State}
    (hq : s.ports[p]? = some q) (h : settle p mark s r = .next t) (hr : r.port.lineCoding = q.lineCoding)
    (hm : ∀ u, (mark u).ports = u.ports) : codings t = codings s := by
  rcases settle_next.mp h with ⟨q', out, rfl, rfl⟩ | ⟨q', rfl, rfl⟩
  · exact codings_setPort_same hq hr
  · exact (codings_of_ports (hm _)).trans (codings_setPort_same hq hr)

@[simp] theorem handoffIn_lineCoding (p : Nat) (len : Byte) (o : Origin) (q : Port) :
    (handoffIn p len o q).port.lineCoding = q.lineCoding := by
  cases ho : q.inDesc.owned with
  | true => rw [handoffIn_owned ho]; rfl
  | false => rw [handoffIn_free ho]; simp [PortStep.port]

@[simp] theorem resumeIn_lineCoding (p : Nat) (o : Origin) (q : Port) :
    (resumeIn p o q).port.lineCoding = q.lineCoding := by
  rcases resumeIn_cases p o q with ⟨-, h⟩ | ⟨-, h⟩
  · rw [h]; rfl
  · rw [h]; simp [PortStep.port]

@[simp] theorem flushPort_lineCoding (p : Nat) (q : Port) : (flushPort p q).port.lineCoding = q.lineCoding := by
  rcases flushPort_cases p q with ⟨h, -⟩ | ⟨-, -, -, h⟩ | ⟨-, -, -, h⟩
  · rw [h]; rfl
  · rw [h]; simp [PortStep.port]
  · rw [h]; rfl

@[simp] theorem resetTicks_lineCoding (r : PortStep) : (resetTicks r).port.lineCoding = r.port.lineCoding := by
  cases r <;> rfl

@[simp] theorem tickFlush_lineCoding (p : Nat) (blocks : Bool) (q : Port) :
    (tickFlush p blocks q).port.lineCoding = q.lineCoding := by
  unfold tickFlush
  split_ifs
  · simp
  · rfl

/-! ## The commands that keep every coding -/

theorem execPut_codings {p : Nat} {b : Byte} {s t : State} (h : execPut p b s = .next t) : codings t = codings s := by
  obtain ⟨q, hq, -, h⟩ := withPort_next.mp h
  split at h
  · cases h; rfl
  split_ifs at h
  · exact settle_codings hq h (by simp) (fun _ => rfl)
  · cases h; exact codings_setPort_same hq (appendIn_lineCoding b q)

theorem execFlush_codings {p : Nat} {s t : State} (h : execFlush p s = .next t) : codings t = codings s := by
  obtain ⟨q, hq, -, h⟩ := withPort_next.mp h
  split at h
  · cases h; rfl
  · exact settle_codings hq h (by simp) (fun _ => rfl)

theorem execTick_codings {p : Nat} {s t : State} (h : execTick p s = .next t) : codings t = codings s := by
  obtain ⟨q, hq, -, h⟩ := withPort_next.mp h
  split_ifs at h
  · exact settle_codings hq h (by simp) (fun _ => rfl)
  · cases h; exact codings_setPort_same hq (countTick_lineCoding q)

theorem takeByte_codings {p : Nat} {q q' : Port} {out : List Record} {s t : State} (hq : s.ports[p]? = some q)
    (hc : q'.lineCoding = q.lineCoding) (h : takeByte p q' out s = .next t) : codings t = codings s := by
  obtain ⟨b, -, rfl⟩ := takeByte_next h
  exact codings_setPort_same hq hc

theorem execGet_codings {p : Nat} {s t : State} (h : execGet p s = .next t) : codings t = codings s := by
  obtain ⟨q, hq, -, h⟩ := withPort_next.mp h
  split_ifs at h
  · exact takeByte_codings hq rfl h
  · cases h; rfl
  · exact takeByte_codings hq (swapOut_lineCoding _ q) h
  · cases h; exact codings_setPort_same hq (swapOut_lineCoding _ q)

theorem execPeek_codings {p : Nat} {s t : State} (h : execPeek p s = .next t) : codings t = codings s := by
  obtain ⟨q, hq, -, h⟩ := withPort_next.mp h
  split_ifs at h
  · obtain ⟨tr, rfl⟩ := peekByte_next h
    exact codings_setPort_same hq (swapOut_lineCoding _ q)
  · obtain ⟨tr, rfl⟩ := peekByte_next h; rfl

theorem execSetcls_codings {p : Nat} {dtr rts : Bool} {s t : State} (h : execSetcls p dtr rts s = .next t) :
    codings t = codings s := by
  obtain ⟨q, hq, -, h⟩ := withPort_next.mp h
  cases h
  exact codings_setPort_same hq rfl

/-- A command that only emits an answer keeps every coding. -/
theorem withPort_emit_codings {p : Nat} {r : Port → Record} {s t : State}
    (h : withPort p s (fun q => .next (emit (r q) s)) = .next t) : codings t = codings s := by
  obtain ⟨q, -, -, h⟩ := withPort_next.mp h
  cases h; rfl

/-! ## Which operations and which steps change a coding -/

/-- Everything an operation can do to the stored codings: nothing, or store the coding of `SETLC` or the default of `INIT` on
the port it names (R220, R221). -/
theorem exec_codings {i : Instr} {s t : State} (h : exec i s = .next t) :
    codings t = codings s ∨ ∃ p c, codings t = (codings s).set p c ∧
      (i = .setlc p c ∨ i = .init p ∧ c = ⟨115200, .one, .none, 8⟩) := by
  cases i with
  | setlc p c =>
    obtain ⟨q, d, -, -, rfl⟩ := execSetlc_next h
    exact .inr ⟨p, c, codings_setPort p _ s, .inl rfl⟩
  | init p =>
    obtain ⟨q, -, rfl⟩ := execInit_next h
    exact .inr ⟨p, _, codings_setPort p _ s, .inr ⟨rfl, rfl⟩⟩
  | put p b => exact .inl (execPut_codings h)
  | flush p => exact .inl (execFlush_codings h)
  | tick p => exact .inl (execTick_codings h)
  | get p => exact .inl (execGet_codings h)
  | peek p => exact .inl (execPeek_codings h)
  | inrdy p => exact .inl (withPort_emit_codings h)
  | outrdy p => exact .inl (withPort_emit_codings h)
  | getlc p => exact .inl (withPort_emit_codings h)
  | setcls p dtr rts => exact .inl (execSetcls_codings h)
  | i2creset => cases h; exact .inl rfl
  | asget a => cases h; exact .inl rfl
  | asset a v => cases h; exact .inl (codings_of_ports (asSet_ports a v s))
  | reserved w => cases h
  | _ =>
    obtain ⟨-, -, hports, -⟩ := exec_event_frame rfl h
    exact .inl (codings_of_ports hports)

/-- Agent `TICK` issues only `TICK` (30_encoding.md R106), which keeps every coding. -/
theorem issue_tick_codings {c : Cmd} {s t : State} (h : issue .tick c s = .next t) : codings t = codings s := by
  obtain ⟨i, -, hwho, hx⟩ := issue_next h
  cases i with
  | tick p => exact execTick_codings hx
  | _ => cases hwho

theorem resumeApp_codings {a : AppHold} {s t : State} (h : resumeApp a s = .next t) : codings t = codings s := by
  cases a with
  | putEntry p b => exact execPut_codings h
  | flushEntry p => exact execFlush_codings h
  | getSwap p => exact execGet_codings h
  | putHandoff p =>
    obtain ⟨q, hq, -, h⟩ := withPort_next.mp h
    exact settle_codings hq h (by simp) (fun _ => rfl)
  | flushHandoff p =>
    obtain ⟨q, hq, -, h⟩ := withPort_next.mp h
    exact settle_codings hq h (by simp) (fun _ => rfl)

/-- The turn of `APP` keeps every coding, unless it issues the next command of the program. -/
theorem turnApp_codings_or_exec {s t : State} (h : turnApp s = .next t) :
    codings t = codings s ∨ ∃ c cs i, s.appHold = none ∧ s.appProg = c :: cs ∧ decodeCommand c = .ok i ∧
      exec i { s with appProg := cs } = .next t := by
  unfold turnApp at h
  split at h
  · have hc := resumeApp_codings h
    exact .inl hc
  · cases h; exact .inl rfl
  · next c cs hhold hprog =>
    obtain ⟨i, hd, -, hx⟩ := issue_next h
    exact .inr ⟨c, cs, i, hhold, hprog, hd, hx⟩

theorem turnTick_codings {c : Cmd} {s t : State} (h : turnTick c s = .next t) : codings t = codings s := by
  unfold turnTick at h
  split at h
  · cases h; rfl
  · exact issue_tick_codings h

theorem turnTickResume_codings {s t : State} (h : turnTickResume s = .next t) : codings t = codings s := by
  unfold turnTickResume at h
  split at h
  · cases h; rfl
  · obtain ⟨q, hq, -, h⟩ := withPort_next.mp h
    have hc := settle_codings hq h (by simp) (fun _ => rfl)
    exact hc

theorem turnDec_ports {s t : State} (h : turnDec s = .next t) : t.ports = s.ports := by
  unfold turnDec at h
  split_ifs at h
  · obtain ⟨-, -, hports, -⟩ := exec_event_frame (decodeEvent_isEvent _ _) h
    exact hports
  · cases h; rfl

theorem envInDone_codings {p : Nat} {s t : State} (h : envInDone p s = .next t) : codings t = codings s := by
  unfold envInDone at h
  split at h
  · cases h
  · next q hq =>
    split_ifs at h
    split at h <;> cases h
    exact codings_setPort_same hq rfl

theorem envOutDone_codings {p : Nat} {bytes : List Byte} {s t : State} (h : envOutDone p bytes s = .next t) :
    codings t = codings s := by
  unfold envOutDone at h
  split at h
  · cases h
  · next q hq =>
    split_ifs at h
    cases h
    exact codings_setPort_same hq (receiveOut_lineCoding bytes q)

theorem envEvent_ports {st : BitVec 5} {rx : Byte} {s t : State} (h : envEvent st rx s = .next t) :
    t.ports = s.ports := by
  unfold envEvent at h
  split_ifs at h
  cases h; rfl

theorem envSample_ports {s t : State} (h : envSample s = .next t) : t.ports = s.ports := by
  unfold envSample at h
  split_ifs at h
  cases h; rfl

theorem envTelem_ports {ch : Nat} {rec : TelemRec} {s t : State} (h : envTelem ch rec s = .next t) :
    t.ports = s.ports := by
  unfold envTelem at h
  split_ifs at h
  cases h; rfl

/-- Every turn but that of `APP` keeps every coding. -/
theorem runTurn_codings {u : Turn} (hu : u ≠ .app) {s t : State} (h : runTurn u s = .next t) :
    codings t = codings s := by
  cases u with
  | app => exact absurd rfl hu
  | tick c => exact turnTick_codings h
  | tickResume => exact turnTickResume_codings h
  | dec => exact codings_of_ports (turnDec_ports h)
  | hwepInDone p => exact envInDone_codings h
  | hwepOutDone p bytes => exact envOutDone_codings h
  | i2cpEvent st rx => exact codings_of_ports (envEvent_ports h)
  | i2cpSample => exact codings_of_ports (envSample_ports h)
  | i2cpLatch w => cases h; rfl
  | prodTelem ch rec => exact codings_of_ports (envTelem_ports h)
  | prodReadPtr => cases h; rfl
  | prodGet a => cases h; rfl
  | prodOutput i v => cases h; exact codings_of_ports (asSet_ports _ v s)

/-- Everything a step can do to the stored codings: nothing, or run the next command of `APP`. -/
theorem step_codings_or_exec {s t : State} (h : step s = .next t) :
    codings t = codings s ∨ ∃ c cs rest i, s.sched = .app :: rest ∧ s.appHold = none ∧ s.appProg = c :: cs ∧
      decodeCommand c = .ok i ∧ exec i { s with sched := rest, appProg := cs } = .next t := by
  rcases step_next h with ⟨-, rfl⟩ | ⟨u, rest, hs, hr⟩
  · exact .inl rfl
  by_cases hu : u = .app
  · subst hu
    rcases turnApp_codings_or_exec hr with hc | ⟨c, cs, i, hhold, hprog, hd, hx⟩
    · exact .inl hc
    · exact .inr ⟨c, cs, rest, i, hs, hhold, hprog, hd, hx⟩
  · have hc := runTurn_codings hu hr
    exact .inl hc

/-- A step that changes the coding of a port is `APP`'s, with `SETLC` or `INIT` of that port (R222). -/
theorem step_moves_coding {s t : State} {p : Nat} {q q' : Port} (h : step s = .next t) (hq : s.ports[p]? = some q)
    (hq' : t.ports[p]? = some q') (hne : q'.lineCoding ≠ q.lineCoding) :
    ∃ c cs rest, s.sched = .app :: rest ∧ s.appHold = none ∧ s.appProg = c :: cs ∧
      (decodeCommand c = .ok (.setlc p q'.lineCoding) ∨
        (decodeCommand c = .ok (.init p) ∧ q'.lineCoding = ⟨115200, .one, .none, 8⟩)) := by
  have hmoved : ∀ {p' c'}, codings t = (codings s).set p' c' → p' = p ∧ q'.lineCoding = c' :=
    fun hset => moved_coding_of_set hset hq hq' hne
  have hkept : codings t ≠ codings s := fun hc =>
    hne (hmoved (p' := p) (c' := q.lineCoding) (by rw [hc, ← codings_setPort, setPort_self hq])).2
  obtain ⟨c, cs, rest, i, hs, hhold, hprog, hd, hx⟩ := (step_codings_or_exec h).resolve_left hkept
  refine ⟨c, cs, rest, hs, hhold, hprog, ?_⟩
  obtain ⟨p', c', hset, hi⟩ := (exec_codings hx).resolve_left hkept
  obtain ⟨rfl, rfl⟩ := hmoved hset
  rcases hi with rfl | ⟨rfl, hdefault⟩
  · exact .inl hd
  · exact .inr ⟨hd, hdefault⟩

/-- Settles O41: `GETLC` answers from the stored coding, which `SETLC` and `INIT` set and no other step of the machine changes. -/
theorem getLineCodingReturnsStored : Obligations.GetLineCodingReturnsStored := by
  unfold Obligations.GetLineCodingReturnsStored
  refine ⟨fun w hop => ?_, fun s p q hq hi => execGetlc_of_inited hq hi, codingOf_codingBytes,
    fun s t p c h => execGetlc_after_setlc h, fun s t p h => execGetlc_after_init h,
    fun s t p q q' h hq hq' hne => step_moves_coding h hq hq' hne⟩
  rw [← cmdOp_eq] at hop
  rw [← cmdPort_eq]
  exact decodeCommand_getlc hop

end Sys2Proof.Machine
end

section
/-! `I2CRESET` (60_exceptions.md R263): the command word, and the two error latches. -/

namespace Sys2Proof.Machine

/-- The port and data fields of an `I2CRESET` word are ignored (R263). -/
theorem decodeCommand_i2creset {w : BitVec 16} (h : cmdOp w = 11) : decodeCommand ⟨w, []⟩ = .ok .i2creset := by
  simp [decodeCommand, h, bare]

/-- `I2CRESET` completes in every state, also with a byte event pending or a command at a hold (R263). -/
theorem exec_i2creset (s : State) : exec .i2creset s = .next { s with dec := clearLatches s.dec } := rfl

/-- Settles O43: `op` alone decides the command, and the command runs `clearLatches` on DEC. -/
theorem i2cResetEffect : Obligations.I2cResetEffect := by
  unfold Obligations.I2cResetEffect
  refine ⟨fun w hop => ?_, fun s => ?_⟩
  · rw [← cmdOp_eq] at hop
    exact decodeCommand_i2creset hop
  · rw [exec_i2creset, clearLatches]

end Sys2Proof.Machine
end

section
/-! The encoding (30_encoding.md): an operation is read back from its encoding, whatever decodes fits, and what a status word
and a command word stand for. -/

namespace Sys2Proof.Machine

/-! ## Reading back -/

/-- Settles O1: each constructor has its own law of reading back in the family RoundTrip. -/
theorem decodeEncodeRoundTrip : Obligations.DecodeEncodeRoundTrip := by
  unfold Obligations.DecodeEncodeRoundTrip
  intro i ph hwf harises
  refine (show Laws.RoundTrip.Statement i from ?_) hwf ph harises
  cases i with
  | i2cStop da st rw bf => exact Laws.RoundTrip.i2cStop da st rw bf
  | i2cWaddr st bf => exact Laws.RoundTrip.i2cWaddr st bf
  | i2cAhi st bf => exact Laws.RoundTrip.i2cAhi st bf
  | i2cAlo st bf => exact Laws.RoundTrip.i2cAlo st bf
  | i2cWdata st bf => exact Laws.RoundTrip.i2cWdata st bf
  | i2cRaddr st bf => exact Laws.RoundTrip.i2cRaddr st bf
  | i2cRnext st bf => exact Laws.RoundTrip.i2cRnext st bf
  | init p => exact Laws.RoundTrip.init p
  | put p b => exact Laws.RoundTrip.put p b
  | flush p => exact Laws.RoundTrip.flush p
  | tick p => exact Laws.RoundTrip.tick p
  | get p => exact Laws.RoundTrip.get p
  | peek p => exact Laws.RoundTrip.peek p
  | inrdy p => exact Laws.RoundTrip.inrdy p
  | outrdy p => exact Laws.RoundTrip.outrdy p
  | setlc p c => exact Laws.RoundTrip.setlc p c
  | getlc p => exact Laws.RoundTrip.getlc p
  | setcls p dtr rts => exact Laws.RoundTrip.setcls p dtr rts
  | i2creset => exact Laws.RoundTrip.i2creset
  | asget a => exact Laws.RoundTrip.asget a
  | asset a v => exact Laws.RoundTrip.asset a v
  | reserved w => exact Laws.RoundTrip.reserved w

/-! ## The class of an event by its bits and its `phaseCount` -/

theorem nextPhase_true_of_first {ph : Phase} (h : phaseInt ph = -1) : nextPhase true ph = .data 0 := by
  rw [phaseInt_injective (y := .address) h]; rfl

theorem nextPhase_true_of_second {ph : Phase} (h : phaseInt ph = 0) : nextPhase true ph = .data 1 := by
  rw [phaseInt_injective (y := .data 0) h]; rfl

/-- From `phaseCount` 1 on the updated index is 2 or more: saturation never brings it back. -/
theorem nextPhase_true_of_later {ph : Phase} (h : 1 ≤ phaseInt ph) : ∃ i, nextPhase true ph = .data i ∧ 2 ≤ i.val := by
  have hint := phaseInt_nextPhase_true ph
  cases hn : nextPhase true ph with
  | address => exact absurd hn (nextPhase_true_ne ph)
  | data i =>
    have hval : phaseInt (.data i) = (i.val : Int) := rfl
    rw [hn, hval] at hint
    exact ⟨i, rfl, by omega⟩

/-- The `phaseCount` of a data event: the address phase, the first index, or a later one. -/
theorem phase_trichotomy (ph : Phase) : phaseInt ph = -1 ∨ phaseInt ph = 0 ∨ 1 ≤ phaseInt ph := by
  have := phaseInt_bounds ph
  omega

section
variable {w : BitVec 5} (hp : statP w = false) (hr : statRW w = false) (hd : statDA w = true)
include hp hr hd

theorem decodeEvent_of_addressHigh {ph : Phase} (h : phaseInt ph = -1) :
    decodeEvent ph w = .i2cAhi (statS w) (statBF w) := by
  rw [decodeEvent_of_writeData hp hr hd (nextPhase_true_of_first h)]; rfl

theorem decodeEvent_of_addressLow {ph : Phase} (h : phaseInt ph = 0) :
    decodeEvent ph w = .i2cAlo (statS w) (statBF w) := by
  rw [decodeEvent_of_writeData hp hr hd (nextPhase_true_of_second h)]; rfl

theorem decodeEvent_of_streamedByte {ph : Phase} (h : 1 ≤ phaseInt ph) :
    decodeEvent ph w = .i2cWdata (statS w) (statBF w) := by
  obtain ⟨i, hi, hge⟩ := nextPhase_true_of_later h
  rw [decodeEvent_of_writeData hp hr hd hi, if_neg (by omega), if_neg (by omega)]

end

/-- Settles O4: one law of `decodeEvent` per class, on the bits that `packStat` packs. -/
theorem eventClassesByStatusBits : Obligations.EventClassesByStatusBits := by
  unfold Obligations.EventClassesByStatusBits
  intro ph da p s rw bf
  have hP := statP_packStat da p s rw bf
  have hRW := statRW_packStat da p s rw bf
  have hDA := statDA_packStat da p s rw bf
  refine ⟨?_, ?_, ?_, ?_, ?_, ?_, ?_⟩
  · rintro rfl
    simpa using decodeEvent_of_stop hP ph
  · rintro rfl rfl rfl
    simpa using decodeEvent_of_readAddress hP hRW hDA ph
  · rintro rfl rfl rfl
    simpa using decodeEvent_of_readNext hP hRW hDA ph
  · rintro rfl rfl rfl
    simpa using decodeEvent_of_writeAddress hP hRW hDA ph
  · rintro rfl rfl rfl h
    simpa using decodeEvent_of_addressHigh hP hRW hDA h
  · rintro rfl rfl rfl h
    simpa using decodeEvent_of_addressLow hP hRW hDA h
  · rintro rfl rfl rfl h
    simpa using decodeEvent_of_streamedByte hP hRW hDA h

/-- Every event is of one of the seven classes: the bits that select it, and its operands (R104). -/
theorem decodeEvent_cases (ph : Phase) (w : BitVec 5) :
    (statP w = true ∧ decodeEvent ph w = .i2cStop (statDA w) (statS w) (statRW w) (statBF w)) ∨
    (statP w = false ∧ statRW w = true ∧ statDA w = false ∧ decodeEvent ph w = .i2cRaddr (statS w) (statBF w)) ∨
    (statP w = false ∧ statRW w = true ∧ statDA w = true ∧ decodeEvent ph w = .i2cRnext (statS w) (statBF w)) ∨
    (statP w = false ∧ statRW w = false ∧ statDA w = false ∧ decodeEvent ph w = .i2cWaddr (statS w) (statBF w)) ∨
    (statP w = false ∧ statRW w = false ∧ statDA w = true ∧
      (phaseInt ph = -1 ∧ decodeEvent ph w = .i2cAhi (statS w) (statBF w) ∨
        phaseInt ph = 0 ∧ decodeEvent ph w = .i2cAlo (statS w) (statBF w) ∨
        1 ≤ phaseInt ph ∧ decodeEvent ph w = .i2cWdata (statS w) (statBF w))) := by
  cases hp : statP w with
  | true => exact .inl ⟨rfl, decodeEvent_of_stop hp ph⟩
  | false =>
    right
    cases hr : statRW w with
    | true =>
      cases hd : statDA w with
      | false => exact .inl ⟨rfl, rfl, rfl, decodeEvent_of_readAddress hp hr hd ph⟩
      | true => exact .inr (.inl ⟨rfl, rfl, rfl, decodeEvent_of_readNext hp hr hd ph⟩)
    | false =>
      right; right
      cases hd : statDA w with
      | false => exact .inl ⟨rfl, rfl, rfl, decodeEvent_of_writeAddress hp hr hd ph⟩
      | true =>
        refine .inr ⟨rfl, rfl, rfl, ?_⟩
        rcases phase_trichotomy ph with h | h | h
        · exact .inl ⟨h, decodeEvent_of_addressHigh hp hr hd h⟩
        · exact .inr (.inl ⟨h, decodeEvent_of_addressLow hp hr hd h⟩)
        · exact .inr (.inr ⟨h, decodeEvent_of_streamedByte hp hr hd h⟩)

/-- Settles O3: the bits that select the class and those it carries are all five, and five bits make the word. -/
theorem eventKeepsItsStatusWord : Obligations.EventKeepsItsStatusWord := by
  unfold Obligations.EventKeepsItsStatusWord
  intro ph w
  have hw := packStat_fields w
  rcases decodeEvent_cases ph w with ⟨hp, h⟩ | ⟨hp, hr, hd, h⟩ | ⟨hp, hr, hd, h⟩ | ⟨hp, hr, hd, h⟩ |
    ⟨hp, hr, hd, ⟨-, h⟩ | ⟨-, h⟩ | ⟨-, h⟩⟩
  · rw [hp] at hw
    simp only [h, encode, hw]
  all_goals
    rw [hp, hr, hd] at hw
    simp only [h, encode, hw]

/-! ## Whatever decodes fits -/

theorem decodeEvent_fits (ph : Phase) (w : BitVec 5) :
    wellFormed (decodeEvent ph w) = true ∧ arisesAt (decodeEvent ph w) ph = true := by
  rcases decodeEvent_cases ph w with ⟨-, h⟩ | ⟨-, -, -, h⟩ | ⟨-, -, -, h⟩ | ⟨-, -, -, h⟩ |
    ⟨-, -, -, ⟨hph, h⟩ | ⟨hph, h⟩ | ⟨hph, h⟩⟩
  all_goals rw [h]
  case inr.inr.inr.inr.inl => exact ⟨rfl, decide_eq_true hph⟩
  case inr.inr.inr.inr.inr.inl => exact ⟨rfl, decide_eq_true hph⟩
  case inr.inr.inr.inr.inr.inr => exact ⟨rfl, decide_eq_true hph⟩
  all_goals exact ⟨rfl, rfl⟩

/-- The port field has four bits (R105). -/
theorem portFits_cmdPort (w : BitVec 16) : portFits (cmdPort w) = true :=
  decide_eq_true (w.extractLsb' 8 4).isLt

theorem cmdOp_lt (w : BitVec 16) : cmdOp w < 16 := (w.extractLsb' 12 4).isLt

/-- A command without payload that decodes is the operation of its word. -/
theorem bare_ok {payload : List Byte} {i j : Instr} (h : bare payload i = .ok j) : j = i := by
  cases payload with
  | nil => cases h; rfl
  | cons b bs => cases h

/-- A decoded command fits: its port is the port field, and the reserved codes are 0xE and 0xF. -/
theorem decodeCommand_fits {c : Cmd} {i : Instr} (h : decodeCommand c = .ok i) (ph : Phase) :
    wellFormed i = true ∧ arisesAt i ph = true := by
  have hport := portFits_cmdPort c.word
  unfold decodeCommand at h
  split at h
  case h_9 =>
    split at h
    · cases h; exact ⟨hport, rfl⟩
    · cases h
  case h_13 =>
    split at h <;> cases h
    exact ⟨rfl, rfl⟩
  case h_14 =>
    split at h <;> cases h
    exact ⟨rfl, rfl⟩
  case h_15 =>
    have hreserved : 0xE000 ≤ c.word.toNat := by
      have hop := cmdOp_eq c.word
      have hlt := cmdOp_lt c.word
      by_contra hsmall
      have : cmdOp c.word < 14 := by omega
      interval_cases cmdOp c.word <;> simp_all
    rw [bare_ok h]
    exact ⟨decide_eq_true hreserved, rfl⟩
  case h_12 => rw [bare_ok h]; exact ⟨rfl, rfl⟩
  all_goals
    rw [bare_ok h]
    exact ⟨hport, rfl⟩

/-- Settles O2: an event arises where it was read, and a command's operands come from fields of their width. -/
theorem decodedOperationFits : Obligations.DecodedOperationFits := by
  unfold Obligations.DecodedOperationFits
  intro ph code i h
  cases code with
  | evt w => cases h; exact decodeEvent_fits ph w
  | cmd c => exact decodeCommand_fits h ph

/-! ## Fields that a command ignores -/

/-- Two words that agree in `op` and `port` stand for the same operation, unless `op` is that of a command that reads `data`
or the whole word. -/
theorem decodeCommand_of_port {w w' : BitVec 16} {payload : List Byte} (hop : cmdOp w = cmdOp w')
    (hport : cmdPort w = cmdPort w') (huses : cmdOp w = 0 ∨ (2 ≤ cmdOp w ∧ cmdOp w ≤ 9)) :
    decodeCommand ⟨w, payload⟩ = decodeCommand ⟨w', payload⟩ := by
  unfold decodeCommand
  simp only [← hop, hport]
  rcases huses with h0 | ⟨hlow, hhigh⟩
  · rw [h0]; rfl
  · interval_cases cmdOp w <;> rfl

/-- Settles O5: in each group of commands the decoder reads `op` and the named fields of the word only. -/
theorem ignoredFieldsChangeNothing : Obligations.IgnoredFieldsChangeNothing := by
  unfold Obligations.IgnoredFieldsChangeNothing
  intro w w' payload hop
  refine ⟨fun huses hport => decodeCommand_of_port hop hport huses, ?_, ?_, ?_⟩
  · intro h10 hport h0 h1
    simp only [decodeCommand, ← hop, h10, hport, h0, h1]
  · rintro (h11 | h12)
    · simp only [decodeCommand, ← hop, h11]
    · simp only [decodeCommand, ← hop, h12]
  · intro h13 hdata
    simp only [decodeCommand, ← hop, h13, hdata]

/-- Settles O6: the decoder is run on each of the words. -/
theorem writtenOutWordsDecode : Obligations.WrittenOutWordsDecode := by
  unfold Obligations.WrittenOutWordsDecode
  decide

/-! ## The phase counter -/

/-- Settles O14: the counter as a signed number (R22, R145). -/
theorem phaseCountSaturates : Obligations.PhaseCountSaturates := by
  unfold Obligations.PhaseCountSaturates
  intro ph
  have hnext := phaseInt_nextPhase_true ph
  have hbounds := phaseInt_bounds ph
  refine ⟨nextPhase_false ph, ?_, hbounds.1, hbounds.2⟩
  rw [hnext]
  split_ifs <;> omega

end Sys2Proof.Machine
end

section
/-! The operations of unit FIFO seen from their port. A command, a command that goes on from its hold, and a completion by the
endpoint hardware each look at the parameters and at one port, and come to a new value of that port, records to emit and a hold to
mark. `PortOp.runOn` says so of the model's operations (`exec_portOp`, `resumeApp_eq`, `resumeTick_eq`, `envInDone_eq`,
`envOutDone_eq`), `PortMove` says once what each can come to. -/

namespace Sys2Proof.Machine

/-! ## What an operation of a port comes to -/

/-- The hold that an operation leaves its agent at, if any (00_scope.md R9 (a), R177). -/
inductive Mark where
  | clear
  | app (h : AppHold)
  | tick (p : Nat)

/-- The state with the hold marked. -/
def Mark.set : Mark → State → State
  | .clear, s => s
  | .app h, s => { s with appHold := some h }
  | .tick p, s => { s with tickHold := some p }

/-- What an operation of a port comes to. -/
inductive PortResult where
  | next (q : Port) (out : List Record) (m : Mark)
  | fault (f : Fault)
  | refused (r : Refusal)

/-- The state with port `p` replaced, records emitted and a hold marked. -/
def place (p : Nat) (q : Port) (out : List Record) (m : Mark) (s : State) : State := m.set (emitAll out (setPort p q s))

/-- The outcome of an operation on port `p` in the state `s`. -/
def PortResult.outcome (p : Nat) (s : State) : PortResult → Result
  | .next q out m => .next (place p q out m s)
  | .fault f => .fault f
  | .refused r => .refused r

/-- The operations of one port: commands of `APP` and the tick handler from their first line, hand-offs that go on from their hold,
and the completions of the endpoint hardware. -/
inductive PortOp where
  | init
  | put (b : Byte)
  | flush
  | tick
  | get
  | peek
  | inrdy
  | outrdy
  | setlc (c : LineCoding)
  | getlc
  | setcls (dtr rts : Bool)
  | putGoesOn
  | flushGoesOn
  | tickGoesOn
  | inDone
  | outDone (bytes : List Byte)

/-- A step of the port as a result, `m` the hold of its agent if it stands there. -/
def PortStep.result (m : Mark) : PortStep → PortResult
  | .done q out => .next q out .clear
  | .held q => .next q [] m

/-- The next byte returned and consumed, after the records `out` (43_fifo_out.md R201). -/
def takeResult (q : Port) (out : List Record) : PortResult :=
  match nextOut q with
  | none => .fault .unwrittenByte
  | some b => .next { q with outLen := q.outLen - 1 } (out ++ [.ret (.byte b)]) .clear

/-- The next byte returned and kept, or none if none is left (43_fifo_out.md R202). -/
def peekResult (q : Port) (out : List Record) : PortResult :=
  if q.outLen = 0 then .next q (out ++ [.ret (.peek none)]) .clear
  else
    match nextOut q with
    | none => .fault .unwrittenByte
    | some b => .next q (out ++ [.ret (.peek (some b))]) .clear

/-- An operation on an initialised port `p`, whose value is `q`. -/
def PortOp.onInited (c : Params) (p : Nat) (q : Port) : PortOp → PortResult
  | .init => .refused .alreadyInited
  | .put b =>
    match q.inWait with
    | some _ => .next q [] (.app (.putEntry p b))
    | none =>
      if (appendIn b q).inLen.toNat = c.packetSize then
        (handoffIn p (BitVec.ofNat 8 c.packetSize) .put (appendIn b q)).result (.app (.putHandoff p))
      else .next (appendIn b q) [] .clear
  | .flush =>
    match q.inWait with
    | some _ => .next q [] (.app (.flushEntry p))
    | none => (flushPort p q).result (.app (.flushHandoff p))
  | .tick =>
    if c.flushTicks ≤ (countTick q).timeoutCounter.toNat then
      (tickFlush p c.tickFlushBlocks (countTick q)).result (.tick p)
    else .next (countTick q) [] .clear
  | .get =>
    if q.outLen ≠ 0 then takeResult q []
    else if q.outDesc.owned then .next q [] (.app (.getSwap p))
    else if q.outDesc.count ≠ 0 then takeResult (swapOut c.packetSize q) [armRecord p q]
    else .next (swapOut c.packetSize q) [armRecord p q] (.app (.getSwap p))
  | .peek =>
    if q.outLen = 0 ∧ q.outDesc.owned = false then peekResult (swapOut c.packetSize q) [armRecord p q]
    else peekResult q []
  | .inrdy => .next q [.ret (.bool (inReady q))] .clear
  | .outrdy => .next q [.ret (.bool (outReady q))] .clear
  | .setlc coding =>
    if coding.baudRate = 0 then .refused .zeroBaud
    else if 0 ≤ divisorOf c.clockFreq coding.baudRate.toNat ∧ divisorOf c.clockFreq coding.baudRate.toNat ≤ 0xFFFF then
      .next { q with lineCoding := coding }
        [.divisor p (BitVec.ofInt 16 (divisorOf c.clockFreq coding.baudRate.toNat))] .clear
    else .refused .divisorRange
  | .getlc => .next q [.ret (.coding (codingBytes q.lineCoding))] .clear
  | .setcls dtr rts => .next { q with controlLine := ⟨dtr, rts⟩ } [] .clear
  | .putGoesOn => (resumeIn p .put q).result (.app (.putHandoff p))
  | .flushGoesOn => (resumeIn p .flush q).result (.app (.flushHandoff p))
  | .tickGoesOn => (resetTicks (resumeIn p .flush q)).result (.tick p)
  | .inDone =>
    if q.inDesc.owned then
      match readRun (q.inBuf.sel q.inDesc.bufIsA) 0 q.inDesc.count.toNat with
      | none => .fault .unwrittenByte
      | some bytes => .next { q with inDesc := { q.inDesc with owned := false } } [.pktIn p bytes q.inDesc.toggle] .clear
    else .refused .notEnabled
  | .outDone bytes =>
    if q.outDesc.owned = true ∧ bytes.length ≤ c.packetSize then .next (receiveOut bytes q) [] .clear
    else .refused .notEnabled

/-- An operation on a port that was never initialised: only `INIT` runs (30_encoding.md R108 (c), 46_environment.md R240, R241). -/
def PortOp.onFresh (c : Params) (p : Nat) (q : Port) : PortOp → PortResult
  | .init => .next (initPort c.packetSize q) [.armOut p true false] .clear
  | .inDone => .refused .notEnabled
  | .outDone _ => .refused .notEnabled
  | _ => .refused .notInited

/-- Why an operation is refused on a port that does not exist (R108 (b), 46_environment.md R240, R241). -/
def PortOp.absent : PortOp → Refusal
  | .inDone => .notEnabled
  | .outDone _ => .notEnabled
  | _ => .badPort

/-- An operation on a port whose value is `q`. -/
def PortOp.effect (c : Params) (p : Nat) (q : Port) (op : PortOp) : PortResult :=
  if q.inited then op.onInited c p q else op.onFresh c p q

/-- An operation on port `p` of the state `s`. -/
def PortOp.runOn (p : Nat) (s : State) (op : PortOp) : Result :=
  match s.ports[p]? with
  | none => .refused op.absent
  | some q => (op.effect s.params p q).outcome p s

/-! ## The fields of the state after an operation -/

@[simp] theorem Mark.set_clear (s : State) : Mark.clear.set s = s := rfl
@[simp] theorem Mark.set_app (h : AppHold) (s : State) : (Mark.app h).set s = { s with appHold := some h } := rfl
@[simp] theorem Mark.set_tick (p : Nat) (s : State) : (Mark.tick p).set s = { s with tickHold := some p } := rfl

section place
variable (p : Nat) (q : Port) (out : List Record) (m : Mark) (s : State)

@[simp] theorem place_params : (place p q out m s).params = s.params := by cases m <;> rfl
@[simp] theorem place_dec : (place p q out m s).dec = s.dec := by cases m <;> rfl
@[simp] theorem place_mem : (place p q out m s).mem = s.mem := by cases m <;> rfl
@[simp] theorem place_telem : (place p q out m s).telem = s.telem := by cases m <;> rfl
@[simp] theorem place_ports : (place p q out m s).ports = s.ports.set p q := by cases m <;> rfl
@[simp] theorem place_trace : (place p q out m s).trace = s.trace ++ out := by cases m <;> rfl

/-- An operation that changes neither its port nor the trace marks its hold at most. -/
theorem place_same {p : Nat} {q : Port} {s : State} (h : s.ports[p]? = some q) (m : Mark) : place p q [] m s = m.set s := by
  rw [place, setPort_self h, emitAll_nil]

/-- The ports after an operation on one. -/
theorem getElem?_place {p p' : Nat} {q q0 : Port} {out : List Record} {m : Mark} {s : State} (h : s.ports[p]? = some q0) :
    (place p q out m s).ports[p']? = if p' = p then some q else s.ports[p']? := by
  rw [place_ports, ← setPort_ports, getElem?_setPort h]

end place

/-! ## The model's operations are operations of a port -/

/-- A command on an initialised port is the port operation of which its continuation is the outcome. -/
theorem withPort_eq_runOn {p : Nat} {s : State} {k : Port → Result} {op : PortOp} (habsent : op.absent = .badPort)
    (hfresh : ∀ q, op.onFresh s.params p q = .refused .notInited)
    (hk : ∀ q, s.ports[p]? = some q → k q = (op.onInited s.params p q).outcome p s) : withPort p s k = op.runOn p s := by
  unfold withPort PortOp.runOn PortOp.effect
  cases hq : s.ports[p]? with
  | none => simp [habsent]
  | some q =>
    cases hi : q.inited with
    | false => simp [hi, hfresh, PortResult.outcome]
    | true => simp [hi, hk q hq]

/-- Settling a step of the port is its outcome. -/
theorem settle_eq_outcome (p : Nat) (m : Mark) (s : State) (r : PortStep) :
    settle p m.set s r = (r.result m).outcome p s := by
  cases r with
  | done q out => rfl
  | held q => simp [settle, PortStep.result, PortResult.outcome, place]

theorem takeByte_eq_outcome (p : Nat) (q : Port) (out : List Record) (s : State) :
    takeByte p q out s = (takeResult q out).outcome p s := by
  unfold takeByte takeResult
  cases nextOut q <;> rfl

theorem peekByte_eq_outcome (p : Nat) (q : Port) (out : List Record) (s : State) :
    peekByte q out (setPort p q s) = (peekResult q out).outcome p s := by
  unfold peekByte peekResult
  split_ifs
  · rfl
  · cases nextOut q <;> rfl

theorem execInit_eq (p : Nat) (s : State) : execInit p s = PortOp.init.runOn p s := by
  unfold execInit PortOp.runOn PortOp.effect
  cases s.ports[p]? with
  | none => rfl
  | some q => cases hi : q.inited <;> simp [hi] <;> rfl

theorem execPut_eq (p : Nat) (b : Byte) (s : State) : execPut p b s = (PortOp.put b).runOn p s := by
  refine withPort_eq_runOn rfl (fun _ => rfl) fun q hq => ?_
  simp only [PortOp.onInited]
  cases q.inWait with
  | some w => simp [PortResult.outcome, place_same hq]
  | none =>
    simp only
    split_ifs
    · exact settle_eq_outcome p (.app (.putHandoff p)) s _
    · simp [PortResult.outcome, place]

theorem execFlush_eq (p : Nat) (s : State) : execFlush p s = PortOp.flush.runOn p s := by
  refine withPort_eq_runOn rfl (fun _ => rfl) fun q hq => ?_
  simp only [PortOp.onInited]
  cases q.inWait with
  | some w => simp [PortResult.outcome, place_same hq]
  | none => exact settle_eq_outcome p (.app (.flushHandoff p)) s _

theorem execTick_eq (p : Nat) (s : State) : execTick p s = PortOp.tick.runOn p s := by
  refine withPort_eq_runOn rfl (fun _ => rfl) fun q hq => ?_
  simp only [PortOp.onInited]
  split_ifs
  · exact settle_eq_outcome p (.tick p) s _
  · simp [PortResult.outcome, place]

theorem execGet_eq (p : Nat) (s : State) : execGet p s = PortOp.get.runOn p s := by
  refine withPort_eq_runOn rfl (fun _ => rfl) fun q hq => ?_
  simp only [PortOp.onInited]
  split_ifs
  · exact takeByte_eq_outcome p q [] s
  · simp [PortResult.outcome, place_same hq]
  · exact takeByte_eq_outcome p _ _ s
  · rfl

theorem execPeek_eq (p : Nat) (s : State) : execPeek p s = PortOp.peek.runOn p s := by
  refine withPort_eq_runOn rfl (fun _ => rfl) fun q hq => ?_
  simp only [PortOp.onInited]
  split_ifs
  · exact peekByte_eq_outcome p _ _ s
  · rw [← peekByte_eq_outcome, setPort_self hq]

theorem execSetlc_eq (p : Nat) (c : LineCoding) (s : State) : execSetlc p c s = (PortOp.setlc c).runOn p s := by
  refine withPort_eq_runOn rfl (fun _ => rfl) fun q hq => ?_
  simp only [PortOp.onInited]
  split_ifs <;> rfl

theorem execSetcls_eq (p : Nat) (dtr rts : Bool) (s : State) :
    execSetcls p dtr rts s = (PortOp.setcls dtr rts).runOn p s := by
  refine withPort_eq_runOn rfl (fun _ => rfl) fun q _ => ?_
  simp [PortOp.onInited, PortResult.outcome, place]

/-- A query emits its answer and leaves the port as it is. -/
theorem withPort_emit_eq_runOn {p : Nat} {s : State} {r : Port → Record} {op : PortOp} (habsent : op.absent = .badPort)
    (hfresh : ∀ q, op.onFresh s.params p q = .refused .notInited)
    (hr : ∀ q, op.onInited s.params p q = .next q [r q] .clear) :
    withPort p s (fun q => .next (emit (r q) s)) = op.runOn p s := by
  refine withPort_eq_runOn habsent hfresh fun q hq => ?_
  rw [hr, PortResult.outcome, place, setPort_self hq]
  rfl

/-- The port and the operation that a command names. -/
def portOp : Instr → Option (Nat × PortOp)
  | .init p => some (p, .init)
  | .put p b => some (p, .put b)
  | .flush p => some (p, .flush)
  | .tick p => some (p, .tick)
  | .get p => some (p, .get)
  | .peek p => some (p, .peek)
  | .inrdy p => some (p, .inrdy)
  | .outrdy p => some (p, .outrdy)
  | .setlc p c => some (p, .setlc c)
  | .getlc p => some (p, .getlc)
  | .setcls p dtr rts => some (p, .setcls dtr rts)
  | _ => none

theorem portOf_eq_portOp (i : Instr) : portOf i = (portOp i).map Prod.fst := by
  cases i <;> rfl

theorem portOp_of_portOf {i : Instr} {p : Nat} (h : portOf i = some p) : ∃ op, portOp i = some (p, op) := by
  rw [portOf_eq_portOp] at h
  obtain ⟨⟨p', op⟩, hop, rfl⟩ := Option.map_eq_some_iff.mp h
  exact ⟨op, hop⟩

/-- A command with a port operand is the operation of that port. -/
theorem exec_portOp {i : Instr} {p : Nat} {op : PortOp} (h : portOp i = some (p, op)) (s : State) :
    exec i s = op.runOn p s := by
  cases i <;> cases h
  case init => exact execInit_eq p s
  case put b => exact execPut_eq p b s
  case flush => exact execFlush_eq p s
  case tick => exact execTick_eq p s
  case get => exact execGet_eq p s
  case peek => exact execPeek_eq p s
  case inrdy => exact withPort_emit_eq_runOn rfl (fun _ => rfl) (fun _ => rfl)
  case outrdy => exact withPort_emit_eq_runOn rfl (fun _ => rfl) (fun _ => rfl)
  case setlc c => exact execSetlc_eq p c s
  case getlc => exact withPort_emit_eq_runOn rfl (fun _ => rfl) (fun _ => rfl)
  case setcls dtr rts => exact execSetcls_eq p dtr rts s

/-- The operation with which `APP` goes on from a hold. -/
def holdOp : AppHold → PortOp
  | .putEntry _ b => .put b
  | .putHandoff _ => .putGoesOn
  | .flushEntry _ => .flush
  | .flushHandoff _ => .flushGoesOn
  | .getSwap _ => .get

theorem resumeApp_eq (h : AppHold) (s : State) : resumeApp h s = (holdOp h).runOn (holdPort h) s := by
  cases h with
  | putEntry p b => exact execPut_eq p b s
  | flushEntry p => exact execFlush_eq p s
  | getSwap p => exact execGet_eq p s
  | putHandoff p =>
    exact withPort_eq_runOn rfl (fun _ => rfl) fun q _ => settle_eq_outcome p (.app (.putHandoff p)) s _
  | flushHandoff p =>
    exact withPort_eq_runOn rfl (fun _ => rfl) fun q _ => settle_eq_outcome p (.app (.flushHandoff p)) s _

theorem resumeTick_eq (p : Nat) (s : State) : resumeTick p s = PortOp.tickGoesOn.runOn p s :=
  withPort_eq_runOn rfl (fun _ => rfl) fun _ _ => settle_eq_outcome p (.tick p) s _

theorem envInDone_eq (p : Nat) (s : State) : envInDone p s = PortOp.inDone.runOn p s := by
  unfold envInDone PortOp.runOn PortOp.effect
  cases s.ports[p]? with
  | none => rfl
  | some q =>
    cases hi : q.inited with
    | false => simp [hi, PortOp.onFresh, PortResult.outcome]
    | true =>
      simp only [hi, PortOp.onInited, true_and, if_true]
      split_ifs
      · cases readRun (q.inBuf.sel q.inDesc.bufIsA) 0 q.inDesc.count.toNat <;> rfl
      · rfl

theorem envOutDone_eq (p : Nat) (bytes : List Byte) (s : State) : envOutDone p bytes s = (PortOp.outDone bytes).runOn p s := by
  unfold envOutDone PortOp.runOn PortOp.effect
  cases s.ports[p]? with
  | none => rfl
  | some q =>
    cases hi : q.inited with
    | false => simp [hi, PortOp.onFresh, PortResult.outcome]
    | true =>
      simp only [hi, PortOp.onInited, true_and, if_true]
      split_ifs
      · simp [PortResult.outcome, place]
      · rfl

end Sys2Proof.Machine
end

section
/-! Everything an operation of a port can come to, said once (42_fifo_in.md R170 to R178, 43_fifo_out.md R200 to R203, 44_port_control.md,
46_environment.md R240, R241). -/

namespace Sys2Proof.Machine

/-- The port after a hand-off of all bytes filled, with the flags its command sets. -/
def handedOff (o : Origin) (q : Port) : Port := finishIn o (grantIn q.inLen q)

/-- What an operation of an initialised port `p`, whose value is `q`, can come to: its new value, the records and the hold. -/
inductive PortMove (c : Params) (p : Nat) (q : Port) : PortOp → Port → List Record → Mark → Prop
  | putEntry (b : Byte) (hw : q.inWait ≠ none) : PortMove c p q (.put b) q [] (.app (.putEntry p b))
  | putAppends (b : Byte) (hw : q.inWait = none) (hn : (q.inLen + 1).toNat ≠ c.packetSize) :
      PortMove c p q (.put b) (appendIn b q) [] .clear
  | putGrants (b : Byte) (hw : q.inWait = none) (hn : (q.inLen + 1).toNat = c.packetSize) (ho : q.inDesc.owned = false) :
      PortMove c p q (.put b) (handedOff .put (appendIn b q)) [submitRecord p (q.inLen + 1) q] .clear
  | putHolds (b : Byte) (hw : q.inWait = none) (hn : (q.inLen + 1).toNat = c.packetSize) (ho : q.inDesc.owned = true) :
      PortMove c p q (.put b) { appendIn b q with inWait := some ⟨BitVec.ofNat 8 c.packetSize, .put⟩ } []
        (.app (.putHandoff p))
  | flushEntry (hw : q.inWait ≠ none) : PortMove c p q .flush q [] (.app (.flushEntry p))
  | flushQuiet (hw : q.inWait = none) : PortMove c p q .flush q [] .clear
  | flushGrants (hw : q.inWait = none) (hs : q.inLen ≠ 0 ∨ q.zlpPending = true) (ho : q.inDesc.owned = false) :
      PortMove c p q .flush (handedOff .flush { q with flushInProgress := true }) [submitRecord p q.inLen q] .clear
  | flushHolds (hw : q.inWait = none) (hs : q.inLen ≠ 0 ∨ q.zlpPending = true) (ho : q.inDesc.owned = true) :
      PortMove c p q .flush { q with flushInProgress := true, inWait := some ⟨q.inLen, .flush⟩ } [] (.app (.flushHandoff p))
  | tickCounts (hn : (q.timeoutCounter + 1).toNat < c.flushTicks) : PortMove c p q .tick (countTick q) [] .clear
  | tickRestarts : PortMove c p q .tick { q with timeoutCounter := 0 } [] .clear
  | tickGrants (hw : q.inWait = none) (hs : q.inLen ≠ 0 ∨ q.zlpPending = true) (ho : q.inDesc.owned = false) :
      PortMove c p q .tick { handedOff .flush { q with flushInProgress := true } with timeoutCounter := 0 }
        [submitRecord p q.inLen q] .clear
  | tickHolds (hn : c.flushTicks ≤ (q.timeoutCounter + 1).toNat) (hw : q.inWait = none)
      (hs : q.inLen ≠ 0 ∨ q.zlpPending = true) (ho : q.inDesc.owned = true) :
      PortMove c p q .tick { countTick q with flushInProgress := true, inWait := some ⟨q.inLen, .flush⟩ } [] (.tick p)
  | getTakes (b : Byte) (hl : q.outLen ≠ 0) (hb : nextOut q = some b) :
      PortMove c p q .get { q with outLen := q.outLen - 1 } [.ret (.byte b)] .clear
  | getWaits (hl : q.outLen = 0) (ho : q.outDesc.owned = true) : PortMove c p q .get q [] (.app (.getSwap p))
  | getSwapsTakes (b : Byte) (hl : q.outLen = 0) (ho : q.outDesc.owned = false) (hc : q.outDesc.count ≠ 0)
      (hb : nextOut (swapOut c.packetSize q) = some b) :
      PortMove c p q .get { swapOut c.packetSize q with outLen := q.outDesc.count - 1 } [armRecord p q, .ret (.byte b)] .clear
  | getSwapsEmpty (hl : q.outLen = 0) (ho : q.outDesc.owned = false) (hc : q.outDesc.count = 0) :
      PortMove c p q .get (swapOut c.packetSize q) [armRecord p q] (.app (.getSwap p))
  | peekKeeps (a : Option Byte) : PortMove c p q .peek q [.ret (.peek a)] .clear
  | peekSwaps (a : Option Byte) (hl : q.outLen = 0) (ho : q.outDesc.owned = false) :
      PortMove c p q .peek (swapOut c.packetSize q) [armRecord p q, .ret (.peek a)] .clear
  | inrdy : PortMove c p q .inrdy q [.ret (.bool (inReady q))] .clear
  | outrdy : PortMove c p q .outrdy q [.ret (.bool (outReady q))] .clear
  | setlc (coding : LineCoding) (d : BitVec 16) :
      PortMove c p q (.setlc coding) { q with lineCoding := coding } [.divisor p d] .clear
  | getlc : PortMove c p q .getlc q [.ret (.coding (codingBytes q.lineCoding))] .clear
  | setcls (dtr rts : Bool) : PortMove c p q (.setcls dtr rts) { q with controlLine := ⟨dtr, rts⟩ } [] .clear
  | putStays (ho : q.inDesc.owned = true) : PortMove c p q .putGoesOn q [] (.app (.putHandoff p))
  | putLifts (ho : q.inDesc.owned = false) :
      PortMove c p q .putGoesOn (finishIn .put (grantIn (pendingLen q) q)) [submitRecord p (pendingLen q) q] .clear
  | flushStays (ho : q.inDesc.owned = true) : PortMove c p q .flushGoesOn q [] (.app (.flushHandoff p))
  | flushLifts (ho : q.inDesc.owned = false) :
      PortMove c p q .flushGoesOn (finishIn .flush (grantIn (pendingLen q) q)) [submitRecord p (pendingLen q) q] .clear
  | tickStays (ho : q.inDesc.owned = true) : PortMove c p q .tickGoesOn q [] (.tick p)
  | tickLifts (ho : q.inDesc.owned = false) :
      PortMove c p q .tickGoesOn { finishIn .flush (grantIn (pendingLen q) q) with timeoutCounter := 0 }
        [submitRecord p (pendingLen q) q] .clear
  | inDone (bytes : List Byte) (ho : q.inDesc.owned = true)
      (hb : readRun (q.inBuf.sel q.inDesc.bufIsA) 0 q.inDesc.count.toNat = some bytes) :
      PortMove c p q .inDone { q with inDesc := { q.inDesc with owned := false } } [.pktIn p bytes q.inDesc.toggle] .clear
  | outDone (bytes : List Byte) (ho : q.outDesc.owned = true) (hb : bytes.length ≤ c.packetSize) :
      PortMove c p q (.outDone bytes) (receiveOut bytes q) [] .clear

section
variable {c : Params} {p : Nat} {q q' : Port} {out : List Record} {m : Mark}

/-- The length of a filled buffer is the packet size (R172). -/
theorem ofNat_packetSize {x : Byte} {n : Nat} (h : x.toNat = n) : BitVec.ofNat 8 n = x := by
  subst h
  simp

theorem portMove_put {b : Byte} (h : PortOp.onInited c p q (.put b) = .next q' out m) : PortMove c p q (.put b) q' out m := by
  simp only [PortOp.onInited] at h
  cases hw : q.inWait with
  | some w =>
    rw [hw] at h
    cases h
    exact .putEntry b (by simp [hw])
  | none =>
    simp only [hw] at h
    split_ifs at h with hn
    · cases ho : q.inDesc.owned with
      | true =>
        rw [handoffIn_owned (by exact ho)] at h
        cases h
        exact .putHolds b hw hn ho
      | false =>
        rw [handoffIn_free (by exact ho), ofNat_packetSize hn] at h
        cases h
        exact .putGrants b hw hn ho
    · cases h
      exact .putAppends b hw hn

theorem portMove_flush (h : PortOp.onInited c p q .flush = .next q' out m) : PortMove c p q .flush q' out m := by
  simp only [PortOp.onInited] at h
  cases hw : q.inWait with
  | some w =>
    rw [hw] at h
    cases h
    exact .flushEntry (by simp [hw])
  | none =>
    simp only [hw] at h
    rcases flushPort_cases p q with ⟨hf, -⟩ | ⟨-, hs, ho, hf⟩ | ⟨-, hs, ho, hf⟩
    all_goals
      rw [hf] at h
      cases h
    · exact .flushQuiet hw
    · exact .flushGrants hw hs ho
    · exact .flushHolds hw hs ho

theorem portMove_tick (h : PortOp.onInited c p q .tick = .next q' out m) : PortMove c p q .tick q' out m := by
  simp only [PortOp.onInited] at h
  split_ifs at h with hn
  · unfold tickFlush at h
    split_ifs at h with hblocks
    · rcases flushPort_cases p (countTick q) with ⟨hf, -⟩ | ⟨-, hs, ho, hf⟩ | ⟨-, hs, ho, hf⟩
      all_goals
        rw [hf] at h
        cases h
      · exact .tickRestarts
      · exact .tickGrants hblocks.1 hs ho
      · exact .tickHolds hn hblocks.1 hs ho
    · cases h
      exact .tickRestarts
  · cases h
    exact .tickCounts (not_le.mp hn)

theorem takeResult_next {q0 : Port} {out0 : List Record} (h : takeResult q0 out0 = .next q' out m) :
    ∃ b, nextOut q0 = some b ∧ q' = { q0 with outLen := q0.outLen - 1 } ∧ out = out0 ++ [.ret (.byte b)] ∧ m = .clear := by
  unfold takeResult at h
  cases hb : nextOut q0 with
  | none => rw [hb] at h; cases h
  | some b => rw [hb] at h; cases h; exact ⟨b, rfl, rfl, rfl, rfl⟩

theorem peekResult_next {q0 : Port} {out0 : List Record} (h : peekResult q0 out0 = .next q' out m) :
    q' = q0 ∧ m = .clear ∧ ∃ a, out = out0 ++ [.ret (.peek a)] := by
  unfold peekResult at h
  split_ifs at h
  · cases h; exact ⟨rfl, rfl, none, rfl⟩
  · cases hb : nextOut q0 with
    | none => rw [hb] at h; cases h
    | some b => rw [hb] at h; cases h; exact ⟨rfl, rfl, some b, rfl⟩

theorem portMove_get (h : PortOp.onInited c p q .get = .next q' out m) : PortMove c p q .get q' out m := by
  simp only [PortOp.onInited] at h
  split_ifs at h with hl ho hc
  · obtain ⟨b, hb, rfl, rfl, rfl⟩ := takeResult_next h
    exact .getTakes b hl hb
  · cases h
    exact .getWaits (not_not.mp hl) ho
  · obtain ⟨b, hb, rfl, rfl, rfl⟩ := takeResult_next h
    exact .getSwapsTakes b (not_not.mp hl) (Bool.not_eq_true _ ▸ ho) hc hb
  · cases h
    exact .getSwapsEmpty (not_not.mp hl) (Bool.not_eq_true _ ▸ ho) (not_not.mp hc)

theorem portMove_peek (h : PortOp.onInited c p q .peek = .next q' out m) : PortMove c p q .peek q' out m := by
  simp only [PortOp.onInited] at h
  split_ifs at h with hs
  · obtain ⟨rfl, rfl, a, rfl⟩ := peekResult_next h
    exact .peekSwaps a hs.1 hs.2
  · obtain ⟨rfl, rfl, a, rfl⟩ := peekResult_next h
    exact .peekKeeps a

theorem portMove_setlc {coding : LineCoding} (h : PortOp.onInited c p q (.setlc coding) = .next q' out m) :
    PortMove c p q (.setlc coding) q' out m := by
  simp only [PortOp.onInited] at h
  split_ifs at h
  cases h
  exact .setlc coding _

theorem portMove_inDone (h : PortOp.onInited c p q .inDone = .next q' out m) : PortMove c p q .inDone q' out m := by
  simp only [PortOp.onInited] at h
  split_ifs at h with ho
  cases hb : readRun (q.inBuf.sel q.inDesc.bufIsA) 0 q.inDesc.count.toNat with
  | none => rw [hb] at h; cases h
  | some bytes => rw [hb] at h; cases h; exact .inDone bytes ho hb

theorem portMove_outDone {bytes : List Byte} (h : PortOp.onInited c p q (.outDone bytes) = .next q' out m) :
    PortMove c p q (.outDone bytes) q' out m := by
  simp only [PortOp.onInited] at h
  split_ifs at h with ho
  cases h
  exact .outDone bytes ho.1 ho.2

/-- An operation of an initialised port that completes or holds is one of the moves. -/
theorem portMove_of_onInited {op : PortOp} (h : op.onInited c p q = .next q' out m) : PortMove c p q op q' out m := by
  cases op with
  | init => cases h
  | put b => exact portMove_put h
  | flush => exact portMove_flush h
  | tick => exact portMove_tick h
  | get => exact portMove_get h
  | peek => exact portMove_peek h
  | inrdy => cases h; exact .inrdy
  | outrdy => cases h; exact .outrdy
  | setlc coding => exact portMove_setlc h
  | getlc => cases h; exact .getlc
  | setcls dtr rts => cases h; exact .setcls dtr rts
  | putGoesOn =>
    simp only [PortOp.onInited] at h
    rcases resumeIn_cases p .put q with ⟨ho, hr⟩ | ⟨ho, hr⟩
    all_goals
      rw [hr] at h
      cases h
    · exact .putStays ho
    · exact .putLifts ho
  | flushGoesOn =>
    simp only [PortOp.onInited] at h
    rcases resumeIn_cases p .flush q with ⟨ho, hr⟩ | ⟨ho, hr⟩
    all_goals
      rw [hr] at h
      cases h
    · exact .flushStays ho
    · exact .flushLifts ho
  | tickGoesOn =>
    simp only [PortOp.onInited] at h
    rcases resumeIn_cases p .flush q with ⟨ho, hr⟩ | ⟨ho, hr⟩
    all_goals
      rw [hr] at h
      cases h
    · exact .tickStays ho
    · exact .tickLifts ho
  | inDone => exact portMove_inDone h
  | outDone bytes => exact portMove_outDone h

/-- An operation of a port that was never initialised and completes is `INIT` (R220). -/
theorem onFresh_next {op : PortOp} (h : op.onFresh c p q = .next q' out m) :
    op = .init ∧ q' = initPort c.packetSize q ∧ out = [.armOut p true false] ∧ m = .clear := by
  cases op <;> cases h
  exact ⟨rfl, rfl, rfl, rfl⟩

end

/-- What an operation of a port, initialised or not, can come to. -/
inductive PortChange (c : Params) (p : Nat) (q : Port) : PortOp → Port → List Record → Mark → Prop
  | init (hi : q.inited = false) : PortChange c p q .init (initPort c.packetSize q) [.armOut p true false] .clear
  | move {op : PortOp} {q' : Port} {out : List Record} {m : Mark} (hi : q.inited = true)
      (hm : PortMove c p q op q' out m) : PortChange c p q op q' out m

/-- An operation on a port that completes or holds changes that port in one of these ways. -/
theorem runOn_next {op : PortOp} {p : Nat} {s t : State} (h : op.runOn p s = .next t) :
    ∃ q q' out m, s.ports[p]? = some q ∧ t = place p q' out m s ∧ PortChange s.params p q op q' out m := by
  unfold PortOp.runOn PortOp.effect at h
  cases hq : s.ports[p]? with
  | none => rw [hq] at h; cases h
  | some q =>
    simp only [hq] at h
    split_ifs at h with hi
    · cases hr : op.onInited s.params p q with
      | next q' out m =>
        rw [hr] at h
        cases h
        exact ⟨q, q', out, m, rfl, rfl, .move hi (portMove_of_onInited hr)⟩
      | fault f => rw [hr] at h; cases h
      | refused r => rw [hr] at h; cases h
    · cases hr : op.onFresh s.params p q with
      | next q' out m =>
        rw [hr] at h
        cases h
        obtain ⟨rfl, rfl, rfl, rfl⟩ := onFresh_next hr
        exact ⟨q, _, _, _, rfl, rfl, .init (Bool.not_eq_true _ ▸ hi)⟩
      | fault f => rw [hr] at h; cases h
      | refused r => rw [hr] at h; cases h

/-- The same of an initialised port. -/
theorem runOn_next_inited {op : PortOp} {p : Nat} {s t : State} {q : Port} (h : op.runOn p s = .next t)
    (hq : s.ports[p]? = some q) (hi : q.inited = true) :
    ∃ q' out m, t = place p q' out m s ∧ PortMove s.params p q op q' out m := by
  obtain ⟨q0, q', out, m, hq0, ht, hchange⟩ := runOn_next h
  cases hq.symm.trans hq0
  cases hchange with
  | init hfresh => rw [hi] at hfresh; cases hfresh
  | move _ hmove => exact ⟨q', out, m, ht, hmove⟩

/-! ## Where an operation faults -/

/-- The reads of packet-buffer bytes that nothing has written (10_state.md R46, U7): of the next byte to drain, of the first byte
of a packet that is swapped in, of a granted packet. -/
inductive UnwrittenRead (n : Nat) (q : Port) : Prop
  | drained (hl : q.outLen ≠ 0) (hn : nextOut q = none)
  | swapped (ho : q.outDesc.owned = false) (hc : q.outDesc.count ≠ 0) (hn : nextOut (swapOut n q) = none)
  | granted (ho : q.inDesc.owned = true) (hn : readRun (q.inBuf.sel q.inDesc.bufIsA) 0 q.inDesc.count.toNat = none)

section
variable {c : Params} {p : Nat} {q : Port} {f : Fault}

theorem PortStep.result_ne_fault (m : Mark) (r : PortStep) : r.result m ≠ .fault f := by
  cases r <;> exact PortResult.noConfusion

theorem takeResult_fault {out : List Record} (h : takeResult q out = .fault f) : nextOut q = none := by
  unfold takeResult at h
  cases hb : nextOut q with
  | none => rfl
  | some b => rw [hb] at h; cases h

theorem peekResult_fault {out : List Record} (h : peekResult q out = .fault f) : q.outLen ≠ 0 ∧ nextOut q = none := by
  unfold peekResult at h
  split_ifs at h with hl
  cases hb : nextOut q with
  | none => exact ⟨hl, rfl⟩
  | some b => rw [hb] at h; cases h

theorem onInited_get_fault (h : PortOp.onInited c p q .get = .fault f) : UnwrittenRead c.packetSize q := by
  simp only [PortOp.onInited] at h
  split_ifs at h with hl ho hc
  · exact .drained hl (takeResult_fault h)
  · exact .swapped (Bool.not_eq_true _ ▸ ho) hc (takeResult_fault h)

theorem onInited_peek_fault (h : PortOp.onInited c p q .peek = .fault f) : UnwrittenRead c.packetSize q := by
  simp only [PortOp.onInited] at h
  split_ifs at h with hs
  · obtain ⟨hc, hn⟩ := peekResult_fault h
    exact .swapped hs.2 hc hn
  · obtain ⟨hl, hn⟩ := peekResult_fault h
    exact .drained hl hn

theorem onInited_inDone_fault (h : PortOp.onInited c p q .inDone = .fault f) : UnwrittenRead c.packetSize q := by
  simp only [PortOp.onInited] at h
  split_ifs at h with ho
  cases hb : readRun (q.inBuf.sel q.inDesc.bufIsA) 0 q.inDesc.count.toNat with
  | none => exact .granted ho hb
  | some bytes => rw [hb] at h; cases h

/-- Only `GET`, `PEEK` and `HWEP.INDONE` read packet-buffer bytes. -/
theorem onInited_fault {op : PortOp} (h : op.onInited c p q = .fault f) : UnwrittenRead c.packetSize q := by
  cases op with
  | get => exact onInited_get_fault h
  | peek => exact onInited_peek_fault h
  | inDone => exact onInited_inDone_fault h
  | put b =>
    simp only [PortOp.onInited] at h
    split at h
    · cases h
    split_ifs at h
    exact absurd h (PortStep.result_ne_fault _ _)
  | flush =>
    simp only [PortOp.onInited] at h
    split at h
    · cases h
    · exact absurd h (PortStep.result_ne_fault _ _)
  | tick =>
    simp only [PortOp.onInited] at h
    split_ifs at h
    exact absurd h (PortStep.result_ne_fault _ _)
  | setlc coding =>
    simp only [PortOp.onInited] at h
    split_ifs at h
  | outDone bytes =>
    simp only [PortOp.onInited] at h
    split_ifs at h
  | putGoesOn => exact absurd h (PortStep.result_ne_fault _ _)
  | flushGoesOn => exact absurd h (PortStep.result_ne_fault _ _)
  | tickGoesOn => exact absurd h (PortStep.result_ne_fault _ _)
  | _ => cases h

/-- A port that was never initialised gives nothing to read. -/
theorem onFresh_ne_fault {op : PortOp} : op.onFresh c p q ≠ .fault f := by
  cases op <;> exact PortResult.noConfusion

end

/-- An operation faults only on an initialised port, and there only if it reads a byte that is not written (U7). -/
theorem runOn_fault {op : PortOp} {p : Nat} {s : State} {f : Fault} (h : op.runOn p s = .fault f) :
    ∃ q, s.ports[p]? = some q ∧ q.inited = true ∧ UnwrittenRead s.params.packetSize q := by
  unfold PortOp.runOn PortOp.effect at h
  cases hq : s.ports[p]? with
  | none => rw [hq] at h; cases h
  | some q =>
    simp only [hq] at h
    split_ifs at h with hi
    · cases hr : op.onInited s.params p q with
      | next q' out m => rw [hr] at h; cases h
      | refused r => rw [hr] at h; cases h
      | fault e => exact ⟨q, rfl, hi, onInited_fault hr⟩
    · cases hr : op.onFresh s.params p q with
      | next q' out m => rw [hr] at h; cases h
      | refused r => rw [hr] at h; cases h
      | fault e => exact absurd hr onFresh_ne_fault

end Sys2Proof.Machine
end

section
/-! The step (00_scope.md R8, R9): which operation it runs, and everything it can come to: a refusal, a step that reaches no port,
or one operation of one port. -/

namespace Sys2Proof.Machine

/-! ## Which operation a step runs -/

section
variable {s : State} {rest : List Turn}

theorem step_of_sched {u : Turn} (hs : s.sched = u :: rest) : step s = runTurn u { s with sched := rest } := by
  simp only [step, takeTurn, hs]

theorem step_of_idle (hs : s.sched = []) : step s = .next s := by
  simp only [step, takeTurn, hs]

/-- `APP` at no hold issues the next command of its program (R9). -/
theorem step_app_issues {c : Cmd} {cs : List Cmd} (hs : s.sched = .app :: rest) (hh : s.appHold = none)
    (hp : s.appProg = c :: cs) : step s = issue .app c { s with sched := rest, appProg := cs } := by
  simp only [step_of_sched hs, runTurn, turnApp, hh, hp]

/-- `APP` at a hold goes on with its command (R9 (a)). -/
theorem step_app_goesOn {h : AppHold} (hs : s.sched = .app :: rest) (hh : s.appHold = some h) :
    step s = resumeApp h { s with sched := rest, appHold := none } := by
  simp only [step_of_sched hs, runTurn, turnApp, hh]

theorem step_app_idles (hs : s.sched = .app :: rest) (hh : s.appHold = none) (hp : s.appProg = []) :
    step s = .next { s with sched := rest } := by
  simp only [step_of_sched hs, runTurn, turnApp, hh, hp]

theorem step_tick_issues {c : Cmd} (hs : s.sched = .tick c :: rest) (hh : s.tickHold = none) :
    step s = issue .tick c { s with sched := rest } := by
  simp only [step_of_sched hs, runTurn, turnTick, hh]

/-- A tick that arrives while the tick handler stands at a hold is lost (60_exceptions.md R266). -/
theorem step_tick_lost {c : Cmd} {p : Nat} (hs : s.sched = .tick c :: rest) (hh : s.tickHold = some p) :
    step s = .next { s with sched := rest } := by
  simp only [step_of_sched hs, runTurn, turnTick, hh]

theorem step_tick_goesOn {p : Nat} (hs : s.sched = .tickResume :: rest) (hh : s.tickHold = some p) :
    step s = resumeTick p { s with sched := rest, tickHold := none } := by
  simp only [step_of_sched hs, runTurn, turnTickResume, hh]

theorem step_tick_idles (hs : s.sched = .tickResume :: rest) (hh : s.tickHold = none) :
    step s = .next { s with sched := rest } := by
  simp only [step_of_sched hs, runTurn, turnTickResume, hh]

theorem step_dec_idles (hs : s.sched = .dec :: rest) (hh : s.dec.sclHeld = false) :
    step s = .next { s with sched := rest } := by
  simp [step_of_sched hs, runTurn, turnDec, hh]

end

/-- A decoded command runs for the agent that issues it, and is refused for any other (30_encoding.md R106). -/
theorem issue_of_decoded {who : Issuer} {c : Cmd} {i : Instr} (hd : decodeCommand c = .ok i) (hw : issuerOf i = who)
    (s : State) : issue who c s = exec i s := by
  simp only [issue, hd, hw, if_true]

theorem issue_of_undecoded {who : Issuer} {c : Cmd} {e : DecodeError} (hd : decodeCommand c = .error e) (s : State) :
    issue who c s = .refused (.undecodable e) := by
  simp only [issue, hd]

theorem issue_of_wrongIssuer {who : Issuer} {c : Cmd} {i : Instr} (hd : decodeCommand c = .ok i) (hw : issuerOf i ≠ who)
    (s : State) : issue who c s = .refused .wrongIssuer := by
  simp only [issue, hd, hw, if_false]

/-- Every command but `TICK` is `APP`'s (R106). -/
theorem issuerOf_eq_app {i : Instr} (h : ∀ p, i ≠ .tick p) : issuerOf i = .app := by
  cases i with
  | tick p => exact absurd rfl (h p)
  | _ => rfl

theorem issuerOf_eq_tick {i : Instr} (h : issuerOf i = .tick) : ∃ p, i = .tick p := by
  cases i with
  | tick p => exact ⟨p, rfl⟩
  | _ => cases h

/-- Settles O7: each kind of turn that runs an operation. -/
theorem stepRunsDecodedOperation : Obligations.StepRunsDecodedOperation := by
  unfold Obligations.StepRunsDecodedOperation
  refine ⟨?_, ?_, fun s rest hs hh => step_dec_pending hs hh, fun s rest p b hs hh => step_app_goesOn hs hh,
    fun s rest p hs hh => step_app_goesOn hs hh, fun s rest p hs hh => step_app_goesOn hs hh⟩
  · intro s rest c cs i hs hh hp hd hi
    rw [step_app_issues hs hh hp, issue_of_decoded hd (issuerOf_eq_app hi)]
  · intro s rest c p hs hh hd
    rw [step_tick_issues hs hh]
    exact issue_of_decoded hd rfl _

/-- Settles O16: the step is the normative handler, which ends with the release of the clock (R142). -/
theorem everyEventCompletes : Obligations.EveryEventCompletes := by
  unfold Obligations.EveryEventCompletes
  intro s rest hs hh
  exact ⟨_, decStepIsNormativeHandler s rest hs hh, rfl⟩

/-! ## A word placed where the step fetches -/

/-- A status word placed is raised as the pending event, with received byte 0 (46_environment.md R242). -/
theorem withFetchWord_evt {s : State} {w : Nat} (hw : w < 32) : s.withFetchWord 8 w = placeCode (.evt (BitVec.ofNat 5 w)) s := by
  simp only [State.withFetchWord, codeOfTableWord, Nat.le_refl, if_true, hw]

/-- A command word of the opcode table with its payload bytes. -/
def tableCmd (w : Nat) : Cmd := ⟨BitVec.ofNat 16 w, bytesFrom w 2 (payloadCount (BitVec.ofNat 16 w))⟩

theorem withFetchWord_cmd (s : State) (w : Nat) : s.withFetchWord 16 w = placeCode (.cmd (tableCmd w)) s := rfl

/-- A command row decodes as the command it stands for: commands do not read `phaseCount` (30_encoding.md R113). -/
theorem decodeTableWord_cmd {w : Nat} {i : Instr} (h : decodeTableWord 16 w = some i) : decodeCommand (tableCmd w) = .ok i := by
  have hdecode : decodeTableWord 16 w =
      match decodeCommand (tableCmd w) with
      | .ok i => some i
      | .error _ => none := rfl
  rw [hdecode] at h
  cases hd : decodeCommand (tableCmd w) with
  | ok j => rw [hd] at h; cases h; rfl
  | error e => rw [hd] at h; cases h

/-- `op` 3 is that of `TICK` and of no other command (R106). -/
theorem cmdOp_eq_three_iff {c : Cmd} {i : Instr} (h : decodeCommand c = .ok i) : cmdOp c.word = 3 ↔ ∃ p, i = .tick p := by
  unfold decodeCommand at h
  constructor
  · intro h3
    simp only [h3] at h
    exact ⟨_, bare_ok h⟩
  · rintro ⟨p, rfl⟩
    split at h
    case h_4 h3 => exact h3
    case h_9 =>
      split at h <;> cases h
    case h_13 =>
      split at h <;> cases h
    case h_14 =>
      split at h <;> cases h
    all_goals cases bare_ok h

theorem placeCode_tick {c : Cmd} (h : cmdOp c.word = 3) (s : State) :
    placeCode (.cmd c) s = { s with sched := .tick c :: s.sched, tickHold := none } := by
  simp only [placeCode, h]

theorem placeCode_app {c : Cmd} (h : cmdOp c.word ≠ 3) (s : State) :
    placeCode (.cmd c) s = { s with sched := .app :: s.sched, appProg := c :: s.appProg, appHold := none } := by
  simp only [placeCode]

/-- `BF` of a placed status word is its lowest bit. -/
theorem statBF_ofNat (w : Nat) : statBF (BitVec.ofNat 5 w) = decide (w % 2 = 1) := by
  simp only [statBF, BitVec.getLsbD_ofNat, Nat.testBit_zero, Nat.zero_lt_succ, decide_true, Bool.true_and]

/-- Settles O8: the placed word is what the next turn of its agent fetches. -/
theorem placedWordIsRun : Obligations.PlacedWordIsRun := by
  unfold Obligations.PlacedWordIsRun
  refine ⟨fun s w hw => ?_, fun s w i hd hi => ?_, fun s w p hd => ?_⟩
  · rw [withFetchWord_evt hw, step_dec_pending (s := placeCode _ s) rfl rfl]
    simp only [placeCode, raiseEvent, statBF_ofNat, decide_eq_true_eq]
  · have hc := decodeTableWord_cmd hd
    have hop : cmdOp (tableCmd w).word ≠ 3 := by
      rw [ne_eq, cmdOp_eq_three_iff hc]
      exact fun ⟨p, hp⟩ => hi p hp
    rw [withFetchWord_cmd, placeCode_app hop, step_app_issues rfl rfl rfl, issue_of_decoded hc (issuerOf_eq_app hi)]
  · have hc := decodeTableWord_cmd hd
    have hop : cmdOp (tableCmd w).word = 3 := (cmdOp_eq_three_iff hc).mpr ⟨p, rfl⟩
    rw [withFetchWord_cmd, placeCode_tick hop, step_tick_issues rfl rfl]
    exact issue_of_decoded hc rfl _

/-! ## Operations without a port -/

/-- A byte event has no port operand. -/
theorem portOf_of_isEvent {i : Instr} (h : isEvent i = true) : portOf i = none := by
  cases i with
  | i2cStop _ _ _ _ | i2cWaddr _ _ | i2cAhi _ _ | i2cAlo _ _ | i2cWdata _ _ | i2cRaddr _ _ | i2cRnext _ _ => rfl
  | _ => cases h

/-- The stores after a write: the byte at a read/write address, nothing elsewhere (20_memory.md R63). -/
def memAfter (a : Addr) (v : Byte) (m : Memory) : Memory := if writableAt a.toNat then memWrite m a.toNat v else m

/-- The records of a write: `REENUM` exactly at 0x070F (R67). -/
def writeRecords (a : Addr) : List Record := if a = reenumAddr then [.reenum] else []

/-- A write as one update of the stores and the trace. -/
theorem asSet_eq (a : Addr) (v : Byte) (s : State) :
    asSet a v s = { s with mem := memAfter a v s.mem, trace := s.trace ++ writeRecords a } := by
  have htrace : (asSet a v s).trace = s.trace ++ writeRecords a := by
    rw [asSet_trace, writeRecords]
    split_ifs <;> simp
  have hfields : asSet a v s = { s with mem := (asSet a v s).mem, trace := (asSet a v s).trace } := by
    unfold asSet
    repeat' split
    all_goals rfl
  rw [hfields, asSet_mem, htrace, memAfter]

/-- No record of the list is a submission. -/
def noSubmission (out : List Record) : Prop := ∀ p isA len toggle, Record.submitIn p isA len toggle ∉ out

theorem noSubmission_nil : noSubmission [] := by simp [noSubmission]

theorem noSubmission_writeRecords (a : Addr) : noSubmission (writeRecords a) := by
  unfold writeRecords
  split_ifs <;> simp [noSubmission]

/-- What an operation does that reaches parameters, DEC, stores and Telemetry only: in every state that agrees with `s` in these it
leaves the same registers and stores and emits the same records. -/
def ActsOutsidePorts (i : Instr) (s : State) : Prop :=
  ∃ d mem out, noSubmission out ∧
    ∀ u : State, u.params = s.params → u.dec = s.dec → u.mem = s.mem → u.telem = s.telem →
      exec i u = .next { u with dec := d, mem := mem, trace := u.trace ++ out }

/-- An operation that changes DEC alone acts outside the ports. -/
theorem actsOutsidePorts_of_dec {i : Instr} {s : State} {f : State → Dec} (hx : ∀ u, exec i u = .next { u with dec := f u })
    (hf : ∀ u : State, u.params = s.params → u.dec = s.dec → u.mem = s.mem → u.telem = s.telem → f u = f s) :
    ActsOutsidePorts i s := by
  refine ⟨f s, s.mem, [], noSubmission_nil, fun u hp hd hm ht => ?_⟩
  rw [hx, hf u hp hd hm ht, ← hm, List.append_nil]

/-- The registers of DEC after each class of event but `I2C.WDATA`, as `afterEvent` and the action of the class. -/
theorem exec_event_dec {i : Instr} (hi : isEvent i = true) (hw : ∀ st bf, i ≠ .i2cWdata st bf) :
    ∃ f : State → Dec, (∀ u, exec i u = .next { u with dec := f u }) ∧
      ∀ s u : State, u.params = s.params → u.dec = s.dec → u.mem = s.mem → u.telem = s.telem → f u = f s := by
  cases i with
  | i2cStop da st rw bf =>
    refine ⟨fun u => afterEvent (nextPhase da u.dec.phaseCount) bf .idle false u.dec, fun u => rfl, fun s u _ hd _ _ => ?_⟩
    simp only [hd]
  | i2cWaddr st bf =>
    refine ⟨fun u => afterEvent .address bf .addrHi false u.dec, fun u => rfl, fun s u _ hd _ _ => ?_⟩
    simp only [hd]
  | i2cAhi st bf =>
    refine ⟨fun u => (closeEvent .addrLo false (stageHigh (openEvent (.data 0) bf u))).dec, fun u => rfl,
      fun s u hp hd _ _ => ?_⟩
    simp only [closeEvent_dec, stageHigh_dec, openEvent_dec, openEvent_params, hp, hd]
  | i2cAlo st bf =>
    refine ⟨fun u => (closeEvent .streamWrite false (commitLow (openEvent (.data 1) bf u))).dec, fun u => rfl,
      fun s u _ hd _ _ => ?_⟩
    simp only [closeEvent_dec, commitLow_dec, openEvent_dec, hd]
  | i2cWdata st bf => exact absurd rfl (hw st bf)
  | i2cRaddr st bf =>
    refine ⟨_, fun u => (exec_i2cRaddr st bf u).trans (congrArg _ (closeEvent_readTurn_openEvent _ bf _ _ u)),
      fun s u hp hd hm ht => ?_⟩
    simp only [hd, asGet_congr hp hm ht]
  | i2cRnext st bf =>
    refine ⟨_, fun u => (exec_i2cRnext st bf u).trans (congrArg _ (closeEvent_readTurn_openEvent _ bf _ _ u)),
      fun s u hp hd hm ht => ?_⟩
    simp only [hd, asGet_congr hp hm ht]
  | _ => cases hi

/-- The streamed write as one update (40_i2c_decoder.md R138). -/
theorem exec_i2cWdata_eq (st bf : Bool) (s : State) :
    exec (.i2cWdata st bf) s = .next { asSet s.dec.pointer (if bf then s.dec.rxReg else s.dec.stagedValue) s with
      dec := { afterEvent (nextPhase true s.dec.phaseCount) bf .streamWrite false s.dec with
        pointer := s.dec.pointer + 1 } } := by
  rw [exec_i2cWdata, writeTurn_eq, asSet_eq, asSet_eq]
  rfl

theorem actsOutsidePorts_asset (a : Addr) (v : Byte) (s : State) : ActsOutsidePorts (.asset a v) s := by
  refine ⟨s.dec, memAfter a v s.mem, writeRecords a, noSubmission_writeRecords a, fun u hp hd hm ht => ?_⟩
  rw [← hd, ← hm]
  exact congrArg Host.Outcome.next (asSet_eq a v u)

theorem actsOutsidePorts_i2cWdata (st bf : Bool) (s : State) : ActsOutsidePorts (.i2cWdata st bf) s := by
  refine ⟨{ afterEvent (nextPhase true s.dec.phaseCount) bf .streamWrite false s.dec with pointer := s.dec.pointer + 1 },
    memAfter s.dec.pointer (if bf then s.dec.rxReg else s.dec.stagedValue) s.mem, writeRecords s.dec.pointer,
    noSubmission_writeRecords _, fun u hp hd hm ht => ?_⟩
  rw [exec_i2cWdata_eq, asSet_eq, hd, hm]

/-- Every operation without a port operand, but the reserved codes, acts outside the ports (10_state.md R30). -/
theorem actsOutsidePorts {i : Instr} (hp : portOf i = none) (hr : ∀ w, i ≠ .reserved w) (s : State) :
    ActsOutsidePorts i s := by
  by_cases hi : isEvent i = true
  · by_cases hw : ∃ st bf, i = .i2cWdata st bf
    · obtain ⟨st, bf, rfl⟩ := hw
      exact actsOutsidePorts_i2cWdata st bf s
    · obtain ⟨f, hx, hf⟩ := exec_event_dec hi (fun st bf e => hw ⟨st, bf, e⟩)
      exact actsOutsidePorts_of_dec hx (hf s)
  cases i with
  | i2creset =>
    refine actsOutsidePorts_of_dec (f := fun u => clearLatches u.dec) (fun u => rfl) fun u _ hd _ _ => ?_
    simp only [hd]
  | asget a =>
    refine ⟨s.dec, s.mem, [.ret (.byte (asGet s a))], by simp [noSubmission], fun u hp hd hm ht => ?_⟩
    rw [← hd, ← hm, ← asGet_congr hp hm ht]
    rfl
  | asset a v => exact actsOutsidePorts_asset a v s
  | reserved w => exact absurd rfl (hr w)
  | _ => simp [portOf, isEvent] at hp hi

/-! ## A step that reaches no port -/

/-- `t` has the ports and holds of `s`; stores and DEC keep their form, and no submission is emitted. -/
structure OffPorts (s t : State) : Prop where
  params : t.params = s.params
  telem : t.telem.length = s.telem.length
  ports : t.ports = s.ports
  appHold : t.appHold = s.appHold
  tickHold : t.tickHold = s.tickHold
  mem : Memory.wf s.mem = true → Memory.wf t.mem = true
  dec : DecOk s.dec → DecOk t.dec
  trace : ∃ out, t.trace = s.trace ++ out ∧ noSubmission out

/-- A step of which only the schedule or the program is seen. -/
theorem OffPorts.of_sched (s : State) (sched : List Turn) (prog : List Cmd) :
    OffPorts s { s with sched := sched, appProg := prog } :=
  ⟨rfl, rfl, rfl, rfl, rfl, id, id, [], by simp, noSubmission_nil⟩

/-- An operation that runs after the turn was taken off. -/
theorem OffPorts.after_sched {s t : State} {sched : List Turn} {prog : List Cmd}
    (h : OffPorts { s with sched := sched, appProg := prog } t) : OffPorts s t :=
  ⟨h.params, h.telem, h.ports, h.appHold, h.tickHold, h.mem, h.dec, h.trace⟩

/-- After a byte event at a `phaseCount` at which its class arises, DEC agrees with its label (40_i2c_decoder.md R148). -/
theorem exec_event_decOk {i : Instr} {s t : State} (hi : isEvent i = true) (ha : arisesAt i s.dec.phaseCount = true)
    (h : exec i s = .next t) : DecOk t.dec := by
  cases i with
  | i2cStop da st rw bf => cases h; constructor <;> simp
  | i2cWaddr st bf => cases h; constructor <;> simp [phaseInt]
  | i2cAhi st bf => cases h; constructor <;> simp [phaseInt]
  | i2cAlo st bf => cases h; constructor <;> simp [phaseInt]
  | i2cWdata st bf =>
    have hph : 1 ≤ phaseInt s.dec.phaseCount := of_decide_eq_true ha
    rw [exec_i2cWdata_eq] at h
    cases h
    constructor <;> simp only [afterEvent, reduceCtorEq, false_implies, Bool.false_eq_true]
    intro _
    rw [phaseInt_nextPhase_true]
    omega
  | i2cRaddr st bf => cases h; constructor <;> simp
  | i2cRnext st bf => cases h; constructor <;> simp
  | _ => cases hi

/-- An operation without a port operand that completes reaches no port. -/
theorem offPorts_of_exec {i : Instr} {s t : State} (hp : portOf i = none) (ha : arisesAt i s.dec.phaseCount = true)
    (h : exec i s = .next t) : OffPorts s t := by
  have hr : ∀ w, i ≠ .reserved w := by
    rintro w rfl
    cases h
  obtain ⟨d, mem, out, hout, hx⟩ := actsOutsidePorts hp hr s
  have ht : t = { s with dec := d, mem := mem, trace := s.trace ++ out } := by
    have := hx s rfl rfl rfl rfl
    rw [h] at this
    cases this
    rfl
  have hforms : (Memory.wf s.mem = true → Memory.wf t.mem = true) ∧ (DecOk s.dec → DecOk t.dec) := by
    by_cases hi : isEvent i = true
    · obtain ⟨-, -, -, -, -, -, -, hmem⟩ := exec_event_frame hi h
      exact ⟨hmem, fun _ => exec_event_decOk hi ha h⟩
    · cases i with
      | i2creset => cases h; exact ⟨id, fun hd => ⟨hd.addrHi, hd.addrLo, hd.streamWrite, hd.sampleDue⟩⟩
      | asget a => cases h; exact ⟨id, id⟩
      | asset a v => cases h; exact ⟨fun hm => wf_asSet a v hm, fun hd => (asSet_dec a v s).symm ▸ hd⟩
      | reserved w => cases h
      | _ => simp [portOf, isEvent] at hp hi
  exact ⟨by rw [ht], by rw [ht], by rw [ht], by rw [ht], by rw [ht], hforms.1, hforms.2, out, by rw [ht], hout⟩

end Sys2Proof.Machine
end

section
/-! Everything a step can come to. -/

namespace Sys2Proof.Machine

/-- The step at `s` runs the operation `op` of port `p`, from the state `b` that is left when the turn, and with it a command or the
mark of a hold, is taken off (00_scope.md R8, R9; 30_encoding.md R106). -/
inductive Runs (s : State) : Nat → PortOp → State → Prop
  | issued {rest : List Turn} {c : Cmd} {cs : List Cmd} {i : Instr} {p : Nat} {op : PortOp} (hs : s.sched = .app :: rest)
      (hh : s.appHold = none) (hp : s.appProg = c :: cs) (hd : decodeCommand c = .ok i) (ho : portOp i = some (p, op))
      (hi : ∀ p, i ≠ .tick p) : Runs s p op { s with sched := rest, appProg := cs }
  | ticked {rest : List Turn} {c : Cmd} {p : Nat} (hs : s.sched = .tick c :: rest) (hh : s.tickHold = none)
      (hd : decodeCommand c = .ok (.tick p)) : Runs s p .tick { s with sched := rest }
  | appGoesOn {rest : List Turn} {h : AppHold} (hs : s.sched = .app :: rest) (hh : s.appHold = some h) :
      Runs s (holdPort h) (holdOp h) { s with sched := rest, appHold := none }
  | tickGoesOn {rest : List Turn} {p : Nat} (hs : s.sched = .tickResume :: rest) (hh : s.tickHold = some p) :
      Runs s p .tickGoesOn { s with sched := rest, tickHold := none }
  | inDone {rest : List Turn} {p : Nat} (hs : s.sched = .hwepInDone p :: rest) : Runs s p .inDone { s with sched := rest }
  | outDone {rest : List Turn} {p : Nat} {bytes : List Byte} (hs : s.sched = .hwepOutDone p bytes :: rest) :
      Runs s p (.outDone bytes) { s with sched := rest }

/-- `b` differs from `s` at most in the schedule, the program and the holds. -/
structure SameBlock (s b : State) : Prop where
  params : b.params = s.params
  dec : b.dec = s.dec
  mem : b.mem = s.mem
  telem : b.telem = s.telem
  ports : b.ports = s.ports
  trace : b.trace = s.trace

theorem Runs.sameBlock {s b : State} {p : Nat} {op : PortOp} (h : Runs s p op b) : SameBlock s b := by
  cases h <;> exact ⟨rfl, rfl, rfl, rfl, rfl, rfl⟩

/-- The outcome of a step: refused, a next state with every port as it was, or that of one operation of one port. -/
inductive StepOutcome (s : State) : Result → Prop
  | refused (r : Refusal) : StepOutcome s (.refused r)
  | off {t : State} (h : OffPorts s t) : StepOutcome s (.next t)
  | runs {p : Nat} {op : PortOp} {b : State} (h : Runs s p op b) : StepOutcome s (op.runOn p b)

/-- Taking off the turn, and a command, changes nothing else. -/
theorem StepOutcome.idle (s : State) (rest : List Turn) : StepOutcome s (.next { s with sched := rest }) :=
  .off (OffPorts.of_sched s rest s.appProg)

/-- A step that runs an operation without a port operand. -/
theorem StepOutcome.of_exec {s : State} {i : Instr} {sched : List Turn} {prog : List Cmd} (hp : portOf i = none)
    (ha : arisesAt i s.dec.phaseCount = true) : StepOutcome s (exec i { s with sched := sched, appProg := prog }) := by
  by_cases hr : ∃ w, i = .reserved w
  · obtain ⟨w, rfl⟩ := hr
    exact .refused _
  · obtain ⟨d, mem, out, -, hx⟩ := actsOutsidePorts hp (fun w e => hr ⟨w, e⟩) { s with sched := sched, appProg := prog }
    have hnext := hx _ rfl rfl rfl rfl
    have hoff : OffPorts { s with sched := sched, appProg := prog } _ := offPorts_of_exec hp ha hnext
    rw [hnext]
    exact .off hoff.after_sched

theorem stepOutcome_app {s : State} {rest : List Turn} (hs : s.sched = .app :: rest) : StepOutcome s (step s) := by
  cases hh : s.appHold with
  | some h =>
    rw [step_app_goesOn hs hh, resumeApp_eq]
    exact .runs (.appGoesOn hs hh)
  | none =>
    cases hp : s.appProg with
    | nil => rw [step_app_idles hs hh hp]; exact .idle s rest
    | cons c cs =>
      rw [step_app_issues hs hh hp]
      cases hd : decodeCommand c with
      | error e => rw [issue_of_undecoded hd]; exact .refused _
      | ok i =>
        by_cases hw : issuerOf i = .app
        · rw [issue_of_decoded hd hw]
          have hi : ∀ p, i ≠ .tick p := by
            rintro p rfl
            cases hw
          cases hop : portOp i with
          | some pop => rw [exec_portOp hop]; exact .runs (.issued hs hh hp hd hop hi)
          | none =>
            have hport : portOf i = none := by rw [portOf_eq_portOp, hop]; rfl
            exact .of_exec hport (decodeCommand_fits hd _).2
        · rw [issue_of_wrongIssuer hd hw]; exact .refused _

theorem stepOutcome_tick {s : State} {rest : List Turn} {c : Cmd} (hs : s.sched = .tick c :: rest) :
    StepOutcome s (step s) := by
  cases hh : s.tickHold with
  | some p => rw [step_tick_lost hs hh]; exact .idle s rest
  | none =>
    rw [step_tick_issues hs hh]
    cases hd : decodeCommand c with
    | error e => rw [issue_of_undecoded hd]; exact .refused _
    | ok i =>
      by_cases hw : issuerOf i = .tick
      · obtain ⟨p, rfl⟩ := issuerOf_eq_tick hw
        rw [issue_of_decoded hd hw, exec_portOp rfl]
        exact .runs (.ticked hs hh hd)
      · rw [issue_of_wrongIssuer hd hw]; exact .refused _

theorem stepOutcome_tickResume {s : State} {rest : List Turn} (hs : s.sched = .tickResume :: rest) :
    StepOutcome s (step s) := by
  cases hh : s.tickHold with
  | none => rw [step_tick_idles hs hh]; exact .idle s rest
  | some p => rw [step_tick_goesOn hs hh, resumeTick_eq]; exact .runs (.tickGoesOn hs hh)

theorem stepOutcome_dec {s : State} {rest : List Turn} (hs : s.sched = .dec :: rest) : StepOutcome s (step s) := by
  cases hh : s.dec.sclHeld with
  | false => rw [step_dec_idles hs hh]; exact .idle s rest
  | true =>
    rw [step_dec_pending hs hh]
    exact .of_exec (portOf_of_isEvent (decodeEvent_isEvent _ _)) (decodeEvent_fits _ _).2

/-- A sample, a latch and a raised event keep the agreement of DEC with its label. -/
theorem DecOk.congr {d d' : Dec} (h : DecOk d) (hl : d'.busPhase = d.busPhase) (hp : d'.phaseCount = d.phaseCount)
    (hd : d'.sampleDue = true → d.sampleDue = true) : DecOk d' := by
  constructor <;> rw [hl]
  · rw [hp]; exact h.addrHi
  · rw [hp]; exact h.addrLo
  · rw [hp]; exact h.streamWrite
  · exact fun hdue => h.sampleDue (hd hdue)

theorem stepOutcome_event {s : State} {rest : List Turn} {st : BitVec 5} {rx : Byte}
    (hs : s.sched = .i2cpEvent st rx :: rest) : StepOutcome s (step s) := by
  simp only [step_of_sched hs, runTurn, envEvent]
  split_ifs
  · exact .refused _
  · exact .off ⟨rfl, rfl, rfl, rfl, rfl, id, fun hd => hd.congr rfl rfl id, [], by simp, noSubmission_nil⟩

theorem stepOutcome_sample {s : State} {rest : List Turn} (hs : s.sched = .i2cpSample :: rest) : StepOutcome s (step s) := by
  simp only [step_of_sched hs, runTurn, envSample]
  split_ifs
  · exact .off ⟨rfl, rfl, rfl, rfl, rfl, id, fun hd => hd.congr rfl rfl (fun hdue => by cases hdue), [.tx s.dec.txReg], rfl,
      by simp [noSubmission]⟩
  · exact .refused _

theorem stepOutcome_telem {s : State} {rest : List Turn} {ch : Nat} {rec : TelemRec}
    (hs : s.sched = .prodTelem ch rec :: rest) : StepOutcome s (step s) := by
  simp only [step_of_sched hs, runTurn, envTelem]
  split_ifs
  · exact .off ⟨rfl, List.length_set, rfl, rfl, rfl, id, id, [], by simp, noSubmission_nil⟩
  · exact .refused _

/-- Everything a step can come to. -/
theorem stepOutcome (s : State) : StepOutcome s (step s) := by
  cases hs : s.sched with
  | nil => rw [step_of_idle hs]; exact .idle s s.sched
  | cons u rest =>
    cases u with
    | app => exact stepOutcome_app hs
    | tick c => exact stepOutcome_tick hs
    | tickResume => exact stepOutcome_tickResume hs
    | dec => exact stepOutcome_dec hs
    | hwepInDone p =>
      rw [step_of_sched hs, runTurn, envInDone_eq]
      exact .runs (.inDone hs)
    | hwepOutDone p bytes =>
      rw [step_of_sched hs, runTurn, envOutDone_eq]
      exact .runs (.outDone hs)
    | i2cpEvent st rx => exact stepOutcome_event hs
    | i2cpSample => exact stepOutcome_sample hs
    | i2cpLatch w =>
      rw [step_of_sched hs]
      exact .off ⟨rfl, rfl, rfl, rfl, rfl, id, fun hd => hd.congr (by simp) (by simp) (by simp), [], by simp, noSubmission_nil⟩
    | prodTelem ch rec => exact stepOutcome_telem hs
    | prodReadPtr =>
      rw [step_of_sched hs]
      exact .off ⟨rfl, rfl, rfl, rfl, rfl, id, id, [.ret (.pointer s.dec.pointer)], rfl, by simp [noSubmission]⟩
    | prodGet a => rw [step_of_sched hs]; exact .of_exec (i := .asget a) rfl rfl
    | prodOutput k v => rw [step_of_sched hs]; exact .of_exec (i := .asset (outputAddr k) v) rfl rfl

/-- A step that completes reaches no port, or changes one port in one of the ways of `PortChange`. -/
theorem step_next_cases {s t : State} (h : step s = .next t) :
    OffPorts s t ∨ ∃ p op b q q' out m, Runs s p op b ∧ s.ports[p]? = some q ∧ t = place p q' out m b ∧
      PortChange s.params p q op q' out m := by
  have ho := stepOutcome s
  rw [h] at ho
  generalize hres : Host.Outcome.next t = res at ho
  cases ho with
  | refused r => cases hres
  | off hoff => cases hres; exact .inl hoff
  | @runs p op b hruns =>
    obtain ⟨q, q', out, m, hq, ht, hchange⟩ := runOn_next hres.symm
    rw [hruns.sameBlock.ports] at hq
    rw [hruns.sameBlock.params] at hchange
    exact .inr ⟨p, op, b, q, q', out, m, hruns, hq, ht, hchange⟩

/-- What a step does to an initialised port `p`: nothing, or a move of an operation that it runs on `p`. -/
theorem step_port_cases {s t : State} {p : Nat} {q q' : Port} (h : step s = .next t) (hq : s.ports[p]? = some q)
    (hq' : t.ports[p]? = some q') (hi : q.inited = true) :
    q' = q ∨ ∃ op b out m, Runs s p op b ∧ t = place p q' out m b ∧ PortMove s.params p q op q' out m := by
  rcases step_next_cases h with hoff | ⟨p0, op, b, q0, q1, out, m, hruns, hq0, rfl, hchange⟩
  · rw [hoff.ports, hq] at hq'
    exact .inl (Option.some.inj hq').symm
  have hports := hruns.sameBlock.ports
  rw [getElem?_place (hports ▸ hq0), hports, hq] at hq'
  split_ifs at hq' with hp
  · subst hp
    cases hq'
    cases hq.symm.trans hq0
    cases hchange with
    | init hfresh => rw [hi] at hfresh; cases hfresh
    | move _ hmove => exact .inr ⟨op, b, out, m, hruns, rfl, hmove⟩
  · exact .inl (Option.some.inj hq').symm

end Sys2Proof.Machine
end

section
/-! Every step keeps the invariant (10_state.md R38, R39, R44 to R46; 42_fifo_in.md R171, R175, R177): the new value of a port is
good by itself, and the holds still say which port waits. -/

namespace Sys2Proof.Machine

/-! ## Every move leaves a good port -/

section
variable {c : Params} {p : Nat} {q : Port}

/-- With no hand-off pending the guard is clear (R38). -/
theorem PortOk.guard_clear {n : Nat} (h : PortOk n q) (hw : q.inWait = none) : q.flushInProgress = false := by
  by_contra hf
  obtain ⟨w, hw', -⟩ := h.guard.mp (Bool.not_eq_false _ ▸ hf)
  rw [hw] at hw'
  cases hw'

/-- With no hand-off pending the buffer being filled is not full (R46). -/
theorem PortOk.inLen_lt {n : Nat} (h : PortOk n q) (hw : q.inWait = none) : q.inLen.toNat < n :=
  h.inLenLt (by simp [hw])

theorem buffersOk_receiveOut {n : Nat} (h : buffersOk n q = true) (bytes : List Byte) (hb : bytes.length ≤ n) :
    buffersOk n (receiveOut bytes q) = true := by
  rw [buffersOk_iff] at h ⊢
  exact ⟨h.1, fun x => bufferOk_sel_upd h.2 (bufferOk_cellsFrom bytes hb) _ x⟩

/-- A good port of which only fields outside its buffers changed. -/
theorem GoodPort.congr {n : Nat} {q' : Port} (h : GoodPort n q) (hok : PortOk n q') (hin : q'.inBuf = q.inBuf)
    (hout : q'.outBuf = q.outBuf) (hi : q'.inited = q.inited) : GoodPort n q' :=
  ⟨buffersOk_congr hin hout h.buffers, hok, hi.trans h.inited⟩

section
variable (hc : ParamsOk c) (h : GoodPort c.packetSize q)
include hc h

theorem goodPort_appendIn (hw : q.inWait = none) (b : Byte) (hn : (q.inLen + 1).toNat ≠ c.packetSize) :
    GoodPort c.packetSize (appendIn b q) :=
  ⟨buffersOk_appendIn h.buffers (h.ok.inLen_lt hw) b, portOk_appendIn h.ok hw hc.packetLe b hn, h.inited⟩

theorem goodPort_putGrants (hw : q.inWait = none) (b : Byte) (hn : (q.inLen + 1).toNat = c.packetSize) :
    GoodPort c.packetSize (handedOff .put (appendIn b q)) := by
  have hlt := h.ok.inLen_lt hw
  refine ⟨buffersOk_congr (by simp [handedOff]) (by simp [handedOff]) (buffersOk_appendIn h.buffers hlt b), ?_,
    by simp [handedOff, h.inited]⟩
  exact portOk_grantIn (portCore_appendIn h.ok.core hlt hc.packetLe b) hc.packetPos .put le_rfl hn.le (fun _ => hn)
    (fun _ => h.ok.guard_clear hw)

theorem goodPort_putHolds (hw : q.inWait = none) (b : Byte) (hn : (q.inLen + 1).toNat = c.packetSize) :
    GoodPort c.packetSize { appendIn b q with inWait := some ⟨BitVec.ofNat 8 c.packetSize, .put⟩ } :=
  ⟨buffersOk_congr rfl rfl (buffersOk_appendIn h.buffers (h.ok.inLen_lt hw) b),
    portOk_putWait h.ok hw hc.packetLe b hn, h.inited⟩

/-- A flush starts its hand-off under the guard (R173). -/
theorem goodPort_flushGrants (hw : q.inWait = none) :
    GoodPort c.packetSize (handedOff .flush { q with flushInProgress := true }) := by
  have hcore : PortCore c.packetSize { q with flushInProgress := true } := { h.ok.core with }
  refine h.congr ?_ (by simp [handedOff]) (by simp [handedOff]) (by simp [handedOff])
  exact portOk_grantIn hcore hc.packetPos .flush le_rfl (h.ok.inLen_lt hw).le (fun e => by cases e) (fun e => by cases e)

end

variable (h : GoodPort c.packetSize q)
include h

theorem goodPort_counter (x : Byte) : GoodPort c.packetSize { q with timeoutCounter := x } :=
  h.congr (portOk_counters h.ok x q.lineCoding q.controlLine) rfl rfl rfl

theorem goodPort_flushHolds (hw : q.inWait = none) (hs : q.inLen ≠ 0 ∨ q.zlpPending = true) :
    GoodPort c.packetSize { q with flushInProgress := true, inWait := some ⟨q.inLen, .flush⟩ } :=
  h.congr (portOk_flushWait h.ok hw hs) rfl rfl rfl

theorem goodPort_swapOut (ho : q.outDesc.owned = false) : GoodPort c.packetSize (swapOut c.packetSize q) :=
  h.congr (portOk_swapOut h.ok ho) rfl rfl rfl

theorem goodPort_take (hl : q.outLen ≠ 0) : GoodPort c.packetSize { q with outLen := q.outLen - 1 } :=
  h.congr (portOk_take h.ok hl) rfl rfl rfl

end

/-! ## An operation that leaves the pending hand-off as it was -/

theorem SameBlock.refl (s : State) : SameBlock s s := ⟨rfl, rfl, rfl, rfl, rfl, rfl⟩

/-- An operation of a port, run after its turn was taken off, changes that port alone. -/
theorem SameBlock.place_onlyPort {s b : State} (h : SameBlock s b) (p : Nat) (q : Port) (out : List Record) (m : Mark) :
    OnlyPort s (place p q out m b) p q :=
  ⟨by simp [h.ports], by simp [h.params], by simp [h.telem], by simp [h.mem], by simp [h.dec]⟩

/-- A hold at which no hand-off is pending. -/
def entryHold : AppHold → Bool
  | .putEntry _ _ => true
  | .flushEntry _ => true
  | .getSwap _ => true
  | .putHandoff _ => false
  | .flushHandoff _ => false

section
variable {s : State} {p : Nat} {q q' : Port} {out : List Record}

theorem Inv.place_clear (h : Inv s) (hq : s.ports[p]? = some q) (hg : GoodPort s.params.packetSize q')
    (hw : q'.inWait = q.inWait)
    (ht : q'.timeoutCounter.toNat < s.params.flushTicks ∨ (q.inited = true ∧ q'.timeoutCounter = q.timeoutCounter)) :
    Inv (place p q' out .clear s) :=
  h.same_wait hq ((SameBlock.refl s).place_onlyPort ..) hg (.inl rfl) rfl hw ht

/-- `APP` comes to stand at a hold of the port that is no hand-off. -/
theorem Inv.place_entry (h : Inv s) (hq : s.ports[p]? = some q) (hg : GoodPort s.params.packetSize q')
    (hw : q'.inWait = q.inWait) (hi : q.inited = true) (ht : q'.timeoutCounter = q.timeoutCounter) (ha : s.appHold = none)
    {a : AppHold} (hp : holdPort a = p) (he : entryHold a = true) : Inv (place p q' out (.app a) s) := by
  refine h.same_wait hq ((SameBlock.refl s).place_onlyPort ..) hg (.inr ⟨ha, a, rfl, hp, fun p' => ?_⟩) rfl hw (.inr ⟨hi, ht⟩)
  constructor <;> rintro rfl <;> cases he

theorem Inv.goodPort (h : Inv s) (hq : s.ports[p]? = some q) (hi : q.inited = true) : GoodPort s.params.packetSize q :=
  ⟨h.buffers p q hq, h.port p q hq hi, hi⟩

end

/-! ## The operations -/

section
variable {s : State} {p : Nat} {q q' : Port} {out : List Record} {m : Mark}
variable (h : Inv s) (hq : s.ports[p]? = some q) (hi : q.inited = true)
include h hq hi

theorem Inv.keeps_put {b : Byte} (ha : s.appHold = none) (hm : PortMove s.params p q (.put b) q' out m) :
    Inv (place p q' out m s) := by
  have hg := h.goodPort hq hi
  cases hm with
  | putEntry _ hw => exact h.place_entry hq hg rfl hi rfl ha rfl rfl
  | putAppends _ hw hn => exact h.place_clear hq (goodPort_appendIn h.params hg hw b hn) rfl (.inr ⟨hi, rfl⟩)
  | putGrants _ hw hn ho =>
    exact h.place_clear hq (goodPort_putGrants h.params hg hw b hn) (by simp [handedOff, hw]) (.inr ⟨hi, rfl⟩)
  | putHolds _ hw hn ho =>
    exact h.app_put_holds hq hi hw ((SameBlock.refl s).place_onlyPort ..) (goodPort_putHolds h.params hg hw b hn) rfl ha rfl rfl rfl

theorem Inv.keeps_flush (ha : s.appHold = none) (hm : PortMove s.params p q .flush q' out m) :
    Inv (place p q' out m s) := by
  have hg := h.goodPort hq hi
  cases hm with
  | flushEntry hw => exact h.place_entry hq hg rfl hi rfl ha rfl rfl
  | flushQuiet hw => exact h.place_clear hq hg rfl (.inr ⟨hi, rfl⟩)
  | flushGrants hw hs ho =>
    exact h.place_clear hq (goodPort_flushGrants h.params hg hw) (by simp [handedOff, hw]) (.inr ⟨hi, rfl⟩)
  | flushHolds hw hs ho =>
    exact h.app_flush_holds hq hi hw ((SameBlock.refl s).place_onlyPort ..) (goodPort_flushHolds hg hw hs) rfl ha rfl rfl rfl

/-- Between two ticks the count is below the threshold, unless the tick handler stands at its hold (R175). -/
theorem Inv.counter_lt (ht : s.tickHold = none) : q.timeoutCounter.toNat < s.params.flushTicks :=
  (h.ticks p q hq hi).resolve_right fun ⟨hold, _⟩ => by rw [ht] at hold; cases hold

theorem Inv.keeps_tick (ht : s.tickHold = none) (hm : PortMove s.params p q .tick q' out m) : Inv (place p q' out m s) := by
  have hg := h.goodPort hq hi
  have hzero : (0 : Byte).toNat < s.params.flushTicks := h.params.ticksPos
  cases hm with
  | tickCounts hn => exact h.place_clear hq (goodPort_counter hg _) rfl (.inl hn)
  | tickRestarts => exact h.place_clear hq (goodPort_counter hg 0) rfl (.inl hzero)
  | tickGrants hw hs ho =>
    exact h.place_clear hq (goodPort_counter (goodPort_flushGrants h.params hg hw) 0) (by simp [handedOff, hw]) (.inl hzero)
  | tickHolds hn hw hs ho =>
    have hlt := h.counter_lt hq hi ht
    have hle := h.params.ticksLe
    have hsucc := toNat_add_one (x := q.timeoutCounter) (by omega)
    have hcount : (q.timeoutCounter + 1).toNat = s.params.flushTicks := by omega
    exact h.tick_flush_holds hq hw ((SameBlock.refl s).place_onlyPort ..)
      (goodPort_flushHolds (goodPort_counter hg _) hw hs) hcount ht rfl rfl rfl

theorem Inv.keeps_get (ha : s.appHold = none) (hm : PortMove s.params p q .get q' out m) : Inv (place p q' out m s) := by
  have hg := h.goodPort hq hi
  cases hm with
  | getTakes b hl hb => exact h.place_clear hq (goodPort_take hg hl) rfl (.inr ⟨hi, rfl⟩)
  | getWaits hl ho => exact h.place_entry hq hg rfl hi rfl ha rfl rfl
  | getSwapsTakes b hl ho hc hb =>
    exact h.place_clear hq (goodPort_take (goodPort_swapOut hg ho) hc) rfl (.inr ⟨hi, rfl⟩)
  | getSwapsEmpty hl ho hc => exact h.place_entry hq (goodPort_swapOut hg ho) rfl hi rfl ha rfl rfl

theorem Inv.keeps_peek (hm : PortMove s.params p q .peek q' out m) : Inv (place p q' out m s) := by
  have hg := h.goodPort hq hi
  cases hm with
  | peekKeeps a => exact h.place_clear hq hg rfl (.inr ⟨hi, rfl⟩)
  | peekSwaps a hl ho => exact h.place_clear hq (goodPort_swapOut hg ho) rfl (.inr ⟨hi, rfl⟩)

theorem Inv.keeps_inDone (hm : PortMove s.params p q .inDone q' out m) : Inv (place p q' out m s) := by
  have hg := h.goodPort hq hi
  cases hm with
  | inDone bytes ho hb =>
    exact h.place_clear hq (hg.congr (portOk_inDone hg.ok) rfl rfl rfl) rfl (.inr ⟨hi, rfl⟩)

theorem Inv.keeps_outDone {bytes : List Byte} (hm : PortMove s.params p q (.outDone bytes) q' out m) :
    Inv (place p q' out m s) := by
  have hg := h.goodPort hq hi
  cases hm with
  | outDone _ ho hb =>
    exact h.place_clear hq ⟨buffersOk_receiveOut hg.buffers bytes hb, portOk_receiveOut hg.ok h.params.packetLe bytes hb, hi⟩
      rfl (.inr ⟨hi, rfl⟩)

end

/-- A command that runs from its first line, for an agent that stands at no hold, keeps the invariant. -/
theorem Inv.keeps_command {s : State} {p : Nat} {q q' : Port} {out : List Record} {m : Mark} {i : Instr} {op : PortOp}
    (h : Inv s) (hq : s.ports[p]? = some q) (hop : portOp i = some (p, op)) (ha : (∀ p, i ≠ .tick p) → s.appHold = none)
    (ht : (∃ p, i = .tick p) → s.tickHold = none) (hc : PortChange s.params p q op q' out m) : Inv (place p q' out m s) := by
  cases hc with
  | init hi =>
    have hzero : (0 : Byte).toNat < s.params.flushTicks := h.params.ticksPos
    have hg : GoodPort s.params.packetSize (initPort s.params.packetSize q) :=
      ⟨buffersOk_congr rfl rfl (h.buffers p q hq), portOk_initPort q h.params.packetPos h.params.packetLe, rfl⟩
    exact h.place_clear hq hg (h.idlePort p q hq hi).symm (.inl hzero)
  | move hi hm =>
    have hg := h.goodPort hq hi
    cases i with
    | init _ =>
      cases hop
      cases hm
    | put _ b =>
      cases hop
      exact h.keeps_put hq hi (ha (fun _ e => by cases e)) hm
    | flush _ =>
      cases hop
      exact h.keeps_flush hq hi (ha (fun _ e => by cases e)) hm
    | tick _ =>
      cases hop
      exact h.keeps_tick hq hi (ht ⟨p, rfl⟩) hm
    | get _ =>
      cases hop
      exact h.keeps_get hq hi (ha (fun _ e => by cases e)) hm
    | peek _ =>
      cases hop
      exact h.keeps_peek hq hi hm
    | inrdy _ =>
      cases hop
      cases hm
      exact h.place_clear hq hg rfl (.inr ⟨hi, rfl⟩)
    | outrdy _ =>
      cases hop
      cases hm
      exact h.place_clear hq hg rfl (.inr ⟨hi, rfl⟩)
    | getlc _ =>
      cases hop
      cases hm
      exact h.place_clear hq hg rfl (.inr ⟨hi, rfl⟩)
    | setlc _ coding =>
      cases hop
      cases hm
      exact h.place_clear hq (hg.congr (portOk_counters hg.ok q.timeoutCounter coding q.controlLine) rfl rfl rfl) rfl
        (.inr ⟨hi, rfl⟩)
    | setcls _ dtr rts =>
      cases hop
      cases hm
      exact h.place_clear hq (hg.congr (portOk_counters hg.ok q.timeoutCounter q.lineCoding ⟨dtr, rts⟩) rfl rfl rfl) rfl
        (.inr ⟨hi, rfl⟩)
    | _ => cases hop

/-! ## The steps -/

/-- The schedule and the program are no part of the invariant. -/
theorem Inv.of_sched {s : State} (h : Inv s) (sched : List Turn) (prog : List Cmd) :
    Inv { s with sched := sched, appProg := prog } :=
  h.congr rfl rfl rfl h.mem h.dec rfl rfl

/-- A port that an agent waits at is initialised and has that hand-off pending (R39). -/
theorem Inv.waiting {s : State} {p : Nat} {q : Port} {o : Origin} (hw : waitsWith o s p) (hq : s.ports[p]? = some q) :
    q.inited = true ∧ ∃ w, q.inWait = some w ∧ w.origin = o := by
  obtain ⟨q', w, hq', hi, hwait, ho⟩ := hw
  cases hq.symm.trans hq'
  exact ⟨hi, w, hwait, ho⟩

/-- `APP` goes on from a hand-off hold: it stands there still, or the hand-off is granted (R171). -/
theorem Inv.keeps_handoff {s : State} {p : Nat} {q : Port} {o : Origin} {a : AppHold} {rest : List Turn} (h : Inv s)
    (hq : s.ports[p]? = some q) (hw : waitsWith o s p) (ha : s.appHold = some a)
    (hao : a = .putHandoff p ∨ a = .flushHandoff p) :
    Inv (place p q [] (.app a) { s with sched := rest, appHold := none }) ∧
      Inv (place p (finishIn o (grantIn (pendingLen q) q)) [submitRecord p (pendingLen q) q] .clear
        { s with sched := rest, appHold := none }) := by
  obtain ⟨hi, w, hwait, rfl⟩ := Inv.waiting hw hq
  have hb : SameBlock s { s with sched := rest, appHold := none } := ⟨rfl, rfl, rfl, rfl, rfl, rfl⟩
  constructor
  · rw [place_same (by exact hq)]
    exact h.congr rfl rfl rfl h.mem h.dec ha.symm rfl
  · refine h.app_released hq hi (hb.place_onlyPort ..) (h.granted_port hq hi hwait) (by simp) ?_ rfl rfl (by simp)
    rcases hao with rfl | rfl
    · exact .inl ha
    · exact .inr ha

/-- The tick handler goes on from its hold (R171, R175). -/
theorem Inv.keeps_tickGoesOn {s : State} {p : Nat} {q q' : Port} {out : List Record} {m : Mark} {rest : List Turn} (h : Inv s)
    (hq : s.ports[p]? = some q) (ht : s.tickHold = some p) (hm : PortMove s.params p q .tickGoesOn q' out m) :
    Inv (place p q' out m { s with sched := rest, tickHold := none }) := by
  obtain ⟨hi, w, hwait, ho⟩ := Inv.waiting ((h.flushHold p).mp (.inr ht)) hq
  have hb : SameBlock s { s with sched := rest, tickHold := none } := ⟨rfl, rfl, rfl, rfl, rfl, rfl⟩
  cases hm with
  | tickStays _ =>
    rw [place_same (by exact hq)]
    exact h.congr rfl rfl rfl h.mem h.dec rfl ht.symm
  | tickLifts _ =>
    have hg := h.granted_port hq hi hwait
    rw [ho] at hg
    exact h.tick_released hq (hb.place_onlyPort ..) (goodPort_counter hg 0) rfl ht rfl rfl (by simp)

/-- `APP` leaves an entry hold and its command runs from its first line. -/
theorem Inv.of_entryHold {s : State} {a : AppHold} (h : Inv s) (ha : s.appHold = some a) (he : entryHold a = true)
    (rest : List Turn) : Inv { s with sched := rest, appHold := none } := by
  have hl : Inv { s with appHold := none } := h.leaves_entry_hold fun p => by
    constructor <;> (rw [ha]; rintro ⟨⟩; cases he)
  exact hl.of_sched rest s.appProg

/-- An operation that a step runs keeps the invariant. -/
theorem Inv.keeps_run {s b : State} {p : Nat} {op : PortOp} {q q' : Port} {out : List Record} {m : Mark} (h : Inv s)
    (hr : Runs s p op b) (hq : s.ports[p]? = some q) (hc : PortChange s.params p q op q' out m) : Inv (place p q' out m b) := by
  cases hr with
  | issued hs hh hp hd ho hi =>
    exact (h.of_sched _ _).keeps_command hq ho (fun _ => hh) (fun ⟨p, e⟩ => absurd e (hi p)) hc
  | ticked hs hh hd =>
    exact (h.of_sched _ s.appProg).keeps_command hq (i := .tick p) rfl (fun e => absurd rfl (e p)) (fun _ => hh) hc
  | tickGoesOn hs hh =>
    cases hc with
    | move _ hm => exact h.keeps_tickGoesOn hq hh hm
  | inDone hs =>
    cases hc with
    | move hi hm => exact (h.of_sched _ s.appProg).keeps_inDone hq hi hm
  | outDone hs =>
    cases hc with
    | move hi hm => exact (h.of_sched _ s.appProg).keeps_outDone hq hi hm
  | @appGoesOn rest a hs hh =>
    cases a with
    | putEntry p b =>
      cases hc with
      | move hi hm => exact (h.of_entryHold hh rfl rest).keeps_put hq hi rfl hm
    | flushEntry p =>
      cases hc with
      | move hi hm => exact (h.of_entryHold hh rfl rest).keeps_flush hq hi rfl hm
    | getSwap p =>
      cases hc with
      | move hi hm => exact (h.of_entryHold hh rfl rest).keeps_get hq hi rfl hm
    | putHandoff p =>
      obtain ⟨hstays, hlifts⟩ := h.keeps_handoff (rest := rest) hq ((h.putHold p).mp hh) hh (.inl rfl)
      cases hc with
      | move _ hm =>
        cases hm with
        | putStays _ => exact hstays
        | putLifts _ => exact hlifts
    | flushHandoff p =>
      obtain ⟨hstays, hlifts⟩ := h.keeps_handoff (rest := rest) hq ((h.flushHold p).mp (.inl hh)) hh (.inr rfl)
      cases hc with
      | move _ hm =>
        cases hm with
        | flushStays _ => exact hstays
        | flushLifts _ => exact hlifts

/-- Settles O55: a step that reaches no port leaves what the invariant reads, and one that runs an operation of a port changes that
port and the holds together. -/
theorem invariantIsKept : Obligations.InvariantIsKept := by
  unfold Obligations.InvariantIsKept
  intro s t h hstep
  rcases step_next_cases hstep with hoff | ⟨p, op, b, q, q', out, m, hruns, hq, rfl, hchange⟩
  · exact h.congr hoff.params hoff.telem hoff.ports (hoff.mem h.mem) (hoff.dec h.dec) hoff.appHold hoff.tickHold
  · exact h.keeps_run hruns hq hchange

/-! ## At power-on -/

/-- The parameters of the run are in the ranges of R5, whatever the OPEN ones are. -/
theorem paramsOk_reset : ParamsOk Params.reset where
  packetPos := by
    show 1 ≤ Config.packetBytes Config.packetSize
    cases Config.packetSize <;> decide
  packetLe := by
    show Config.packetBytes Config.packetSize ≤ 255
    cases Config.packetSize <;> decide
  ticksPos := Nat.succ_le_succ (Nat.zero_le _)
  ticksLe := Config.tickSteps.isLt
  clockPos := Nat.succ_pos _
  identityLen := by simp [Params.reset]

/-- Every port of the block at power-on is the one that reset gives. -/
theorem getElem?_reset {p : Nat} {q : Port} (h : State.reset.ports[p]? = some q) : q = Port.reset :=
  List.eq_of_mem_replicate (List.mem_of_getElem? h)

theorem not_waitsWith_reset (o : Origin) (p : Nat) : ¬ waitsWith o State.reset p := by
  rintro ⟨q, w, hq, hi, -⟩
  rw [getElem?_reset hq] at hi
  cases hi

/-- Settles O54: no port is initialised, nothing waits and nobody holds. -/
theorem invariantAtReset : Obligations.InvariantAtReset := by
  unfold Obligations.InvariantAtReset
  have hfresh : ∀ (p : Nat) (q : Port), State.reset.ports[p]? = some q → q.inited ≠ true := by
    intro p q hq hi
    rw [getElem?_reset hq] at hi
    cases hi
  exact
    { params := paramsOk_reset
      telemLe := by
        show (List.replicate Config.telemChannels.val _).length ≤ 16
        rw [List.length_replicate]
        exact Nat.le_of_lt_succ Config.telemChannels.isLt
      portsPos := by decide
      mem := wf_nil
      dec := by constructor <;> intro h <;> cases h
      buffers := fun p q hq => by rw [getElem?_reset hq]; rfl
      port := fun p q hq hi => absurd hi (hfresh p q hq)
      idlePort := fun p q hq _ => by rw [getElem?_reset hq]; rfl
      ticks := fun p q hq hi => absurd hi (hfresh p q hq)
      putHold := fun p => iff_of_false (fun h => by cases h) (not_waitsWith_reset .put p)
      flushHold := fun p => iff_of_false (fun h => by rcases h with h | h <;> cases h) (not_waitsWith_reset .flush p)
      oneFlush := fun p h => by cases h.1
      holdInited := fun a h => by cases h }

/-! ## No fault under the invariant -/

/-- A good port gives every byte it is asked for (10_state.md R44, R46). -/
theorem PortOk.not_unwrittenRead {n : Nat} {q : Port} (h : PortOk n q) : ¬ UnwrittenRead n q := by
  rintro (⟨hl, hn⟩ | ⟨ho, hc, hn⟩ | ⟨ho, hn⟩)
  · obtain ⟨b, hb⟩ := nextOut_isSome h hl
    rw [hn] at hb
    cases hb
  · obtain ⟨b, hb⟩ := nextOut_isSome (portOk_swapOut h ho) hc
    rw [hn] at hb
    cases hb
  · obtain ⟨bytes, hb⟩ := readRun_of_written (h.grantedWritten ho)
    rw [hn] at hb
    cases hb

/-- Settles O56: a step faults only where an operation reads an unwritten byte of its port. -/
theorem noFaultUnderInvariant : Obligations.NoFaultUnderInvariant := by
  unfold Obligations.NoFaultUnderInvariant
  intro s h f hfault
  have ho := stepOutcome s
  rw [hfault] at ho
  generalize hres : Host.Outcome.fault f = res at ho
  cases ho with
  | refused r => cases hres
  | off hoff => cases hres
  | @runs p op b hruns =>
    obtain ⟨q, hq, hi, hread⟩ := runOn_fault hres.symm
    rw [hruns.sameBlock.ports] at hq
    rw [hruns.sameBlock.params] at hread
    exact (h.port p q hq hi).not_unwrittenRead hread

end Sys2Proof.Machine
end

section
/-! The byte streams of a port (42_fifo_in.md R181, 43_fifo_out.md R207): which moves of a port put bytes in, take bytes out, or leave
them. -/

namespace Sys2Proof.Machine

/-! ## The IN stream under a move -/

section
variable {c : Params} {p : Nat} {q q' : Port} {op : PortOp} {out : List Record} {m : Mark}

/-- The IN stream reads the IN buffers, the fill and the descriptor only. -/
theorem inStream_congr (hbuf : q'.inBuf = q.inBuf) (hlen : q'.inLen = q.inLen) (hact : q'.activeInIsA = q.activeInIsA)
    (hdesc : q'.inDesc = q.inDesc) : inStream q' = inStream q := by
  rw [inStream, inStream, hbuf, hlen, hact, hdesc]

/-- A hand-off of all bytes filled moves them from the buffer being filled to the granted one (R170). -/
theorem inStream_grantIn (o : Origin) (ho : q.inDesc.owned = false) : inStream (finishIn o (grantIn q.inLen q)) = inStream q := by
  simp [inStream, ho]

/-- A byte appended is last in the stream (R172). -/
theorem inStream_appendIn (hother : q.inDesc.bufIsA = !q.activeInIsA) (hlt : q.inLen.toNat < 255) (b : Byte) :
    inStream (appendIn b q) = inStream q ++ [some b] := by
  have hgranted : (q.inBuf.upd q.activeInIsA (cellInsert (q.inBuf.sel q.activeInIsA) q.inLen.toNat b)).sel q.inDesc.bufIsA =
      q.inBuf.sel q.inDesc.bufIsA := by rw [hother, BufPair.sel_upd_not]
  have hkept : (List.range q.inLen.toNat).map (cellLookup (cellInsert (q.inBuf.sel q.activeInIsA) q.inLen.toNat b)) =
      (List.range q.inLen.toNat).map (cellLookup (q.inBuf.sel q.activeInIsA)) :=
    List.map_congr_left fun i hi => cellLookup_insert_other _ _ _ _ (List.mem_range.mp hi).ne
  simp only [inStream, appendIn_inBuf, appendIn_activeInIsA, appendIn_inLen, appendIn_inDesc, hgranted,
    BufPair.sel_upd_self, toNat_add_one hlt, List.range_succ, List.map_append, hkept, List.map_cons, List.map_nil,
    cellLookup_insert_self, List.append_assoc]

/-- A run of bytes read from the front of a buffer is what the buffer lists there. -/
theorem map_lookup_of_readRun {buf : List Host.Cell} {n : Nat} {bytes : List Byte} (h : readRun buf 0 n = some bytes) :
    (List.range n).map (cellLookup buf) = bytes.map some := by
  obtain ⟨hlen, hget⟩ := (readRun_eq buf 0 n bytes).mp h
  apply List.ext_getElem?
  intro i
  by_cases hi : i < n
  · have hread := hget i hi
    rw [Nat.zero_add] at hread
    simp [hi, hread, hlen]
  · simp [hi, hlen]

/-- A packet collected by the host leaves the front of the stream (46_environment.md R240). -/
theorem inStream_inDone {bytes : List Byte} (ho : q.inDesc.owned = true)
    (hb : readRun (q.inBuf.sel q.inDesc.bufIsA) 0 q.inDesc.count.toNat = some bytes) :
    inStream q = bytes.map some ++ inStream { q with inDesc := { q.inDesc with owned := false } } := by
  simp [inStream, ho, map_lookup_of_readRun hb]

/-- The IN stream of a flush under its guard is that of the port. -/
theorem inStream_guard : inStream { q with flushInProgress := true } = inStream q := inStream_congr rfl rfl rfl rfl

/-- Every move but a `PUT` past its first line and the host's collection leaves the IN stream. -/
theorem PortMove.inStream_eq (hm : PortMove c p q op q' out m) (hpend : pendingLen q = q.inLen)
    (hput : ∀ b, op = .put b → q.inWait ≠ none) (hdone : op ≠ .inDone) : inStream q' = inStream q := by
  cases hm with
  | putEntry b hw => rfl
  | putAppends b hw hn => exact absurd hw (hput b rfl)
  | putGrants b hw hn ho => exact absurd hw (hput b rfl)
  | putHolds b hw hn ho => exact absurd hw (hput b rfl)
  | flushGrants hw hs ho => exact (inStream_grantIn .flush (by exact ho)).trans inStream_guard
  | tickGrants hw hs ho =>
    have hflush : inStream (handedOff .flush { q with flushInProgress := true }) = inStream q :=
      (inStream_grantIn .flush (by exact ho)).trans inStream_guard
    exact (inStream_congr rfl rfl rfl rfl).trans hflush
  | putLifts ho => rw [hpend]; exact inStream_grantIn .put ho
  | flushLifts ho => rw [hpend]; exact inStream_grantIn .flush ho
  | tickLifts ho => rw [hpend]; exact (inStream_congr rfl rfl rfl rfl).trans (inStream_grantIn .flush ho)
  | inDone bytes ho hb => exact absurd rfl hdone
  | flushEntry | flushQuiet | flushHolds | tickCounts | tickRestarts | tickHolds | getTakes | getWaits | getSwapsTakes
  | getSwapsEmpty | peekKeeps | peekSwaps | inrdy | outrdy | setlc | getlc | setcls | putStays | flushStays | tickStays
  | outDone => exact inStream_congr rfl rfl rfl rfl

/-- A `PUT` past its first line appends its byte, whether the buffer is then handed off, or holds, or neither. -/
theorem PortMove.inStream_put {b : Byte} (hm : PortMove c p q (.put b) q' out m) (h : PortOk c.packetSize q)
    (hn : c.packetSize ≤ 255) (hw : q.inWait = none) : inStream q' = inStream q ++ [some b] := by
  have happend : inStream (appendIn b q) = inStream q ++ [some b] :=
    inStream_appendIn h.inOther (by have := h.inLen_lt hw; omega) b
  cases hm with
  | putEntry _ hwait => exact absurd hw hwait
  | putAppends _ _ _ => exact happend
  | putGrants _ _ _ ho => exact (inStream_grantIn .put (by exact ho)).trans happend
  | putHolds _ _ _ _ => exact (inStream_congr rfl rfl rfl rfl).trans happend

/-! ## The OUT stream under a move -/

/-- The OUT stream reads the OUT buffers, the drain and the descriptor only. -/
theorem outStream_congr (hbuf : q'.outBuf = q.outBuf) (hlen : q'.outLen = q.outLen) (hcnt : q'.outCnt = q.outCnt)
    (hact : q'.activeOutIsA = q.activeOutIsA) (hdesc : q'.outDesc = q.outDesc) : outStream q' = outStream q := by
  rw [outStream, outStream, readIndex, readIndex, hbuf, hlen, hcnt, hact, hdesc]

/-- With nothing left the read index stands at the end of the packet (R205). -/
theorem readIndex_of_drained (hl : q.outLen = 0) : readIndex q = q.outCnt.toNat := by
  rw [readIndex, hl]
  simp

/-- With nothing left to drain the stream is the packet that waits, if one does. -/
theorem outStream_of_drained (hl : q.outLen = 0) :
    outStream q = if q.outDesc.owned then [] else
      (List.range q.outDesc.count.toNat).map (cellLookup (q.outBuf.sel q.outDesc.bufIsA)) := by
  rw [outStream, readIndex_of_drained hl, List.drop_eq_nil_of_le (by simp), List.nil_append]

/-- A swap of a completed packet, with nothing left to drain, keeps the stream (R200). -/
theorem outStream_swapOut (n : Nat) (hl : q.outLen = 0) (ho : q.outDesc.owned = false) :
    outStream (swapOut n q) = outStream q := by
  rw [outStream_of_drained hl]
  simp [outStream, readIndex, ho]

/-- Consuming a byte moves the read index on (R201, R205). -/
theorem readIndex_take (hle : q.outLen.toNat ≤ q.outCnt.toNat) (hl : q.outLen ≠ 0) :
    readIndex { q with outLen := q.outLen - 1 } = readIndex q + 1 ∧ readIndex q < q.outCnt.toNat := by
  have hne : q.outLen.toNat ≠ 0 := fun e => hl (BitVec.eq_of_toNat_eq e)
  have hcnt := q.outCnt.isLt
  have hone : (1 : Byte).toNat = 1 := rfl
  simp only [readIndex, BitVec.toNat_sub, hone]
  omega

/-- The byte that `GET` returns is the first of the stream and is taken off. -/
theorem outStream_take (hle : q.outLen.toNat ≤ q.outCnt.toNat) (hl : q.outLen ≠ 0) {b : Byte} (hb : nextOut q = some b) :
    outStream q = some b :: outStream { q with outLen := q.outLen - 1 } := by
  obtain ⟨hnext, hlt⟩ := readIndex_take hle hl
  have hlookup : cellLookup (q.outBuf.sel q.activeOutIsA) (readIndex q) = some b := hb
  rw [outStream, outStream, hnext, List.drop_eq_getElem_cons (by simpa using hlt)]
  simp [hlookup]

/-- A packet that arrives is last in the stream (46_environment.md R241). -/
theorem outStream_receiveOut (hother : q.outDesc.bufIsA = !q.activeOutIsA) (ho : q.outDesc.owned = true) {bytes : List Byte}
    (hb : bytes.length ≤ 255) : outStream (receiveOut bytes q) = outStream q ++ bytes.map some := by
  have hkept : (q.outBuf.upd q.outDesc.bufIsA (cellsFrom 0 bytes)).sel q.activeOutIsA = q.outBuf.sel q.activeOutIsA := by
    rw [hother, BufPair.sel_upd_not']
  have hcount : (BitVec.ofNat 8 bytes.length).toNat = bytes.length := by
    rw [BitVec.toNat_ofNat]
    omega
  have harrived : (List.range bytes.length).map (cellLookup (cellsFrom 0 bytes)) = bytes.map some := by
    apply List.ext_getElem?
    intro i
    by_cases hi : i < bytes.length <;> simp [hi, cellLookup_cellsFrom]
  simp only [outStream, readIndex, receiveOut_outBuf, receiveOut_outDesc, receiveOut_activeOutIsA, receiveOut_outCnt,
    receiveOut_outLen, hkept, hcount, BufPair.sel_upd_self, harrived, ho, if_true, List.append_nil, Bool.false_eq_true, if_false]

/-- Every move but a `GET` and an arrival leaves the OUT stream; a `PEEK` may swap. -/
theorem PortMove.outStream_eq (hm : PortMove c p q op q' out m) (hget : op ≠ .get) (hdone : ∀ bytes, op ≠ .outDone bytes) :
    outStream q' = outStream q := by
  cases hm with
  | getTakes | getWaits | getSwapsTakes | getSwapsEmpty => exact absurd rfl hget
  | outDone bytes ho hb => exact absurd rfl (hdone bytes)
  | peekSwaps a hl ho => exact outStream_swapOut _ hl ho
  | putEntry | putAppends | putHolds | flushEntry | flushQuiet | flushHolds | tickCounts | tickRestarts | tickHolds | peekKeeps
  | inrdy | outrdy | setlc | getlc | setcls | putStays | flushStays | tickStays | inDone =>
    exact outStream_congr rfl rfl rfl rfl rfl
  | putGrants | flushGrants | tickGrants => apply outStream_congr <;> simp [handedOff]
  | putLifts | flushLifts | tickLifts => apply outStream_congr <;> simp

/-- What a `GET` does to the OUT stream: it returns and takes off the first byte, or, with none, stands at its hold. -/
theorem PortMove.outStream_get (hm : PortMove c p q .get q' out m) (h : PortOk c.packetSize q) :
    (∃ b arm, outStream q = some b :: outStream q' ∧ m = .clear ∧ out = arm ++ [.ret (.byte b)] ∧
      (arm = [] ∨ arm = [armRecord p q])) ∨
    (outStream q = [] ∧ outStream q' = [] ∧ m = .app (.getSwap p) ∧ (out = [] ∨ out = [armRecord p q])) := by
  cases hm with
  | getTakes b hl hb => exact .inl ⟨b, [], outStream_take h.outLenLe hl hb, rfl, rfl, .inl rfl⟩
  | getSwapsTakes b hl ho hc hb =>
    refine .inl ⟨b, [armRecord p q], ?_, rfl, rfl, .inr rfl⟩
    rw [← outStream_swapOut c.packetSize hl ho]
    exact outStream_take (portOk_swapOut h ho).outLenLe hc hb
  | getWaits hl ho =>
    have hnil : outStream q = [] := by rw [outStream_of_drained hl, ho, if_pos rfl]
    exact .inr ⟨hnil, hnil, rfl, .inl rfl⟩
  | getSwapsEmpty hl ho hc =>
    have hnil : outStream q = [] := by rw [outStream_of_drained hl, ho, hc]; rfl
    exact .inr ⟨hnil, (outStream_swapOut _ hl ho).trans hnil, rfl, .inr rfl⟩

end

/-! ## The steps that run a command of `APP` -/

/-- A step in which `APP` runs a command of a port from its first line runs the operation of that port, from a state in which `APP`
stands at no hold. -/
theorem runs_of_appRuns {s : State} {a : AppHold} {i : Instr} (h : appRuns s a i)
    (hop : portOp i = some (holdPort a, holdOp a)) (hi : ∀ p, i ≠ .tick p) :
    ∃ b, Runs s (holdPort a) (holdOp a) b ∧ step s = (holdOp a).runOn (holdPort a) b ∧ b.appHold = none := by
  obtain ⟨⟨rest, hs⟩, hh | ⟨hh, c, cs, hp, hd⟩⟩ := h
  · exact ⟨_, .appGoesOn hs hh, by rw [step_app_goesOn hs hh, resumeApp_eq], rfl⟩
  · refine ⟨_, .issued hs hh hp hd hop hi, ?_, hh⟩
    rw [step_app_issues hs hh hp, issue_of_decoded hd (issuerOf_eq_app hi), exec_portOp hop]

/-- Conversely, a step that runs an operation of `APP` issues the one command of that operation or goes on from its one hold. -/
theorem Runs.appRuns {s b : State} {p : Nat} {op : PortOp} {a : AppHold} {i : Instr} (h : Runs s p op b)
    (hcmd : ∀ j, portOp j = some (p, op) → j = i) (hhold : ∀ a', holdPort a' = p → holdOp a' = op → a' = a)
    (htick : op ≠ .tick ∧ op ≠ .tickGoesOn) (hhw : op ≠ .inDone ∧ ∀ bytes, op ≠ .outDone bytes) : appRuns s a i := by
  cases h with
  | issued hs hh hp hd ho hi => exact ⟨⟨_, hs⟩, .inr ⟨hh, _, _, hp, hcmd _ ho ▸ hd⟩⟩
  | appGoesOn hs hh => exact ⟨⟨_, hs⟩, .inl (hhold _ rfl rfl ▸ hh)⟩
  | ticked hs hh hd => exact absurd rfl htick.1
  | tickGoesOn hs hh => exact absurd rfl htick.2
  | inDone hs => exact absurd rfl hhw.1
  | outDone hs => exact absurd rfl (hhw.2 _)

theorem Runs.entersPut {s b : State} {p : Nat} {x : Byte} (h : Runs s p (.put x) b) : entersPut s p x := by
  refine h.appRuns (fun j hj => ?_) (fun a hp ho => ?_) ⟨by simp, by simp⟩ ⟨by simp, by simp⟩
  · cases j <;> cases hj
    rfl
  · cases a <;> cases ho
    cases hp
    rfl

theorem Runs.entersGet {s b : State} {p : Nat} (h : Runs s p .get b) : entersGet s p := by
  refine h.appRuns (fun j hj => ?_) (fun a hp ho => ?_) ⟨by simp, by simp⟩ ⟨by simp, by simp⟩
  · cases j <;> cases hj
    rfl
  · cases a <;> cases ho
    cases hp
    rfl

/-- What a step that runs a known operation of an initialised port does to that port. -/
theorem step_runs_move {s t b : State} {p : Nat} {op : PortOp} {q q' : Port} (h : step s = .next t) (hr : Runs s p op b)
    (hx : step s = op.runOn p b) (hq : s.ports[p]? = some q) (hq' : t.ports[p]? = some q') (hi : q.inited = true) :
    ∃ out m, t = place p q' out m b ∧ PortMove s.params p q op q' out m := by
  have hqb : b.ports[p]? = some q := by rw [hr.sameBlock.ports, hq]
  obtain ⟨q1, out, m, rfl, hm⟩ := runOn_next_inited (hx.symm.trans h) hqb hi
  rw [getElem?_place hqb, if_pos rfl] at hq'
  cases hq'
  rw [hr.sameBlock.params] at hm
  exact ⟨out, m, rfl, hm⟩

/-- The completions of the endpoint hardware run when they are scheduled. -/
theorem step_inDone {s : State} {p : Nat} {rest : List Turn} (hs : s.sched = .hwepInDone p :: rest) :
    step s = PortOp.inDone.runOn p { s with sched := rest } := by
  rw [step_of_sched hs, runTurn, envInDone_eq]

theorem step_outDone {s : State} {p : Nat} {bytes : List Byte} {rest : List Turn}
    (hs : s.sched = .hwepOutDone p bytes :: rest) : step s = (PortOp.outDone bytes).runOn p { s with sched := rest } := by
  rw [step_of_sched hs, runTurn, envOutDone_eq]

theorem Runs.inDone_sched {s b : State} {p : Nat} (h : Runs s p .inDone b) : ∃ rest, s.sched = .hwepInDone p :: rest := by
  generalize hop : PortOp.inDone = op at h
  cases h with
  | issued hs hh hp hd ho hi => subst hop; rename_i i; cases i <;> cases ho
  | @appGoesOn _ a => cases a <;> cases hop
  | inDone hs => exact ⟨_, hs⟩
  | _ => cases hop

theorem Runs.outDone_sched {s b : State} {p : Nat} {bytes : List Byte} (h : Runs s p (.outDone bytes) b) :
    ∃ rest, s.sched = .hwepOutDone p bytes :: rest := by
  generalize hop : PortOp.outDone bytes = op at h
  cases h with
  | issued hs hh hp hd ho hi => subst hop; rename_i i; cases i <;> cases ho
  | @appGoesOn _ a => cases a <;> cases hop
  | outDone hs => cases hop; exact ⟨_, hs⟩
  | _ => cases hop

/-! ## The streams under a step -/

/-- Settles O59: a `PUT` past its first line appends, the host's collection takes from the front, and every other move leaves the
stream. -/
theorem inStreamIsAQueue : Obligations.InStreamIsAQueue := by
  unfold Obligations.InStreamIsAQueue
  intro s t p q q' hinv hstep hq hq' hi
  have hok := hinv.port p q hq hi
  refine ⟨fun x henters hw => ?_, fun rest hs => ?_, fun hput hdone => ?_⟩
  · obtain ⟨b, hruns, hx, -⟩ := runs_of_appRuns henters rfl (by simp)
    obtain ⟨out, m, -, hm⟩ := step_runs_move hstep hruns hx hq hq' hi
    exact hm.inStream_put hok hinv.params.packetLe hw
  · obtain ⟨out, m, rfl, hm⟩ := step_runs_move hstep (.inDone hs) (step_inDone hs) hq hq' hi
    cases hm with
    | inDone bytes ho hb => exact ⟨bytes, by simp, inStream_inDone ho hb⟩
  · rcases step_port_cases hstep hq hq' hi with rfl | ⟨op, b, out, m, hruns, -, hm⟩
    · rfl
    refine hm.inStream_eq (hinv.pendingLen_eq hq hi) (fun x hop => ?_) (fun hop => ?_)
    · subst hop
      exact hput x hruns.entersPut
    · subst hop
      obtain ⟨rest, hs⟩ := hruns.inDone_sched
      exact hdone rest hs

/-- Settles O60: an arrival appends, a `GET` takes the first byte or finds none, and every other move leaves the stream. -/
theorem outStreamIsAQueue : Obligations.OutStreamIsAQueue := by
  unfold Obligations.OutStreamIsAQueue
  intro s t p q q' hinv hstep hq hq' hi
  have hok := hinv.port p q hq hi
  have hget : entersGet s p → ∃ b out m, SameBlock s b ∧ b.appHold = none ∧ t = place p q' out m b ∧
      PortMove s.params p q .get q' out m := by
    intro henters
    obtain ⟨b, hruns, hx, hb⟩ := runs_of_appRuns henters rfl (by simp)
    obtain ⟨out, m, ht, hm⟩ := step_runs_move hstep hruns hx hq hq' hi
    exact ⟨b, out, m, hruns.sameBlock, hb, ht, hm⟩
  refine ⟨fun bytes rest hs => ?_, fun henters hnil => ?_, fun henters hne => ?_, fun hnot hdone => ?_⟩
  · obtain ⟨out, m, -, hm⟩ := step_runs_move hstep (.outDone hs) (step_outDone hs) hq hq' hi
    have hle := hinv.params.packetLe
    cases hm with
    | outDone _ ho hb => exact outStream_receiveOut hok.outOther ho (by omega)
  · obtain ⟨b, out, m, hsame, -, rfl, hm⟩ := hget henters
    rcases hm.outStream_get hok with ⟨x, arm, hcons, -⟩ | ⟨-, hnil', rfl, harm⟩
    · rw [hnil] at hcons
      cases hcons
    · refine ⟨hnil', rfl, ?_⟩
      rw [place_trace, hsame.trace]
      rcases harm with rfl | rfl
      · exact .inl (List.append_nil _)
      · exact .inr rfl
  · obtain ⟨b, out, m, hsame, hb, rfl, hm⟩ := hget henters
    rcases hm.outStream_get hok with ⟨x, arm, hcons, rfl, rfl, harm⟩ | ⟨hnil, -⟩
    · refine ⟨hb, x, arm, hcons, ?_, harm⟩
      rw [place_trace, hsame.trace, List.append_assoc]
    · exact absurd hnil hne
  · rcases step_port_cases hstep hq hq' hi with rfl | ⟨op, b, out, m, hruns, -, hm⟩
    · rfl
    refine hm.outStream_eq (fun hop => ?_) (fun bytes hop => ?_)
    · subst hop
      exact hnot hruns.entersGet
    · subst hop
      obtain ⟨rest, hs⟩ := hruns.outDone_sched
      exact hdone bytes rest hs

end Sys2Proof.Machine
end

section
/-! Who writes what: the form of the stores, the tick counter, the ownership bits, the granted and the armed buffers, and when a
zero-length packet is submitted (10_state.md R44, 42_fifo_in.md R179, R182, 46_environment.md R247). -/

namespace Sys2Proof.Machine

/-- Settles O53: an operation of a port leaves the stores, and every other step keeps their form. -/
theorem memoryFormIsKept : Obligations.MemoryFormIsKept := by
  unfold Obligations.MemoryFormIsKept
  intro s t hmem hstep
  rcases step_next_cases hstep with hoff | ⟨p, op, b, q, q', out, m, hruns, hq, rfl, hchange⟩
  · exact hoff.mem hmem
  · rw [place_mem, hruns.sameBlock.mem]
    exact hmem

/-! ## The tick counter -/

section
variable {c : Params} {p : Nat} {q q' : Port} {op : PortOp} {out : List Record} {m : Mark}

/-- Only a tick and the tick handler write the counter of an initialised port (R182). -/
theorem PortMove.timeoutCounter_eq (hm : PortMove c p q op q' out m) (ht : op ≠ .tick) (hg : op ≠ .tickGoesOn) :
    q'.timeoutCounter = q.timeoutCounter := by
  cases hm with
  | tickCounts | tickRestarts | tickGrants | tickHolds => exact absurd rfl ht
  | tickStays | tickLifts => exact absurd rfl hg
  | putGrants | flushGrants => simp [handedOff]
  | putLifts | flushLifts => simp
  | _ => rfl

/-- Only the host's collection takes the ownership of the IN descriptor away (46_environment.md R240, R247). -/
theorem PortMove.inOwned (hm : PortMove c p q op q' out m) (ho : q.inDesc.owned = true) (hne : op ≠ .inDone) :
    q'.inDesc.owned = true := by
  cases hm with
  | inDone => exact absurd rfl hne
  | putGrants | flushGrants | tickGrants => simp [handedOff]
  | putLifts | flushLifts | tickLifts => simp
  | _ => exact ho

/-- Only an arrival takes the ownership of the OUT descriptor away (R241, R247). -/
theorem PortMove.outOwned (hm : PortMove c p q op q' out m) (ho : q.outDesc.owned = true)
    (hne : ∀ bytes, op ≠ .outDone bytes) : q'.outDesc.owned = true := by
  cases hm with
  | outDone bytes => exact absurd rfl (hne bytes)
  | putGrants | flushGrants | tickGrants => simpa [handedOff] using ho
  | putLifts | flushLifts | tickLifts => simpa using ho
  | getSwapsTakes | getSwapsEmpty | peekSwaps => rfl
  | _ => exact ho

/-- Only an arrival writes the OUT buffers (R241). -/
theorem PortMove.outBuf_eq (hm : PortMove c p q op q' out m) (hne : ∀ bytes, op ≠ .outDone bytes) : q'.outBuf = q.outBuf := by
  cases hm with
  | outDone bytes => exact absurd rfl (hne bytes)
  | putGrants | flushGrants | tickGrants => simp [handedOff]
  | putLifts | flushLifts | tickLifts => simp
  | _ => rfl

/-- No move writes the IN buffer that is not being filled (10_state.md R44). -/
theorem PortMove.inBuf_other (hm : PortMove c p q op q' out m) :
    q'.inBuf.sel (!q.activeInIsA) = q.inBuf.sel (!q.activeInIsA) := by
  cases hm with
  | putAppends | putHolds => simp
  | putGrants | flushGrants | tickGrants => simp [handedOff]
  | putLifts | flushLifts | tickLifts => simp
  | _ => rfl

end

theorem Runs.init_issued {s b : State} {p : Nat} (h : Runs s p .init b) :
    ∃ c cs rest, s.sched = .app :: rest ∧ s.appHold = none ∧ s.appProg = c :: cs ∧ decodeCommand c = .ok (.init p) := by
  generalize hop : PortOp.init = op at h
  cases h with
  | @issued rest c cs i p op hs hh hp hd ho hi =>
    subst hop
    cases i <;> cases ho
    exact ⟨c, cs, rest, hs, hh, hp, hd⟩
  | @appGoesOn _ a => cases a <;> cases hop
  | _ => cases hop

theorem Runs.tick_sched {s b : State} {p : Nat} (h : Runs s p .tick b) :
    ∃ c rest, s.sched = .tick c :: rest ∧ decodeCommand c = .ok (.tick p) := by
  generalize hop : PortOp.tick = op at h
  cases h with
  | @issued rest c cs i p op hs hh hp hd ho hi =>
    subst hop
    cases i <;> cases ho
    exact absurd rfl (hi p)
  | @appGoesOn _ a => cases a <;> cases hop
  | ticked hs hh hd => exact ⟨_, _, hs, hd⟩
  | _ => cases hop

theorem Runs.tickGoesOn_sched {s b : State} {p : Nat} (h : Runs s p .tickGoesOn b) :
    (∃ rest, s.sched = .tickResume :: rest) ∧ s.tickHold = some p := by
  generalize hop : PortOp.tickGoesOn = op at h
  cases h with
  | @issued rest c cs i p op hs hh hp hd ho hi => subst hop; cases i <;> cases ho
  | @appGoesOn _ a => cases a <;> cases hop
  | tickGoesOn hs hh => exact ⟨⟨_, hs⟩, hh⟩
  | _ => cases hop

/-- `APP` that goes on with a hand-off stands at the hold of it. -/
theorem Runs.handoff_hold {s b : State} {p : Nat} {op : PortOp} (h : Runs s p op b) :
    (op = .putGoesOn → s.appHold = some (.putHandoff p)) ∧ (op = .flushGoesOn → s.appHold = some (.flushHandoff p)) := by
  cases h with
  | @issued rest c cs i p op hs hh hp hd ho hi =>
    constructor <;> rintro rfl <;> cases i <;> cases ho
  | @appGoesOn _ a hs hh =>
    cases a with
    | putHandoff p => exact ⟨fun _ => hh, (by rintro ⟨⟩)⟩
    | flushHandoff p => exact ⟨(by rintro ⟨⟩), fun _ => hh⟩
    | _ => exact ⟨(by rintro ⟨⟩), (by rintro ⟨⟩)⟩
  | _ => exact ⟨(by rintro ⟨⟩), (by rintro ⟨⟩)⟩

/-- A step that changes a port runs an operation of it. -/
theorem step_changes_port {s t : State} {p : Nat} {q q' : Port} (h : step s = .next t) (hq : s.ports[p]? = some q)
    (hq' : t.ports[p]? = some q') (hne : q' ≠ q) : ∃ op b out m, Runs s p op b ∧ PortChange s.params p q op q' out m := by
  rcases step_next_cases h with hoff | ⟨p0, op, b, q0, q1, out, m, hruns, hq0, rfl, hchange⟩
  · rw [hoff.ports, hq] at hq'
    exact absurd (Option.some.inj hq').symm hne
  have hports := hruns.sameBlock.ports
  rw [getElem?_place (hports ▸ hq0), hports, hq] at hq'
  split_ifs at hq' with hp
  · subst hp
    cases hq'
    cases hq.symm.trans hq0
    exact ⟨op, b, out, m, hruns, hchange⟩
  · exact absurd (Option.some.inj hq').symm hne

/-- Settles O34: of the operations of a port only `INIT`, the tick and the tick handler write the counter. -/
theorem timeoutCounterWriters : Obligations.TimeoutCounterWriters := by
  unfold Obligations.TimeoutCounterWriters
  intro s t p q q' hstep hq hq' hne
  obtain ⟨op, b, out, m, hruns, hchange⟩ := step_changes_port hstep hq hq' (fun e => hne (by rw [e]))
  cases hchange with
  | init hi =>
    obtain ⟨c, cs, rest, hs⟩ := hruns.init_issued
    exact .inr (.inr ⟨c, cs, rest, hs⟩)
  | move hi hm =>
    by_cases ht : op = .tick
    · subst ht
      exact .inl hruns.tick_sched
    by_cases hg : op = .tickGoesOn
    · subst hg
      obtain ⟨⟨rest, hs⟩, hh⟩ := hruns.tickGoesOn_sched
      exact .inr (.inl ⟨rest, hs, hh⟩)
    · exact absurd (hm.timeoutCounter_eq ht hg) hne

/-! ## Ownership -/

/-- Settles O48: of the moves of a port only the completions of the hardware clear an ownership bit. -/
theorem onlyHardwareLiftsOwnership : Obligations.OnlyHardwareLiftsOwnership := by
  unfold Obligations.OnlyHardwareLiftsOwnership
  intro s t p q q' hstep hq hq' hi
  rcases step_port_cases hstep hq hq' hi with rfl | ⟨op, b, out, m, hruns, -, hm⟩
  · exact ⟨fun ho hf => absurd (ho.symm.trans hf) (by simp), fun ho hf => absurd (ho.symm.trans hf) (by simp)⟩
  constructor
  · intro ho hf
    by_cases hd : op = .inDone
    · subst hd
      exact hruns.inDone_sched
    · rw [hm.inOwned ho hd] at hf
      cases hf
  · intro ho hf
    by_cases hd : ∃ bytes, op = .outDone bytes
    · obtain ⟨bytes, rfl⟩ := hd
      exact ⟨bytes, hruns.outDone_sched⟩
    · rw [hm.outOwned ho (fun bytes e => hd ⟨bytes, e⟩)] at hf
      cases hf

/-! ## Zero-length packets -/

/-- A hand-off that goes on from its hold is pending (R39). -/
theorem Inv.waits_of_runs {s b : State} {p : Nat} {op : PortOp} {q : Port} (h : Inv s) (hr : Runs s p op b)
    (hq : s.ports[p]? = some q) (hop : op = .putGoesOn ∨ op = .flushGoesOn ∨ op = .tickGoesOn) : ∃ w, q.inWait = some w := by
  have hwaits : ∀ o, waitsWith o s p → ∃ w, q.inWait = some w := fun o hw => by
    obtain ⟨-, w, hwait, -⟩ := Inv.waiting hw hq
    exact ⟨w, hwait⟩
  rcases hop with rfl | rfl | rfl
  · exact hwaits .put ((h.putHold p).mp (hr.handoff_hold.1 rfl))
  · exact hwaits .flush ((h.flushHold p).mp (.inl (hr.handoff_hold.2 rfl)))
  · exact hwaits .flush ((h.flushHold p).mp (.inr hr.tickGoesOn_sched.2))

/-- A pending hand-off of length 0 is one that is owed (R173): a full buffer is not empty. -/
theorem PortOk.zlp_of_pendingLen {n : Nat} {q : Port} {w : InWait} (h : PortOk n q) (hn : 1 ≤ n) (hw : q.inWait = some w)
    (h0 : pendingLen q = 0) : q.zlpPending = true := by
  have hlen : w.len = 0 := by rw [← h0, pendingLen, hw]
  cases ho : w.origin with
  | put =>
    have hfull := (h.putWait w hw ho).1
    rw [hlen] at hfull
    exact absurd hfull.symm (Nat.one_le_iff_ne_zero.mp hn)
  | flush => exact (h.flushWait w hw ho).2 hlen

/-- A move that submits a packet of length 0 finds one owed (R179). -/
theorem PortMove.submits_zero {c : Params} {p p0 : Nat} {q q' : Port} {op : PortOp} {out : List Record} {m : Mark}
    {isA toggle : Bool} (hm : PortMove c p0 q op q' out m) (h : PortOk c.packetSize q) (hc : ParamsOk c)
    (hwaits : op = .putGoesOn ∨ op = .flushGoesOn ∨ op = .tickGoesOn → ∃ w, q.inWait = some w)
    (hrec : .submitIn p isA 0 toggle ∈ out) : p = p0 ∧ q.zlpPending = true := by
  have hsubmit : ∀ {len : Byte}, Record.submitIn p isA 0 toggle ∈ [submitRecord p0 len q] → p = p0 ∧ len = 0 := by
    intro len hmem
    cases List.mem_singleton.mp hmem
    exact ⟨rfl, rfl⟩
  have howed : ∀ {len : Byte}, len = 0 → (len ≠ 0 ∨ q.zlpPending = true) → q.zlpPending = true :=
    fun h0 hs => hs.resolve_left fun hne => hne h0
  have hlift : (op = .putGoesOn ∨ op = .flushGoesOn ∨ op = .tickGoesOn) → pendingLen q = 0 → q.zlpPending = true := by
    intro hop h0
    obtain ⟨w, hw⟩ := hwaits hop
    exact h.zlp_of_pendingLen hc.packetPos hw h0
  cases hm with
  | putGrants b hw hn ho =>
    obtain ⟨hp, h0⟩ := hsubmit hrec
    have hpos := hc.packetPos
    rw [h0] at hn
    exact absurd hn.symm (Nat.one_le_iff_ne_zero.mp hpos)
  | flushGrants hw hs ho =>
    obtain ⟨hp, h0⟩ := hsubmit hrec
    exact ⟨hp, howed h0 hs⟩
  | tickGrants hw hs ho =>
    obtain ⟨hp, h0⟩ := hsubmit hrec
    exact ⟨hp, howed h0 hs⟩
  | putLifts ho =>
    obtain ⟨hp, h0⟩ := hsubmit hrec
    exact ⟨hp, hlift (.inl rfl) h0⟩
  | flushLifts ho =>
    obtain ⟨hp, h0⟩ := hsubmit hrec
    exact ⟨hp, hlift (.inr (.inl rfl)) h0⟩
  | tickLifts ho =>
    obtain ⟨hp, h0⟩ := hsubmit hrec
    exact ⟨hp, hlift (.inr (.inr rfl)) h0⟩
  | _ => simp [armRecord] at hrec

/-- Settles O58: a submission is emitted by a hand-off alone, which has length 0 only when that is owed. -/
theorem zeroLengthOnlyWhenOwed : Obligations.ZeroLengthOnlyWhenOwed := by
  unfold Obligations.ZeroLengthOnlyWhenOwed
  intro s t p isA toggle new hinv hstep htrace hrec
  rcases step_next_cases hstep with hoff | ⟨p0, op, b, q, q', out, m, hruns, hq, rfl, hchange⟩
  · obtain ⟨out, hout, hno⟩ := hoff.trace
    rw [htrace] at hout
    cases List.append_cancel_left hout
    exact absurd hrec (hno p isA 0 toggle)
  · rw [place_trace, hruns.sameBlock.trace] at htrace
    cases List.append_cancel_left htrace
    cases hchange with
    | init hi => simp at hrec
    | move hi hm =>
      obtain ⟨rfl, hz⟩ := hm.submits_zero (hinv.port p0 q hq hi) hinv.params (hinv.waits_of_runs hruns hq) hrec
      exact ⟨q, hq, hz⟩

/-- A step leaves what the hardware owns: a granted buffer is not the one being filled, and only an arrival writes an OUT buffer. -/
theorem step_keeps_owned_buffers {s t : State} {p : Nat} {q q' : Port} (hinv : Inv s) (hstep : step s = .next t)
    (hq : s.ports[p]? = some q) (hq' : t.ports[p]? = some q') (hi : q.inited = true) :
    q'.inBuf.sel q.inDesc.bufIsA = q.inBuf.sel q.inDesc.bufIsA ∧
      ((∀ bytes rest, s.sched ≠ .hwepOutDone p bytes :: rest) → q'.outBuf = q.outBuf) := by
  rcases step_port_cases hstep hq hq' hi with rfl | ⟨op, b, out, m, hruns, -, hm⟩
  · exact ⟨rfl, fun _ => rfl⟩
  refine ⟨?_, fun hnot => hm.outBuf_eq fun bytes hop => ?_⟩
  · rw [(hinv.port p q hq hi).inOther]
    exact hm.inBuf_other
  · subst hop
    obtain ⟨rest, hs⟩ := hruns.outDone_sched
    exact hnot bytes rest hs

end Sys2Proof.Machine
end

section
/-! Separation (10_state.md R30, R31, R52; 43_fifo_out.md R208; 60_exceptions.md R267, R268): an operation of a port commutes with a
change of what it does not reach. -/

namespace Sys2Proof.Machine

/-! ## An operation and a change of its own port -/

/-- A result with `g` applied to the new value of the port. -/
def PortResult.map (g : Port → Port) : PortResult → PortResult
  | .next q out m => .next (g q) out m
  | .fault f => .fault f
  | .refused r => .refused r

/-- A step of the port with `g` applied to its new value. -/
def PortStep.map (g : Port → Port) : PortStep → PortStep
  | .done q out => .done (g q) out
  | .held q => .held (g q)

theorem PortStep.result_map (g : Port → Port) (m : Mark) (r : PortStep) : (r.map g).result m = (r.result m).map g := by
  cases r <;> rfl

theorem resetTicks_map {g : Port → Port} (hg : ∀ q, { g q with timeoutCounter := 0 } = g { q with timeoutCounter := 0 })
    (r : PortStep) : resetTicks (r.map g) = (resetTicks r).map g := by
  cases r with
  | done q out => simp only [PortStep.map, resetTicks, hg]
  | held q => rfl

/-- Changing the port after an operation replaced it is replacing it by the changed port. -/
theorem mapPort_place {p : Nat} {g : Port → Port} {q q0 : Port} {out : List Record} {m : Mark} {s : State}
    (hq : s.ports[p]? = some q0) : mapPort p g (place p q out m s) = place p (g q) out m s := by
  rw [mapPort_of_get (q := q) (by rw [getElem?_place hq, if_pos rfl])]
  cases m <;> simp [place, setPort, emitAll]

/-- The state handed to an operation of `p` may have any value of `p`: the operation replaces it. -/
theorem place_setPort {p : Nat} {q q0 : Port} {out : List Record} {m : Mark} {s : State} :
    place p q out m (setPort p q0 s) = place p q out m s := by
  cases m <;> simp [place, setPort, emitAll]

/-- An operation commutes with a change of its port, if its effect on the port does. -/
theorem runOn_mapPort {p : Nat} {g : Port → Port} {op : PortOp} {s : State}
    (hg : ∀ q, s.ports[p]? = some q → op.effect s.params p (g q) = (op.effect s.params p q).map g) :
    op.runOn p (mapPort p g s) = mapNext (mapPort p g) (op.runOn p s) := by
  cases hq : s.ports[p]? with
  | none =>
    have hsame : mapPort p g s = s := by simp only [mapPort, hq]
    rw [hsame]
    simp only [PortOp.runOn, hq, mapNext]
  | some q =>
    have hget : (setPort p (g q) s).ports[p]? = some (g q) := by rw [getElem?_setPort hq, if_pos rfl]
    rw [mapPort_of_get hq]
    simp only [PortOp.runOn, hget, hq, setPort_params, hg q hq]
    cases op.effect s.params p q with
    | next q' out m => simp only [PortResult.map, PortResult.outcome, mapNext, mapPort_place hq, place_setPort]
    | fault f => rfl
    | refused r => rfl

/-- A change that leaves whether the port is initialised commutes with an effect, if it does on initialised ports. -/
theorem effect_map {c : Params} {p : Nat} {g : Port → Port} {op : PortOp} {q : Port} (hi : (g q).inited = q.inited)
    (hfresh : ∀ q, op.onFresh c p q = .refused .notInited)
    (hon : q.inited = true → op.onInited c p (g q) = (op.onInited c p q).map g) :
    op.effect c p (g q) = (op.effect c p q).map g := by
  unfold PortOp.effect
  rw [hi]
  split_ifs with h
  · exact hon h
  · rw [hfresh, hfresh]; rfl

/-! ## An operation and a change of another port -/

/-- The ports but the replaced one. -/
theorem getElem?_setPort_ne {p p' : Nat} (h : p' ≠ p) (r : Port) (s : State) :
    (setPort p' r s).ports[p]? = s.ports[p]? := by
  rw [setPort_ports, List.getElem?_set_ne h]

theorem place_setPort_comm {p p' : Nat} (h : p' ≠ p) (q r : Port) (out : List Record) (m : Mark) (s : State) :
    place p q out m (setPort p' r s) = setPort p' r (place p q out m s) := by
  rw [place, setPort_comm h.symm]
  cases m <;> rfl

/-- An operation of a port commutes with replacing another port (10_state.md R31). -/
theorem runOn_setPort {p p' : Nat} (h : p' ≠ p) (r : Port) (op : PortOp) (s : State) :
    op.runOn p (setPort p' r s) = mapNext (setPort p' r) (op.runOn p s) := by
  simp only [PortOp.runOn, getElem?_setPort_ne h, setPort_params]
  cases s.ports[p]? with
  | none => rfl
  | some q =>
    simp only
    cases op.effect s.params p q with
    | next q' out m => simp only [PortResult.outcome, mapNext, place_setPort_comm h]
    | fault f => rfl
    | refused r => rfl

/-- Settles O51: what a command does to another port, what it reads of it, and what no step changes. -/
theorem portsAreIndependent : Obligations.PortsAreIndependent := by
  unfold Obligations.PortsAreIndependent
  refine ⟨?_, ?_, ?_, ?_, ?_⟩
  · intro i p p' s t hp hx hne
    obtain ⟨op, hop⟩ := portOp_of_portOf hp
    rw [exec_portOp hop] at hx
    obtain ⟨q, q', out, m, hq, rfl, -⟩ := runOn_next hx
    rw [getElem?_place hq, if_neg hne]
  · intro i p p' r s hp hne
    obtain ⟨op, hop⟩ := portOp_of_portOf hp
    rw [exec_portOp hop, exec_portOp hop, runOn_setPort hne]
  · intro h p' r s hne
    rw [resumeApp_eq, resumeApp_eq, runOn_setPort hne]
  · intro p p' r s hne
    rw [resumeTick_eq, resumeTick_eq, runOn_setPort hne]
  · intro s t hstep
    rcases step_next_cases hstep with hoff | ⟨p, op, b, q, q', out, m, hruns, hq, rfl, hchange⟩
    · exact ⟨by rw [hoff.ports], hoff.telem, hoff.params⟩
    · have hb := hruns.sameBlock
      exact ⟨by rw [place_ports, List.length_set, hb.ports], by rw [place_telem, hb.telem], by rw [place_params, hb.params]⟩

/-! ## The two directions of a port -/

/-- The operations of the IN side (42_fifo_in.md). -/
def PortOp.isIn : PortOp → Bool
  | .put _ => true
  | .flush => true
  | .tick => true
  | .inrdy => true
  | .putGoesOn => true
  | .flushGoesOn => true
  | .tickGoesOn => true
  | _ => false

/-- The operations of the OUT side (43_fifo_out.md). -/
def PortOp.isOut : PortOp → Bool
  | .get => true
  | .peek => true
  | .outrdy => true
  | _ => false

section
variable (r q : Port)

theorem finishIn_withOutSide (o : Origin) : finishIn o (withOutSide r q) = withOutSide r (finishIn o q) := by
  cases o <;> rfl

theorem handoffIn_withOutSide (p : Nat) (len : Byte) (o : Origin) :
    handoffIn p len o (withOutSide r q) = (handoffIn p len o q).map (withOutSide r) := by
  cases ho : q.inDesc.owned with
  | true => rw [handoffIn_owned ho, handoffIn_owned (by exact ho)]; rfl
  | false =>
    rw [handoffIn_free ho, handoffIn_free (by exact ho), PortStep.map, ← finishIn_withOutSide]
    rfl

theorem flushPort_withOutSide (p : Nat) : flushPort p (withOutSide r q) = (flushPort p q).map (withOutSide r) := by
  by_cases hg : q.flushInProgress = true ∨ (q.inLen = 0 ∧ q.zlpPending = false)
  · rw [flushPort_quiet hg, flushPort_quiet (by exact hg)]; rfl
  · rw [not_or, Bool.not_eq_true, not_and_or, Bool.not_eq_false] at hg
    obtain ⟨hclear, hs⟩ := hg
    rw [flushPort_sends hclear hs, flushPort_sends (by exact hclear) (by exact hs)]
    exact handoffIn_withOutSide r { q with flushInProgress := true } p q.inLen .flush

theorem resumeIn_withOutSide (p : Nat) (o : Origin) :
    resumeIn p o (withOutSide r q) = (resumeIn p o q).map (withOutSide r) := by
  unfold resumeIn
  have hsame : (withOutSide r q).inDesc.owned = q.inDesc.owned := rfl
  rw [hsame]
  split_ifs
  · rfl
  · rw [PortStep.map, ← finishIn_withOutSide]
    rfl

theorem tickFlush_withOutSide (p : Nat) (blocks : Bool) :
    tickFlush p blocks (withOutSide r q) = (tickFlush p blocks q).map (withOutSide r) := by
  unfold tickFlush
  have hwait : (withOutSide r q).inWait = q.inWait := rfl
  have hdesc : (withOutSide r q).inDesc = q.inDesc := rfl
  rw [hwait, hdesc]
  split_ifs
  · rw [flushPort_withOutSide, resetTicks_map (fun _ => rfl)]
  · rfl

theorem appendIn_withOutSide (b : Byte) : appendIn b (withOutSide r q) = withOutSide r (appendIn b q) := rfl

theorem countTick_withOutSide : countTick (withOutSide r q) = withOutSide r (countTick q) := rfl

/-- An operation of the IN side neither reads nor writes the OUT side (R208). -/
theorem onInited_withOutSide (c : Params) (p : Nat) {op : PortOp} (hop : op.isIn = true) :
    op.onInited c p (withOutSide r q) = (op.onInited c p q).map (withOutSide r) := by
  have hwait : (withOutSide r q).inWait = q.inWait := rfl
  cases op with
  | put b =>
    simp only [PortOp.onInited, hwait, appendIn_withOutSide]
    cases q.inWait with
    | some w => rfl
    | none =>
      have hlen : (withOutSide r (appendIn b q)).inLen = (appendIn b q).inLen := rfl
      simp only [hlen]
      split_ifs
      · rw [handoffIn_withOutSide, PortStep.result_map]
      · rfl
  | flush =>
    simp only [PortOp.onInited, hwait]
    cases q.inWait with
    | some w => rfl
    | none => rw [flushPort_withOutSide, PortStep.result_map]
  | tick =>
    have hcount : (withOutSide r (countTick q)).timeoutCounter = (countTick q).timeoutCounter := rfl
    simp only [PortOp.onInited, countTick_withOutSide, hcount]
    split_ifs
    · rw [tickFlush_withOutSide, PortStep.result_map]
    · rfl
  | inrdy => rfl
  | putGoesOn => simp only [PortOp.onInited, resumeIn_withOutSide, PortStep.result_map]
  | flushGoesOn => simp only [PortOp.onInited, resumeIn_withOutSide, PortStep.result_map]
  | tickGoesOn =>
    simp only [PortOp.onInited, resumeIn_withOutSide, resetTicks_map (g := withOutSide r) (fun _ => rfl), PortStep.result_map]
  | _ => cases hop

theorem takeResult_withInSide (out : List Record) :
    takeResult (withInSide r q) out = (takeResult q out).map (withInSide r) := by
  have hnext : nextOut (withInSide r q) = nextOut q := rfl
  unfold takeResult
  rw [hnext]
  cases nextOut q <;> rfl

theorem peekResult_withInSide (out : List Record) :
    peekResult (withInSide r q) out = (peekResult q out).map (withInSide r) := by
  have hnext : nextOut (withInSide r q) = nextOut q := rfl
  have hlen : (withInSide r q).outLen = q.outLen := rfl
  unfold peekResult
  rw [hnext, hlen]
  split_ifs
  · rfl
  · cases nextOut q <;> rfl

theorem swapOut_withInSide (n : Nat) : swapOut n (withInSide r q) = withInSide r (swapOut n q) := rfl

/-- An operation of the OUT side neither reads nor writes the IN side (R208). -/
theorem onInited_withInSide (c : Params) (p : Nat) {op : PortOp} (hop : op.isOut = true) :
    op.onInited c p (withInSide r q) = (op.onInited c p q).map (withInSide r) := by
  have hlen : (withInSide r q).outLen = q.outLen := rfl
  have hdesc : (withInSide r q).outDesc = q.outDesc := rfl
  have harm : armRecord p (withInSide r q) = armRecord p q := rfl
  cases op with
  | get =>
    simp only [PortOp.onInited, hlen, hdesc, harm, swapOut_withInSide, takeResult_withInSide]
    split_ifs <;> rfl
  | peek =>
    simp only [PortOp.onInited, hlen, hdesc, harm, swapOut_withInSide, peekResult_withInSide]
    split_ifs <;> rfl
  | outrdy => rfl
  | _ => cases hop

end

theorem onFresh_of_isIn {op : PortOp} (hop : op.isIn = true) (c : Params) (p : Nat) (q : Port) :
    op.onFresh c p q = .refused .notInited := by
  cases op with
  | put | flush | tick | inrdy | putGoesOn | flushGoesOn | tickGoesOn => rfl
  | _ => cases hop

theorem onFresh_of_isOut {op : PortOp} (hop : op.isOut = true) (c : Params) (p : Nat) (q : Port) :
    op.onFresh c p q = .refused .notInited := by
  cases op with
  | get | peek | outrdy => rfl
  | _ => cases hop

theorem runOn_withOutSide {op : PortOp} (hop : op.isIn = true) (p : Nat) (r : Port) (s : State) :
    op.runOn p (mapPort p (withOutSide r) s) = mapNext (mapPort p (withOutSide r)) (op.runOn p s) :=
  runOn_mapPort fun q _ => effect_map rfl (onFresh_of_isIn hop _ _) fun _ => onInited_withOutSide r q _ p hop

theorem runOn_withInSide {op : PortOp} (hop : op.isOut = true) (p : Nat) (r : Port) (s : State) :
    op.runOn p (mapPort p (withInSide r) s) = mapNext (mapPort p (withInSide r)) (op.runOn p s) :=
  runOn_mapPort fun q _ => effect_map rfl (onFresh_of_isOut hop _ _) fun _ => onInited_withInSide r q _ p hop

/-- An IN-side operation that completes or holds leaves the OUT side of its port. -/
theorem PortMove.outSide {c : Params} {p : Nat} {q q' : Port} {op : PortOp} {out : List Record} {m : Mark}
    (hm : PortMove c p q op q' out m) (hop : op.isIn = true) : withOutSide q q' = q' := by
  cases hm with
  | getTakes | getWaits | getSwapsTakes | getSwapsEmpty | peekKeeps | peekSwaps | outrdy | setlc | getlc | setcls | inDone
  | outDone => cases hop
  | _ => rfl

/-- An OUT-side operation that completes or holds leaves the IN side of its port. -/
theorem PortMove.inSide {c : Params} {p : Nat} {q q' : Port} {op : PortOp} {out : List Record} {m : Mark}
    (hm : PortMove c p q op q' out m) (hop : op.isOut = true) : withInSide q q' = q' := by
  cases hm with
  | getTakes | getWaits | getSwapsTakes | getSwapsEmpty | peekKeeps | peekSwaps | outrdy => rfl
  | _ => cases hop

/-- A command that completes on a port moves that port. -/
theorem exec_move {i : Instr} {p : Nat} {op : PortOp} {s t : State} {q q' : Port} (hop : portOp i = some (p, op))
    (hne : op ≠ .init) (hx : exec i s = .next t) (hq : s.ports[p]? = some q) (hq' : t.ports[p]? = some q') :
    ∃ out m, PortMove s.params p q op q' out m := by
  rw [exec_portOp hop] at hx
  obtain ⟨q0, q1, out, m, hq0, rfl, hchange⟩ := runOn_next hx
  cases hq.symm.trans hq0
  rw [getElem?_place hq, if_pos rfl] at hq'
  cases hq'
  cases hchange with
  | init hi => exact absurd rfl hne
  | move hi hm => exact ⟨out, m, hm⟩

/-- Settles O52: the operations of one side commute with any change of the other, and leave it. -/
theorem directionsAreIndependent : Obligations.DirectionsAreIndependent := by
  unfold Obligations.DirectionsAreIndependent
  refine ⟨fun i p r s => ⟨?_, ?_⟩, fun h r s => ⟨fun hget => ?_, ?_⟩, fun p r s => ?_, ?_⟩
  · rintro (⟨b, rfl⟩ | rfl | rfl | rfl)
    all_goals
      rw [exec_portOp rfl, exec_portOp rfl]
      exact runOn_withOutSide rfl p r s
  · rintro (rfl | rfl | rfl)
    all_goals
      rw [exec_portOp rfl, exec_portOp rfl]
      exact runOn_withInSide rfl p r s
  · rw [resumeApp_eq, resumeApp_eq]
    cases h with
    | getSwap p => exact absurd rfl (hget p)
    | _ => exact runOn_withOutSide rfl _ r s
  · rintro p rfl
    rw [resumeApp_eq, resumeApp_eq]
    exact runOn_withInSide rfl p r s
  · rw [resumeTick_eq, resumeTick_eq]
    exact runOn_withOutSide rfl p r s
  · intro s t p q q' hq hq'
    constructor
    · have hkeeps : ∀ {i op}, portOp i = some (p, op) → op.isIn = true → op ≠ .init → exec i s = .next t →
          withOutSide q q' = q' := fun hop hin hne hx => by
        obtain ⟨out, m, hm⟩ := exec_move hop hne hx hq hq'
        exact hm.outSide hin
      intro hx
      have hside : withOutSide q q' = q' := by
        rcases hx with ⟨b, hx⟩ | hx | hx | hx
        · exact hkeeps rfl rfl (by simp) hx
        · exact hkeeps rfl rfl (by simp) hx
        · exact hkeeps rfl rfl (by simp) hx
        · exact hkeeps rfl rfl (by simp) hx
      rw [← hside]
      exact ⟨rfl, rfl, rfl, rfl, rfl⟩
    · have hkeeps : ∀ {i op}, portOp i = some (p, op) → op.isOut = true → op ≠ .init → exec i s = .next t →
          withInSide q q' = q' := fun hop hout hne hx => by
        obtain ⟨out, m, hm⟩ := exec_move hop hne hx hq hq'
        exact hm.inSide hout
      intro hx
      have hside : withInSide q q' = q' := by
        rcases hx with hx | hx | hx
        · exact hkeeps rfl rfl (by simp) hx
        · exact hkeeps rfl rfl (by simp) hx
        · exact hkeeps rfl rfl (by simp) hx
      rw [← hside]
      exact ⟨rfl, rfl, rfl, rfl, rfl, rfl, rfl, rfl⟩

/-! ## The two units -/

/-- Settles O49: events and commands without a port leave the ports, commands of a port leave everything else. -/
theorem unitsShareNoState : Obligations.UnitsShareNoState := by
  unfold Obligations.UnitsShareNoState
  intro i s t hx
  have hport : portOf i ≠ none → t.mem = s.mem ∧ t.telem = s.telem ∧ t.dec = s.dec := by
    intro hp
    obtain ⟨p, hp⟩ := Option.ne_none_iff_exists'.mp hp
    obtain ⟨op, hop⟩ := portOp_of_portOf hp
    rw [exec_portOp hop] at hx
    obtain ⟨q, q', out, m, -, rfl, -⟩ := runOn_next hx
    exact ⟨place_mem .., place_telem .., place_dec ..⟩
  refine ⟨fun hi => ?_, fun hi hne => ?_, hport⟩
  · obtain ⟨-, htelem, hports, happ, htick, -⟩ := exec_event_frame hi hx
    exact ⟨hports, happ, htick, htelem⟩
  · cases i with
    | i2creset => exact absurd rfl hne
    | asget a => cases hx; rfl
    | asset a v => cases hx; exact asSet_dec a v s
    | reserved w => cases hx
    | i2cStop _ _ _ _ | i2cWaddr _ _ | i2cAhi _ _ | i2cAlo _ _ | i2cWdata _ _ | i2cRaddr _ _ | i2cRnext _ _ => cases hi
    | _ => exact (hport (by simp [portOf])).2.2

/-- Replacing a port and marking a hold go past a change of DEC and the stores. -/
theorem place_withDec (p : Nat) (q : Port) (out out' : List Record) (m : Mark) (s : State) (d : Dec) (mem : Memory) :
    place p q out m { s with dec := d, mem := mem, trace := s.trace ++ out' } =
      { place p q out m s with dec := d, mem := mem, trace := s.trace ++ out' ++ out } := by
  cases m <;> rfl

/-- An operation of a port does the same in a state with the same ports and parameters. -/
theorem runOn_next_congr {op : PortOp} {p : Nat} {s t u : State} (h : op.runOn p s = .next t) (hports : u.ports = s.ports)
    (hparams : u.params = s.params) :
    ∃ q out m, t = place p q out m s ∧ op.runOn p u = .next (place p q out m u) := by
  unfold PortOp.runOn at h ⊢
  rw [hports, hparams]
  cases hq : s.ports[p]? with
  | none => rw [hq] at h; cases h
  | some q =>
    simp only [hq] at h ⊢
    cases hr : op.effect s.params p q with
    | next q' out m => rw [hr] at h; cases h; exact ⟨q', out, m, rfl, rfl⟩
    | fault f => rw [hr] at h; cases h
    | refused r => rw [hr] at h; cases h

/-- Settles O50: an event acts on DEC and the stores and a command of a port elsewhere, and neither reads what the other writes. -/
theorem unitsCommute : Obligations.UnitsCommute := by
  unfold Obligations.UnitsCommute
  intro i j s s1 s2 hi hj hx1 hx2
  have hr : ∀ w, i ≠ .reserved w := by rintro w rfl; cases hi
  obtain ⟨d, mem, out1, -, hevent⟩ := actsOutsidePorts (portOf_of_isEvent hi) hr s
  obtain ⟨p, hp⟩ := Option.ne_none_iff_exists'.mp hj
  obtain ⟨op, hop⟩ := portOp_of_portOf hp
  have hs1 : s1 = { s with dec := d, mem := mem, trace := s.trace ++ out1 } :=
    Host.Outcome.next.inj (hx1.symm.trans (hevent s rfl rfl rfl rfl))
  rw [exec_portOp hop] at hx2
  obtain ⟨q, out2, m, rfl, hx1'⟩ := runOn_next_congr (u := s1) hx2 (by rw [hs1]) (by rw [hs1])
  have hcommand : exec j s1 = .next (place p q out2 m s1) := (exec_portOp hop s1).trans hx1'
  refine ⟨_, _, hcommand, hevent _ (place_params ..) (place_dec ..) (place_mem ..) (place_telem ..), ?_, ?_⟩
  · rw [hs1, place_withDec]
  · rw [hs1, place_withDec, place_trace, List.append_assoc, List.append_assoc]
    exact List.perm_append_comm.append_left s.trace

/-! ## The armed buffer -/

/-- A port with other contents in its armed buffer is one with another OUT side. -/
theorem withOutSide_withArmed {q q' : Port} (cells : List Host.Cell) (h : withOutSide q q' = q') :
    withOutSide (withArmed cells q) q' = withArmed cells q' := by
  rw [← h]
  rfl

/-- The next byte to drain is not in the armed buffer (10_state.md R44). -/
theorem nextOut_withArmed {q : Port} (hother : q.outDesc.bufIsA = !q.activeOutIsA) (cells : List Host.Cell) :
    nextOut (withArmed cells q) = nextOut q := by
  simp only [nextOut, withArmed, readIndex, hother, BufPair.sel_upd_not']

section
variable {c : Params} {p : Nat} {q : Port} (cells : List Host.Cell)

/-- An IN-side operation does the same whatever the armed buffer holds. -/
theorem onInited_withArmed_of_isIn {op : PortOp} (hop : op.isIn = true) :
    op.onInited c p (withArmed cells q) = (op.onInited c p q).map (withArmed cells) := by
  have hmap := onInited_withOutSide (withArmed cells q) q c p hop
  rw [show withOutSide (withArmed cells q) q = withArmed cells q from rfl] at hmap
  rw [hmap]
  cases hr : op.onInited c p q with
  | next q' out m => simp only [PortResult.map, withOutSide_withArmed cells ((portMove_of_onInited hr).outSide hop)]
  | fault f => rfl
  | refused r => rfl

/-- While the hardware owns the OUT descriptor, every operation but an arrival does the same whatever the armed buffer holds. -/
theorem onInited_withArmed (hother : q.outDesc.bufIsA = !q.activeOutIsA) (ho : q.outDesc.owned = true) {op : PortOp}
    (hne : ∀ bytes, op ≠ .outDone bytes) :
    op.onInited c p (withArmed cells q) = (op.onInited c p q).map (withArmed cells) := by
  have hlen : (withArmed cells q).outLen = q.outLen := rfl
  have hdesc : (withArmed cells q).outDesc = q.outDesc := rfl
  have hnext := nextOut_withArmed hother cells
  cases op with
  | get =>
    simp only [PortOp.onInited, hlen, hdesc, ho, if_true, takeResult, hnext]
    split_ifs
    · cases nextOut q <;> rfl
    · rfl
  | peek =>
    simp only [PortOp.onInited, hlen, hdesc, ho, Bool.true_eq_false, and_false, if_false, peekResult, hnext]
    split_ifs
    · rfl
    · cases nextOut q <;> rfl
  | setlc coding =>
    simp only [PortOp.onInited]
    split_ifs <;> rfl
  | inDone =>
    have hin : (withArmed cells q).inDesc = q.inDesc ∧ (withArmed cells q).inBuf = q.inBuf := ⟨rfl, rfl⟩
    simp only [PortOp.onInited, hin.1, hin.2]
    split_ifs
    · cases readRun (q.inBuf.sel q.inDesc.bufIsA) 0 q.inDesc.count.toNat <;> rfl
    · rfl
  | init | outrdy | getlc | setcls => rfl
  | outDone bytes => exact absurd rfl (hne bytes)
  | put | flush | tick | inrdy | putGoesOn | flushGoesOn | tickGoesOn => exact onInited_withArmed_of_isIn cells rfl

end

/-- A command is no completion of the hardware. -/
theorem portOp_ne_outDone {i : Instr} {p : Nat} {op : PortOp} (h : portOp i = some (p, op)) (bytes : List Byte) :
    op ≠ .outDone bytes := by
  rintro rfl
  cases i <;> cases h

/-- A command commutes with other contents of an armed buffer, of its own or of another port. -/
theorem runOn_withArmed {p p' : Nat} {op : PortOp} {s : State} {q : Port} (hinv : Inv s) (hq : s.ports[p]? = some q)
    (hi : q.inited = true) (ho : q.outDesc.owned = true) (hne : ∀ bytes, op ≠ .outDone bytes) (cells : List Host.Cell) :
    op.runOn p' (mapPort p (withArmed cells) s) = mapNext (mapPort p (withArmed cells)) (op.runOn p' s) := by
  by_cases hp : p' = p
  · subst hp
    refine runOn_mapPort fun q0 hq0 => ?_
    cases hq.symm.trans hq0
    have hother := (hinv.port p' q hq hi).outOther
    rw [PortOp.effect, PortOp.effect, if_pos hi, if_pos (by exact hi)]
    exact onInited_withArmed cells hother ho hne
  · rw [mapPort_of_get hq, runOn_setPort (Ne.symm hp)]
    cases hx : op.runOn p' s with
    | next t =>
      obtain ⟨q0, q1, out, m, hq0, rfl, -⟩ := runOn_next hx
      have hget : (place p' q1 out m s).ports[p]? = some q := by rw [getElem?_place hq0, if_neg (Ne.symm hp), hq]
      rw [mapNext_next, mapNext_next, mapPort_of_get hget]
    | fault f => rfl
    | refused r => rfl

/-- Settles O57: what the hardware owns is neither the buffer being filled nor the one being drained. -/
theorem grantedBufferIsUntouched : Obligations.GrantedBufferIsUntouched := by
  unfold Obligations.GrantedBufferIsUntouched
  refine ⟨fun i s p q cells hinv hq hi ho => ?_, fun s t p q q' hinv hstep hq hq' hi => ?_⟩
  · cases hop : portOp i with
    | some pop =>
      rw [exec_portOp hop, exec_portOp hop]
      exact runOn_withArmed hinv hq hi ho (portOp_ne_outDone hop) cells
    | none =>
      have hport : portOf i = none := by rw [portOf_eq_portOp, hop]; rfl
      rw [mapPort_of_get hq]
      by_cases hr : ∃ w, i = .reserved w
      · obtain ⟨w, rfl⟩ := hr
        rfl
      · obtain ⟨d, mem, out, -, hx⟩ := actsOutsidePorts hport (fun w e => hr ⟨w, e⟩) s
        rw [hx s rfl rfl rfl rfl, hx (setPort p (withArmed cells q) s) rfl rfl rfl rfl, mapNext_next, mapPort_of_get (by exact hq)]
        rfl
  · obtain ⟨hin, hout⟩ := step_keeps_owned_buffers hinv hstep hq hq' hi
    exact ⟨fun _ => hin, fun _ hnot => by rw [hout hnot]⟩

end Sys2Proof.Machine
end

section
/-! The address space and the bus transactions (20_memory.md R62 to R73, 40_i2c_decoder.md R135 to R138, R150). -/

namespace Sys2Proof.Machine

/-! ## Reads and writes -/

/-- The read/write addresses of the statements are those of the region list (20_memory.md R61). -/
theorem mutableAt_iff (a : Addr) : mutableAt a ↔ writableAt a.toNat = true := (writableAt_iff a.toNat).symm

section
variable (s : State) (a b : Addr) (v : Byte)

theorem asGet_asSet_same (h : mutableAt a) : asGet (asSet a v s) a = v := by
  rw [asGet_asSet, if_pos ⟨rfl, (mutableAt_iff a).mp h⟩]

theorem asGet_asSet_other (h : b ≠ a) : asGet (asSet a v s) b = asGet s b := by
  rw [asGet_asSet, if_neg fun hb => h hb.1]

/-- A write outside the read/write regions is discarded (R63). -/
theorem asSet_mem_of_not_mutable (h : ¬ mutableAt a) : (asSet a v s).mem = s.mem := by
  rw [asSet_mem, if_neg fun hw => h ((mutableAt_iff a).mpr hw)]

end

/-- Settles O23: a write changes what is read at a read/write address alone. -/
theorem readOnlyReadsAreInvariant : Obligations.ReadOnlyReadsAreInvariant := by
  unfold Obligations.ReadOnlyReadsAreInvariant
  intro s a b v hb
  rw [asGet_asSet, if_neg]
  rintro ⟨rfl, hw⟩
  exact hb ((mutableAt_iff b).mpr hw)

/-- Settles O22: both commands are one access of the address space. -/
theorem directAccessEffect : Obligations.DirectAccessEffect := by
  unfold Obligations.DirectAccessEffect
  intro s a v
  refine ⟨rfl, asSet a v s, rfl, asGet_asSet_same s a v, fun b => asGet_asSet_other s a b v, asSet_mem_of_not_mutable s a v,
    asSet_trace a v s, ?_⟩
  simp

/-- Settles O12: the streamed write is one write at the pointer before the increment, between opening and closing the event. -/
theorem writeDataEffect : Obligations.WriteDataEffect := by
  unfold Obligations.WriteDataEffect
  intro s st bf v a
  refine ⟨_, exec_i2cWdata_eq st bf s, rfl, fun b => ?_, asSet_mem_of_not_mutable s a v, asSet_trace a v s, ?_⟩
  · have hread : ∀ d : Dec, asGet { asSet a v s with dec := d } b = asGet (asSet a v s) b := fun d => asGet_congr rfl rfl rfl b
    constructor
    · rintro rfl hm
      rw [hread]
      exact asGet_asSet_same s a v hm
    · intro hne
      rw [hread]
      exact asGet_asSet_other s a b v hne
  · simp

/-- Settles O11: the three classes of the address phase. -/
theorem addressPhaseEffect : Obligations.AddressPhaseEffect := by
  unfold Obligations.AddressPhaseEffect
  intro s st bf v
  refine ⟨by rw [exec_i2cWaddr, closeEvent_openEvent], ?_, rfl⟩
  rw [exec_i2cAhi]
  cases hc : s.params.commitPolicy <;> simp [closeEvent, stageHigh, openEvent, afterEvent, clearBF, hc, v]

/-! ## Telemetry -/

theorem telemChannel_eq (o : Byte) : telemChannel o = o.toNat % 16 := by
  rw [telemChannel, BitVec.extractLsb'_toNat, Nat.shiftRight_eq_div_pow, pow_zero, Nat.div_one]

theorem telemField_eq (o : Byte) : telemField o = o.toNat / 16 := by
  have := o.isLt
  rw [telemField, BitVec.extractLsb'_toNat, Nat.shiftRight_eq_div_pow]
  omega

theorem toNat_loByte (v : BitVec 16) : (loByte v).toNat = v.toNat % 256 := by
  rw [loByte, BitVec.extractLsb'_toNat, Nat.shiftRight_eq_div_pow, pow_zero, Nat.div_one]

theorem toNat_hiByte (v : BitVec 16) : (hiByte v).toNat = v.toNat / 256 := by
  have := v.isLt
  rw [hiByte, BitVec.extractLsb'_toNat, Nat.shiftRight_eq_div_pow]
  omega

/-- Settles O21: the two nibbles are the remainder and the quotient by 16, and the fields the cases of the quotient. -/
theorem telemetryByNibbles : Obligations.TelemetryByNibbles := by
  unfold Obligations.TelemetryByNibbles
  intro telem o
  rw [← telemChannel_eq, ← telemField_eq]
  refine ⟨fun hlen => ?_, fun r hr => ⟨fun h0 => ?_, fun h1 => ?_, fun h2 => ?_, fun h3 => ?_, fun h4 => ?_⟩⟩
  · simp only [telemetryGet, List.getElem?_eq_none hlen]
    rfl
  · simp only [telemetryGet, hr, h0]
  · simp only [telemetryGet, hr, h1]
  · simp only [telemetryGet, hr, h2, toNat_loByte]
  · simp only [telemetryGet, hr, h3, toNat_hiByte]
  · simp only [telemetryGet, hr]
    split
    case h_5 => rfl
    all_goals omega

/-! ## Runs -/

/-- A run of any machine takes its first step first. -/
theorem run_of_step {M : Host.Core} {s t : M.State} (h : M.step s = .next t) (n : Nat) : M.run (n + 1) s = M.run n t := by
  simp only [Host.Core.run, h]

theorem run_succ {s t : State} (h : step s = .next t) (n : Nat) : Host.Core.run core (n + 1) s = Host.Core.run core n t :=
  run_of_step (M := core) h n

/-- The state in which DEC finds the event of a line `EV stat rx`, its turns taken off (46_environment.md R242). -/
def raised (stat : BitVec 5) (rx : Byte) (rest : List Turn) (s : State) : State :=
  { s with sched := rest, dec := raiseEvent stat rx s.dec }

/-- A line `EV stat rx` runs in two steps: the event is raised and DEC handles it (30_encoding.md R110). -/
theorem run_event {s t : State} {stat : BitVec 5} {rx : Byte} {rest : List Turn} (hs : s.sched = evTurns stat rx ++ rest)
    (hh : s.dec.sclHeld = false) (hx : exec (decodeEvent s.dec.phaseCount stat) (raised stat rx rest s) = .next t) (n : Nat) :
    Host.Core.run core (n + 2) s = Host.Core.run core n t := by
  have hraise : step s = .next { s with sched := .dec :: rest, dec := raiseEvent stat rx s.dec } := by
    rw [step_of_sched hs]
    simp [runTurn, envEvent, hh]
  have hhandle : step { s with sched := .dec :: rest, dec := raiseEvent stat rx s.dec } = .next t := by
    rw [step_dec_pending rfl rfl]
    exact hx
  rw [run_succ hraise, run_succ hhandle]

/-! ## The write transaction -/

/-- What a stream of writes leaves in the stores and the trace depends on the stores and the trace alone. -/
theorem writeStream_congr {s u : State} (hm : u.mem = s.mem) (ht : u.trace = s.trace) (a : Addr) (ds : List Byte) :
    (writeStream a ds u).mem = (writeStream a ds s).mem ∧ (writeStream a ds u).trace = (writeStream a ds s).trace := by
  induction ds generalizing a s u with
  | nil => exact ⟨hm, ht⟩
  | cons d ds ih => exact ih (by rw [asSet_mem, asSet_mem, hm]) (by rw [asSet_trace, asSet_trace, ht]) (a + 1)

/-- `t` is `s` after the data bytes `ds` of a write transaction, streamed from the pointer on. -/
structure AfterData (ds : List Byte) (s t : State) : Prop where
  pointer : t.dec.pointer = s.dec.pointer + BitVec.ofNat 16 ds.length
  shadow : t.dec.shadow = s.dec.shadow
  phaseCount : phaseInt t.dec.phaseCount = min (phaseInt s.dec.phaseCount + ds.length) 127
  sclHeld : t.dec.sclHeld = false
  txReg : t.dec.txReg = s.dec.txReg
  mem : t.mem = (writeStream s.dec.pointer ds s).mem
  trace : t.trace = (writeStream s.dec.pointer ds s).trace
  sched : t.sched = []
  ports : t.ports = s.ports
  telem : t.telem = s.telem

/-- The state after one data byte of a write transaction. -/
def dataWritten (d : Byte) (rest : List Turn) (s : State) : State :=
  { asSet s.dec.pointer d (raised 0x15 d rest s) with
    dec := { afterEvent (nextPhase true s.dec.phaseCount) true .streamWrite false (raiseEvent 0x15 d s.dec) with
      pointer := s.dec.pointer + 1 } }

theorem run_dataByte {s : State} {d : Byte} {rest : List Turn} (hs : s.sched = evTurns 0x15 d ++ rest)
    (hh : s.dec.sclHeld = false) (hp : 1 ≤ phaseInt s.dec.phaseCount) (n : Nat) :
    Host.Core.run core (n + 2) s = Host.Core.run core n (dataWritten d rest s) := by
  refine run_event hs hh ?_ n
  rw [decodeEvent_of_streamedByte (by decide) (by decide) (by decide) hp, exec_i2cWdata_eq]
  rfl

/-- The data bytes of a write transaction run in two steps each. -/
theorem run_dataTurns (ds : List Byte) {s : State} (hs : s.sched = dataTurns ds) (hh : s.dec.sclHeld = false)
    (hp : 1 ≤ phaseInt s.dec.phaseCount) : ∃ t, Host.Core.run core (2 * ds.length) s = .next t ∧ AfterData ds s t := by
  induction ds generalizing s with
  | nil =>
    have hbound := phaseInt_bounds s.dec.phaseCount
    exact ⟨s, rfl, by simp, rfl, by simp [hbound.2], hh, rfl, rfl, rfl, hs, rfl, rfl⟩
  | cons d ds ih =>
    have hnext : phaseInt (dataWritten d (dataTurns ds) s).dec.phaseCount = min (phaseInt s.dec.phaseCount + 1) 127 :=
      phaseInt_nextPhase_true _
    obtain ⟨t, hrun, ht⟩ := ih (s := dataWritten d (dataTurns ds) s) (by simp [dataWritten, raised]) rfl (by omega)
    have hstream := writeStream_congr (s := asSet s.dec.pointer d s) (u := dataWritten d (dataTurns ds) s)
      (by simp only [dataWritten, asSet_mem]; rfl) (by simp only [dataWritten, asSet_trace]; rfl) (s.dec.pointer + 1) ds
    refine ⟨t, ?_, ?_⟩
    · rw [List.length_cons, Nat.mul_succ, run_dataByte hs hh hp]
      exact hrun
    · exact
        { pointer := by
            rw [ht.pointer, List.length_cons, Nat.add_comm, BitVec.ofNat_add]
            exact BitVec.add_assoc _ _ _
          shadow := ht.shadow
          phaseCount := by
            rw [ht.phaseCount, hnext, List.length_cons]
            push_cast
            omega
          sclHeld := ht.sclHeld
          txReg := ht.txReg
          mem := ht.mem.trans hstream.1
          trace := ht.trace.trans hstream.2
          sched := ht.sched
          ports := ht.ports.trans (asSet_ports _ _ _)
          telem := ht.telem.trans (asSet_telem _ _ _) }

/-- `t` is `s` after a byte of the address phase, of which no store, port or record is seen (R135 to R137). -/
structure AfterAddressByte (ph : Phase) (rest : List Turn) (s t : State) : Prop where
  phaseCount : t.dec.phaseCount = ph
  sclHeld : t.dec.sclHeld = false
  txReg : t.dec.txReg = s.dec.txReg
  mem : t.mem = s.mem
  trace : t.trace = s.trace
  sched : t.sched = rest
  ports : t.ports = s.ports
  telem : t.telem = s.telem

theorem AfterAddressByte.trans {ph ph' : Phase} {rest rest' : List Turn} {s u t : State} (h1 : AfterAddressByte ph rest s u)
    (h2 : AfterAddressByte ph' rest' u t) : AfterAddressByte ph' rest' s t :=
  ⟨h2.phaseCount, h2.sclHeld, h2.txReg.trans h1.txReg, h2.mem.trans h1.mem, h2.trace.trans h1.trace, h2.sched,
    h2.ports.trans h1.ports, h2.telem.trans h1.telem⟩

section
variable {s : State} {x : Byte} {rest : List Turn}

theorem run_writeAddress (hs : s.sched = evTurns 0x05 x ++ rest) (hh : s.dec.sclHeld = false) (n : Nat) :
    ∃ t, Host.Core.run core (n + 2) s = Host.Core.run core n t ∧ AfterAddressByte .address rest s t := by
  have hx := exec_i2cWaddr (statS 0x05) (statBF 0x05) (raised 0x05 x rest s)
  rw [← decodeEvent_of_writeAddress (by decide) (by decide) (by decide) s.dec.phaseCount] at hx
  refine ⟨_, run_event hs hh hx n, ?_⟩
  exact ⟨rfl, rfl, rfl, rfl, rfl, rfl, rfl, rfl⟩

theorem run_addressHigh (hs : s.sched = evTurns 0x15 x ++ rest) (hh : s.dec.sclHeld = false)
    (hp : s.dec.phaseCount = .address) (n : Nat) :
    ∃ t, Host.Core.run core (n + 2) s = Host.Core.run core n t ∧ AfterAddressByte (.data 0) rest s t ∧
      t.dec.shadow = word16 x (loByte s.dec.shadow) := by
  have hx := exec_i2cAhi (statS 0x15) (statBF 0x15) (raised 0x15 x rest s)
  rw [← decodeEvent_of_addressHigh (ph := s.dec.phaseCount) (by decide) (by decide) (by decide) (by rw [hp]; rfl)] at hx
  refine ⟨_, run_event hs hh hx n, ?_, ?_⟩
  · exact ⟨rfl, rfl, rfl, rfl, rfl, rfl, rfl, rfl⟩
  · rfl

theorem run_addressLow (hs : s.sched = evTurns 0x15 x ++ rest) (hh : s.dec.sclHeld = false)
    (hp : s.dec.phaseCount = .data 0) (n : Nat) :
    ∃ t, Host.Core.run core (n + 2) s = Host.Core.run core n t ∧ AfterAddressByte (.data 1) rest s t ∧
      t.dec.shadow = word16 (hiByte s.dec.shadow) x ∧ t.dec.pointer = word16 (hiByte s.dec.shadow) x := by
  have hx := exec_i2cAlo (statS 0x15) (statBF 0x15) (raised 0x15 x rest s)
  rw [← decodeEvent_of_addressLow (ph := s.dec.phaseCount) (by decide) (by decide) (by decide) (by rw [hp]; rfl)] at hx
  refine ⟨_, run_event hs hh hx n, ?_, ?_⟩
  · exact ⟨rfl, rfl, rfl, rfl, rfl, rfl, rfl, rfl⟩
  · exact ⟨rfl, rfl⟩

end

/-- The first three bytes of a write transaction set `shadow` and `pointer`, whatever the commit policy. -/
theorem run_address {s : State} {x hi lo : Byte} {rest : List Turn}
    (hs : s.sched = evTurns 0x05 x ++ (evTurns 0x15 hi ++ (evTurns 0x15 lo ++ rest))) (hh : s.dec.sclHeld = false) (n : Nat) :
    ∃ t, Host.Core.run core (n + 6) s = Host.Core.run core n t ∧ AfterAddressByte (.data 1) rest s t ∧
      t.dec.shadow = word16 hi lo ∧ t.dec.pointer = word16 hi lo := by
  obtain ⟨s1, hrun1, h1⟩ := run_writeAddress hs hh (n + 4)
  obtain ⟨s2, hrun2, h2, hshadow⟩ := run_addressHigh h1.sched h1.sclHeld h1.phaseCount (n + 2)
  obtain ⟨s3, hrun3, h3, hshadow3, hpointer3⟩ := run_addressLow h2.sched h2.sclHeld h2.phaseCount n
  rw [hshadow, hiByte_word16] at hshadow3 hpointer3
  exact ⟨s3, hrun1.trans (hrun2.trans hrun3), (h1.trans h2).trans h3, hshadow3, hpointer3⟩

/-- Settles O18: the address phase sets the pointer, from which the data bytes are streamed. -/
theorem writeTransactionLaw : Obligations.WriteTransactionLaw := by
  unfold Obligations.WriteTransactionLaw
  intro s hi lo ds hh hs
  have hsched : s.sched = evTurns 0x05 (addrByte false) ++ (evTurns 0x15 hi ++ (evTurns 0x15 lo ++ dataTurns ds)) := by
    rw [hs]
    simp [i2cWrite, dataTurns, stopTurns]
  obtain ⟨u, hrun, hu, hshadow, hpointer⟩ := run_address hsched hh (2 * ds.length)
  have hphase : phaseInt u.dec.phaseCount = 1 := by rw [hu.phaseCount]; rfl
  obtain ⟨t, hdata, ht⟩ := run_dataTurns ds hu.sched hu.sclHeld hphase.ge
  have hstream := writeStream_congr hu.mem hu.trace (word16 hi lo) ds
  refine ⟨t, ?_, ?_, ht.shadow.trans hshadow, ?_, ht.sclHeld, ht.txReg.trans hu.txReg, ?_, ?_, ht.sched,
    ht.ports.trans hu.ports, ht.telem.trans hu.telem⟩
  · rw [Nat.mul_add]
    exact hrun.trans hdata
  · rw [ht.pointer, hpointer]
  · rw [ht.phaseCount, hphase, Int.add_comm]
  · rw [ht.mem, hpointer, hstream.1]
  · rw [ht.trace, hpointer, hstream.2]

/-! ## The read transaction -/

/-- A read turn: the byte at the pointer is pre-loaded and the pointer moves on (R139, R140). -/
theorem exec_readEvent {w : BitVec 5} (hp : statP w = false) (hr : statRW w = true) (ph : Phase) (s : State) :
    ∃ ph' bf, exec (decodeEvent ph w) s = .next { s with
      dec := { afterEvent ph' bf .streamRead true s.dec with
        txReg := asGet s s.dec.pointer
        pointer := s.dec.pointer + 1 } } := by
  cases hd : statDA w with
  | false =>
    rw [decodeEvent_of_readAddress hp hr hd, exec_i2cRaddr]
    exact ⟨_, _, congrArg _ (closeEvent_readTurn_openEvent _ _ _ _ s)⟩
  | true =>
    rw [decodeEvent_of_readNext hp hr hd, exec_i2cRnext]
    exact ⟨_, _, congrArg _ (closeEvent_readTurn_openEvent _ _ _ _ s)⟩

/-- The bytes that `k` reads from the address `a` on send to the master, in order. -/
def readRecords (s : State) (a : Addr) (k : Nat) : List Record :=
  (List.range k).map fun i => .tx (asGet s (a + BitVec.ofNat 16 i))

/-- `t` is `s` after `k` sampled read turns. -/
structure AfterReads (k : Nat) (rest : List Turn) (s t : State) : Prop where
  pointer : t.dec.pointer = s.dec.pointer + BitVec.ofNat 16 k
  shadow : t.dec.shadow = s.dec.shadow
  sclHeld : t.dec.sclHeld = false
  trace : t.trace = s.trace ++ readRecords s s.dec.pointer k
  params : t.params = s.params
  mem : t.mem = s.mem
  sched : t.sched = rest
  ports : t.ports = s.ports
  telem : t.telem = s.telem

/-- A first read, then `k` more from the address it left. -/
theorem AfterReads.cons {k : Nat} {rest rest' : List Turn} {s u t : State} (h1 : AfterReads 1 rest' s u)
    (h2 : AfterReads k rest u t) : AfterReads (k + 1) rest s t where
  pointer := by
    rw [h2.pointer, h1.pointer, Nat.add_comm, BitVec.ofNat_add, BitVec.add_assoc]
  shadow := h2.shadow.trans h1.shadow
  sclHeld := h2.sclHeld
  trace := by
    have hread : ∀ a, asGet u a = asGet s a := asGet_congr h1.params h1.mem h1.telem
    have hshift : ∀ i, s.dec.pointer + BitVec.ofNat 16 1 + BitVec.ofNat 16 i = s.dec.pointer + BitVec.ofNat 16 (i + 1) := by
      intro i
      rw [BitVec.add_assoc, ← BitVec.ofNat_add, Nat.add_comm]
    rw [h2.trace, h1.trace, List.append_assoc]
    simp only [readRecords, h1.pointer, hread, hshift, List.range_succ_eq_map, List.range_zero, List.map_cons, List.map_nil,
      List.map_map, List.cons_append, List.nil_append, Function.comp_def]
  params := h2.params.trans h1.params
  mem := h2.mem.trans h1.mem
  sched := h2.sched
  ports := h2.ports.trans h1.ports
  telem := h2.telem.trans h1.telem

/-- A read event and its sample run in three steps (46_environment.md R242, R243). -/
theorem run_sampledRead {s : State} {w : BitVec 5} {rx : Byte} {rest : List Turn} (hp : statP w = false) (hr : statRW w = true)
    (hs : s.sched = evTurns w rx ++ .i2cpSample :: rest) (hh : s.dec.sclHeld = false) (n : Nat) :
    ∃ t, Host.Core.run core (n + 3) s = Host.Core.run core n t ∧ AfterReads 1 rest s t := by
  obtain ⟨ph, bf, hx⟩ := exec_readEvent hp hr s.dec.phaseCount (raised w rx (.i2cpSample :: rest) s)
  rw [show n + 3 = n + 1 + 2 from rfl, run_event hs hh hx]
  have hread : asGet (raised w rx (.i2cpSample :: rest) s) s.dec.pointer = asGet s s.dec.pointer := asGet_congr rfl rfl rfl _
  refine ⟨_, run_succ (by rw [step_of_sched rfl]; rfl) n, ?_⟩
  refine ⟨rfl, rfl, rfl, ?_, rfl, rfl, rfl, rfl, rfl⟩
  have hzero : s.dec.pointer + BitVec.ofNat 16 0 = s.dec.pointer := BitVec.add_zero _
  simp only [readRecords, List.range_one, List.map_cons, List.map_nil, hzero, ← hread]
  rfl

/-- The further reads of a transaction. -/
theorem run_readTurns (k : Nat) {s : State} (hs : s.sched = readTurns k) (hh : s.dec.sclHeld = false) :
    ∃ t, Host.Core.run core (3 * k) s = .next t ∧ AfterReads k [] s t := by
  induction k generalizing s with
  | zero => exact ⟨s, rfl, by simp, rfl, hh, by simp [readRecords], rfl, rfl, hs, rfl, rfl⟩
  | succ k ih =>
    obtain ⟨u, hfirst, hu⟩ := run_sampledRead (by decide) (by decide) hs hh (3 * k)
    obtain ⟨t, hrest, ht⟩ := ih hu.sched hu.sclHeld
    exact ⟨t, hfirst.trans hrest, hu.cons ht⟩

/-- Settles O19: the address read turn, then one read turn per further byte. -/
theorem readTransactionLaw : Obligations.ReadTransactionLaw := by
  unfold Obligations.ReadTransactionLaw
  intro s k hh hs
  have hsched : s.sched = evTurns 0x07 (addrByte true) ++ .i2cpSample :: readTurns k := by
    rw [hs]
    simp [i2cRead, nackTurns, stopTurns]
  obtain ⟨u, hfirst, hu⟩ := run_sampledRead (by decide) (by decide) hsched hh (3 * k)
  obtain ⟨t, hrest, ht⟩ := run_readTurns k hu.sched hu.sclHeld
  have hall := hu.cons ht
  exact ⟨t, hfirst.trans hrest, hall.pointer, hall.shadow, hall.sclHeld, hall.trace, hall.mem, hall.sched, hall.ports, hall.telem⟩

end Sys2Proof.Machine
end

section
/-! What each operation of unit FIFO does (42_fifo_in.md, 43_fifo_out.md,
44_port_control.md), and what is refused (30_encoding.md R108). -/

namespace Sys2Proof.Machine

/-! ## The state after an operation, written out -/

theorem runOn_of_inited {p : Nat} {q : Port} {s : State} (hq : s.ports[p]? = some q) (hi : q.inited = true) (op : PortOp) :
    op.runOn p s = (op.onInited s.params p q).outcome p s := by
  simp only [PortOp.runOn, hq, PortOp.effect, hi, if_true]

theorem place_emits (p : Nat) (q : Port) (out : List Record) (s : State) :
    place p q out .clear s = { s with ports := s.ports.set p q, trace := s.trace ++ out } := rfl

theorem place_silent (p : Nat) (q : Port) (s : State) : place p q [] .clear s = { s with ports := s.ports.set p q } := by
  rw [place_emits, List.append_nil]

theorem place_holds_app (p : Nat) (q : Port) (h : AppHold) (s : State) :
    place p q [] (.app h) s = { s with ports := s.ports.set p q, appHold := some h } := by
  simp [place, emitAll, setPort]

theorem place_holds_tick (p : Nat) (q : Port) (p' : Nat) (s : State) :
    place p q [] (.tick p') s = { s with ports := s.ports.set p q, tickHold := some p' } := by
  simp [place, emitAll, setPort]

/-! ## The hand-off, written out -/

section
variable {q : Port}

/-- A hand-off that a `PUT` makes in the step that fills the buffer (R170, R172). -/
theorem handoff_put_eq (len : Byte) :
    finishIn .put (grantIn len q) = { q with
      inLen := 0
      activeInIsA := !q.activeInIsA
      inWait := none
      zlpPending := true
      inDesc := ⟨true, q.activeInIsA, len, !q.inDesc.toggle⟩ } := rfl

/-- A hand-off that a flush makes, with its guard cleared (R170, R173). -/
theorem handoff_flush_eq (len : Byte) :
    finishIn .flush (grantIn len q) = { q with
      inLen := 0
      activeInIsA := !q.activeInIsA
      inWait := none
      zlpPending := false
      flushInProgress := false
      inDesc := ⟨true, q.activeInIsA, len, !q.inDesc.toggle⟩ } := rfl

end

/-- Every byte of the IN buffers after one was appended (R172). -/
theorem lookup_appendIn (q : Port) (b : Byte) (isA : Bool) (i : Nat) :
    cellLookup ((appendIn b q).inBuf.sel isA) i =
      if isA = q.activeInIsA ∧ i = q.inLen.toNat then some b else cellLookup (q.inBuf.sel isA) i := by
  rw [appendIn_inBuf]
  by_cases hA : isA = q.activeInIsA
  · subst hA
    simp only [BufPair.sel_upd_self, cellLookup_insert, true_and]
  · obtain rfl : isA = !q.activeInIsA := Bool.eq_not.mpr hA
    rw [BufPair.sel_upd_not, if_neg fun h => hA h.1]

/-! ## `PUT` -/

section
variable {s : State} {p : Nat} {b : Byte} {q : Port} (hq : s.ports[p]? = some q) (hi : q.inited = true)
include hq hi

/-- A `PUT` at its first line while a hand-off is pending only marks its hold (R177). -/
theorem execPut_of_wait (hw : q.inWait ≠ none) : exec (.put p b) s = .next { s with appHold := some (.putEntry p b) } := by
  obtain ⟨w, hw⟩ := Option.ne_none_iff_exists'.mp hw
  rw [exec_portOp rfl, runOn_of_inited hq hi]
  simp only [PortOp.onInited, hw, PortResult.outcome, place_same hq, Mark.set_app]

/-- A `PUT` past its first line that does not fill the buffer (R172). -/
theorem execPut_of_room (hw : q.inWait = none) (hn : (q.inLen + 1).toNat ≠ s.params.packetSize) :
    exec (.put p b) s = .next { s with ports := s.ports.set p (appendIn b q) } := by
  rw [exec_portOp rfl, runOn_of_inited hq hi]
  simp only [PortOp.onInited, hw]
  rw [if_neg (by exact hn), PortResult.outcome, place_silent]

/-- The `PUT` that fills the buffer requests a hand-off of it (R172). -/
theorem execPut_of_full (hw : q.inWait = none) (hn : (q.inLen + 1).toNat = s.params.packetSize) :
    exec (.put p b) s = ((handoffIn p (BitVec.ofNat 8 s.params.packetSize) .put (appendIn b q)).result
      (.app (.putHandoff p))).outcome p s := by
  rw [exec_portOp rfl, runOn_of_inited hq hi]
  simp only [PortOp.onInited, hw]
  rw [if_pos (by exact hn)]

end

/-- Settles O24: the byte is inserted at index `inLen` of the buffer being filled. -/
theorem putAppends : Obligations.PutAppends := by
  unfold Obligations.PutAppends
  intro s p b q hq hi hw hn
  exact ⟨(appendIn b q).inBuf, execPut_of_room hq hi hw hn, lookup_appendIn q b⟩

/-- Settles O25: the append, and the hand-off of the full buffer to a free descriptor. -/
theorem putLastByteHandsOff : Obligations.PutLastByteHandsOff := by
  unfold Obligations.PutLastByteHandsOff
  intro s p b q hq hi hw hn ho
  refine ⟨(appendIn b q).inBuf, ?_, lookup_appendIn q b⟩
  rw [execPut_of_full hq hi hw hn, handoffIn_free (by exact ho), handoff_put_eq, hw]
  rfl

/-- Settles O26: the entry hold, and the hand-off hold of the full buffer while the descriptor is owned. -/
theorem putHolds : Obligations.PutHolds := by
  unfold Obligations.PutHolds
  intro s p b q hq hi
  refine ⟨execPut_of_wait hq hi, fun hw hn ho => ⟨(appendIn b q).inBuf, ?_, lookup_appendIn q b⟩⟩
  rw [execPut_of_full hq hi hw hn, handoffIn_owned (by exact ho)]
  simp only [PortStep.result, PortResult.outcome, place_holds_app]
  rfl

/-! ## `FLUSH` -/

section
variable {s : State} {p : Nat} {q : Port} (hq : s.ports[p]? = some q) (hi : q.inited = true)
include hq hi

theorem execFlush_past_entry (hw : q.inWait = none) :
    exec (.flush p) s = ((flushPort p q).result (.app (.flushHandoff p))).outcome p s := by
  rw [exec_portOp rfl, runOn_of_inited hq hi]
  simp only [PortOp.onInited, hw]

/-- A flush with nothing to do changes nothing (R173, R174). -/
theorem execFlush_of_quiet (hw : q.inWait = none) (h : q.flushInProgress = true ∨ (q.inLen = 0 ∧ q.zlpPending = false)) :
    exec (.flush p) s = .next s := by
  rw [execFlush_past_entry hq hi hw, flushPort_quiet h]
  exact congrArg Host.Outcome.next (place_same hq .clear)

end

/-- Settles O27: with the descriptor free a flush that sends completes at once, and the others are quiet. -/
theorem flushCompletes : Obligations.FlushCompletes := by
  unfold Obligations.FlushCompletes
  intro s p q hq hi hw ho
  split_ifs with hs
  · rw [execFlush_past_entry hq hi hw, flushPort_sends hs.1 hs.2, handoffIn_free (by exact ho), handoff_flush_eq, hw, hs.1]
    rfl
  · refine execFlush_of_quiet hq hi hw ?_
    rw [not_and_or, not_or, not_not, Bool.not_eq_false, Bool.not_eq_true] at hs
    exact hs

/-- Settles O29: the entry hold, the hand-off hold under the guard, and the quiet flush. -/
theorem flushHolds : Obligations.FlushHolds := by
  unfold Obligations.FlushHolds
  intro s p q hq hi
  refine ⟨fun hw => ?_, fun hw ho hg hs => ?_, fun hw _ hl hz => execFlush_of_quiet hq hi hw (.inr ⟨hl, hz⟩)⟩
  · obtain ⟨w, hw⟩ := Option.ne_none_iff_exists'.mp hw
    rw [exec_portOp rfl, runOn_of_inited hq hi]
    simp only [PortOp.onInited, hw, PortResult.outcome, place_same hq, Mark.set_app]
  · rw [execFlush_past_entry hq hi hw, flushPort_sends hg hs, handoffIn_owned (by exact ho)]
    simp only [PortStep.result, PortResult.outcome, place_holds_app]

/-! ## `TICK` -/

section
variable {s : State} {p : Nat} {q : Port} (hq : s.ports[p]? = some q) (hi : q.inited = true)
include hq hi

/-- Below the threshold a tick counts (R175). -/
theorem execTick_below (hn : (q.timeoutCounter + 1).toNat < s.params.flushTicks) :
    exec (.tick p) s = .next { s with ports := s.ports.set p (countTick q) } := by
  rw [exec_portOp rfl, runOn_of_inited hq hi]
  simp only [PortOp.onInited]
  rw [if_neg (not_le.mpr (by exact hn)), PortResult.outcome, place_silent]

/-- At the threshold a tick flushes as its policy says (R175, R294). -/
theorem execTick_at (hn : s.params.flushTicks ≤ (q.timeoutCounter + 1).toNat) :
    exec (.tick p) s =
      ((tickFlush p s.params.tickFlushBlocks (countTick q)).result (.tick p)).outcome p s := by
  rw [exec_portOp rfl, runOn_of_inited hq hi]
  simp only [PortOp.onInited]
  rw [if_pos (by exact hn)]

end

/-- A tick that sends nothing restarts the count: it skips the flush, or the flush is quiet (R175, R176, R294). -/
theorem tickFlush_silent {p : Nat} {blocks : Bool} {q : Port}
    (h : q.inWait ≠ none ∨ (blocks = false ∧ q.inDesc.owned = true) ∨ q.flushInProgress = true ∨
      (q.inLen = 0 ∧ q.zlpPending = false)) : tickFlush p blocks q = .done { q with timeoutCounter := 0 } [] := by
  unfold tickFlush
  split_ifs with hflush
  · obtain ⟨hw, hb⟩ := hflush
    rcases h with h | ⟨h1, h2⟩ | h
    · exact absurd hw h
    · rw [h1, h2] at hb
      simp at hb
    · rw [flushPort_quiet h]
      rfl
  · rfl

/-- Settles O30: below the threshold the tick counts, at it the count restarts. -/
theorem tickCounts : Obligations.TickCounts := by
  unfold Obligations.TickCounts
  intro s p q hq hi
  refine ⟨fun hn => execTick_below hq hi hn, fun hn h => ?_⟩
  rw [execTick_at hq hi hn, tickFlush_silent (by exact h), PortStep.result, PortResult.outcome, place_silent]
  rfl

/-- A tick that may flush a port with something to send requests the hand-off under the guard (R175). -/
theorem tickFlush_sends {p : Nat} {blocks : Bool} {q : Port} (hw : q.inWait = none)
    (hb : blocks = true ∨ q.inDesc.owned = false) (hg : q.flushInProgress = false)
    (hs : q.inLen ≠ 0 ∨ q.zlpPending = true) :
    tickFlush p blocks q = resetTicks (handoffIn p q.inLen .flush { q with flushInProgress := true }) := by
  rw [tickFlush, if_pos ⟨hw, hb⟩, flushPort_sends hg hs]

/-- Settles O31: the forced flush completes with the count restarted, or stands at the hold with it at the threshold. -/
theorem tickForcesFlush : Obligations.TickForcesFlush := by
  unfold Obligations.TickForcesFlush
  intro s p q hq hi hw hg hs hn
  have hsends := fun hb => tickFlush_sends (p := p) (blocks := s.params.tickFlushBlocks) (q := countTick q) hw hb hg hs
  constructor
  · intro ho
    rw [execTick_at hq hi hn, hsends (.inr ho),
      handoffIn_free (by exact ho), handoff_flush_eq]
    simp only [resetTicks, PortStep.result, PortResult.outcome, place_emits, countTick, hw, hg, submitRecord]
  · intro ho hb
    rw [execTick_at hq hi hn, hsends (.inl hb), handoffIn_owned (by exact ho)]
    simp only [resetTicks, PortStep.result, PortResult.outcome, place_holds_tick, countTick]

/-! ## Holds that stand and holds that are lifted -/

/-- Settles O32: the pending hand-off is granted with its length and the flags of its command. -/
theorem liftedHandoffCompletes : Obligations.LiftedHandoffCompletes := by
  unfold Obligations.LiftedHandoffCompletes
  intro s rest p q w hq hi hw ho
  have hlen : pendingLen q = w.len := by rw [pendingLen, hw]
  have hresume : ∀ o, resumeIn p o q = .done (finishIn o (grantIn w.len q)) [submitRecord p w.len q] := fun o => by
    rw [resumeIn, if_neg (by simp [ho]), hlen]
  refine ⟨fun hs hh => ?_, fun hs hh => ?_, fun hs hh => ?_⟩
  · rw [step_app_goesOn hs hh, resumeApp_eq, holdOp, holdPort, runOn_of_inited (by exact hq) hi]
    simp only [PortOp.onInited, hresume, handoff_put_eq]
    rfl
  · rw [step_app_goesOn hs hh, resumeApp_eq, holdOp, holdPort, runOn_of_inited (by exact hq) hi]
    simp only [PortOp.onInited, hresume, handoff_flush_eq]
    rfl
  · rw [step_tick_goesOn hs hh, resumeTick_eq, runOn_of_inited (by exact hq) hi]
    simp only [PortOp.onInited, hresume, handoff_flush_eq]
    rfl

/-- A turn of `APP` at a hold whose operation only marks that hold again changes nothing but the schedule. -/
theorem step_app_stands {s : State} {rest : List Turn} {h : AppHold} {q : Port} (hs : s.sched = .app :: rest)
    (hh : s.appHold = some h) (hq : s.ports[holdPort h]? = some q) (hi : q.inited = true)
    (hm : (holdOp h).onInited s.params (holdPort h) q = .next q [] (.app h)) : step s = .next { s with sched := rest } := by
  rw [step_app_goesOn hs hh, resumeApp_eq, runOn_of_inited (by exact hq) hi]
  simp only [hm, PortResult.outcome]
  rw [place_same (by exact hq), Mark.set_app, ← hh]

/-- Settles O9: each of these operations marks its hold again. -/
theorem holdStandsUntilHardwareLifts : Obligations.HoldStandsUntilHardwareLifts := by
  unfold Obligations.HoldStandsUntilHardwareLifts
  have hresume : ∀ {p o} {q : Port}, q.inDesc.owned = true → resumeIn p o q = .held q := fun ho => by
    rw [resumeIn, if_pos ho]
  refine ⟨fun s rest c p hs hh => step_tick_lost hs hh, ?_, ?_, ?_, ?_⟩
  · rintro s rest p q hs hq hi ho (hh | hh)
    · exact step_app_stands hs hh hq hi (by simp only [holdOp, holdPort, PortOp.onInited, hresume ho, PortStep.result])
    · exact step_app_stands hs hh hq hi (by simp only [holdOp, holdPort, PortOp.onInited, hresume ho, PortStep.result])
  · intro s rest p q hs hq hi ho hh
    rw [step_tick_goesOn hs hh, resumeTick_eq, runOn_of_inited (by exact hq) hi]
    simp only [PortOp.onInited, hresume ho, resetTicks, PortStep.result, PortResult.outcome]
    rw [place_same (by exact hq), Mark.set_tick, ← hh]
  · intro s rest p q hs hq hi hl ho hh
    exact step_app_stands hs hh hq hi (by simp [holdOp, holdPort, PortOp.onInited, hl, ho])
  · intro s rest p q b hs hq hi hw hh
    obtain ⟨w, hw⟩ := Option.ne_none_iff_exists'.mp hw
    rcases hh with hh | hh
    · exact step_app_stands hs hh hq hi (by simp only [holdOp, holdPort, PortOp.onInited, hw])
    · exact step_app_stands hs hh hq hi (by simp only [holdOp, holdPort, PortOp.onInited, hw])

/-! ## `GET` and `PEEK` -/

/-- The byte after a swap is the first of the packet (R200, R205). -/
theorem nextOut_swapOut (n : Nat) (q : Port) : nextOut (swapOut n q) = cellLookup (q.outBuf.sel q.outDesc.bufIsA) 0 := by
  simp [nextOut, readIndex]

/-- Settles O35: with bytes left the next one is returned and consumed. -/
theorem getReturnsNextByte : Obligations.GetReturnsNextByte := by
  unfold Obligations.GetReturnsNextByte
  intro s p q b hq hi hl hb
  have hnext : nextOut q = some b := hb
  rw [exec_portOp rfl, runOn_of_inited hq hi]
  simp only [PortOp.onInited, takeResult, hnext]
  rw [if_pos hl]
  rfl

/-- Settles O36: with none left the command holds, or swaps and then takes a byte or holds. -/
theorem getSwapsOrHolds : Obligations.GetSwapsOrHolds := by
  unfold Obligations.GetSwapsOrHolds
  intro s p q hq hi hl
  have hlz : ¬ q.outLen ≠ 0 := not_not.mpr hl
  have hfree : q.outDesc.owned = false → ¬ q.outDesc.owned = true := fun ho => by simp [ho]
  refine ⟨fun ho => ?_, fun ho hc => ?_, fun b ho hc hb => ?_⟩
  all_goals
    rw [exec_portOp rfl, runOn_of_inited hq hi]
    simp only [PortOp.onInited]
    rw [if_neg hlz]
  · rw [if_pos ho, PortResult.outcome, place_same hq, Mark.set_app]
  · rw [if_neg (hfree ho), if_neg (not_not.mpr hc), PortResult.outcome, swapOut, hc, hl]
    rfl
  · have hnext : nextOut (swapOut s.params.packetSize q) = some b := (nextOut_swapOut _ q).trans hb
    rw [if_neg (hfree ho), if_pos hc, takeResult, hnext]
    rfl

/-- Settles O37: the answer is the next byte, after a swap if one is due and possible. -/
theorem peekAnswersOnce : Obligations.PeekAnswersOnce := by
  unfold Obligations.PeekAnswersOnce
  intro s p q hq hi
  have hkeeps : ∀ out, place p q out .clear s = { s with trace := s.trace ++ out } := fun out => by
    rw [place, setPort_self hq]
    rfl
  refine ⟨fun b hl hb => ?_, fun hl ho => ?_, fun a hl ho ha => ?_⟩
  all_goals
    rw [exec_portOp rfl, runOn_of_inited hq hi]
    simp only [PortOp.onInited]
  · have hnext : nextOut q = some b := hb
    rw [if_neg fun h => hl h.1, peekResult, if_neg hl, hnext]
    exact congrArg Host.Outcome.next (hkeeps _)
  · rw [if_neg fun h => by rw [ho] at h; exact absurd h.2 (by simp), peekResult, if_pos hl]
    exact congrArg Host.Outcome.next (hkeeps _)
  · have hanswer : peekResult (swapOut s.params.packetSize q) [armRecord p q] =
        .next (swapOut s.params.packetSize q) [armRecord p q, .ret (.peek a)] .clear := by
      rcases ha with ⟨rfl, hc⟩ | ⟨hc, hne, hb⟩
      · rw [peekResult, if_pos (by exact hc)]
        rfl
      · obtain ⟨b, rfl⟩ := Option.ne_none_iff_exists'.mp hne
        rw [peekResult, if_neg (by exact hc), (nextOut_swapOut _ q).trans hb]
        rfl
    rw [if_pos ⟨hl, ho⟩, hanswer]
    rfl

/-! ## Port control -/

/-- Settles O38: `INIT` of a fresh port, and of an initialised one. -/
theorem initEffect : Obligations.InitEffect := by
  unfold Obligations.InitEffect
  intro s p q hq
  constructor
  · intro hi
    rw [exec_portOp rfl]
    simp only [PortOp.runOn, hq, PortOp.effect, hi]
    rfl
  · intro hi
    rw [exec_portOp rfl, runOn_of_inited hq hi]
    rfl

/-- Settles O39: the rate, then the range of its divisor. -/
theorem setLineCodingEffect : Obligations.SetLineCodingEffect := by
  unfold Obligations.SetLineCodingEffect
  intro s p q c hq hi quo r d
  have hd : divisorOf s.params.clockFreq c.baudRate.toNat = d := rfl
  refine ⟨fun h0 => ?_, fun w h0 hw => ?_, fun h0 hrange => ?_⟩
  all_goals
    rw [exec_portOp rfl, runOn_of_inited hq hi]
    simp only [PortOp.onInited, hd]
  · rw [if_pos h0]
    rfl
  · have hlt := w.isLt
    rw [if_neg h0, if_pos ⟨by omega, by omega⟩, hw, BitVec.ofInt_natCast, BitVec.ofNat_toNat, BitVec.setWidth_eq]
    rfl
  · rw [if_neg h0, if_neg (by omega)]
    rfl

/-- The quotient rounded half up, from the quotient and the remainder. -/
theorem round_half_up_eq (clock : Nat) {baud : Nat} (h : 0 < baud) :
    (2 * clock + baud) / (2 * baud) = clock / baud + if baud > 2 * (clock % baud) then 0 else 1 := by
  have hdiv := Nat.div_add_mod clock baud
  have hmod := Nat.mod_lt clock h
  have hsplit : 2 * clock + baud = 2 * baud * (clock / baud) + (2 * (clock % baud) + baud) := by
    conv_lhs => rw [← hdiv]
    ring
  rw [hsplit, Nat.mul_add_div (by omega)]
  congr 1
  split_ifs with hr
  · exact Nat.div_eq_of_lt (by omega)
  · exact Nat.div_eq_of_lt_le (by omega) (by omega)

/-- Settles O40: the divisor is the rounded quotient less one, and is negative when that quotient is 0. -/
theorem divisorRoundsHalfUp : Obligations.DivisorRoundsHalfUp := by
  unfold Obligations.DivisorRoundsHalfUp
  intro clock baud h
  have hround : divisorOf clock baud + 1 = (((2 * clock + baud) / (2 * baud) : Nat) : Int) := by
    rw [round_half_up_eq clock h, divisorOf]
    split_ifs <;> push_cast <;> ring
  refine ⟨hround, ?_⟩
  have hzero : (2 * clock + baud) / (2 * baud) = 0 ↔ 2 * clock + baud < 2 * baud :=
    Nat.div_eq_zero_iff_lt (by omega)
  generalize (2 * clock + baud) / (2 * baud) = r at hround hzero
  have hneg : divisorOf clock baud < 0 ↔ r = 0 := by omega
  rw [hneg, hzero]
  omega

/-! ## Refusals -/

/-- A stop-bits code above 2 stands for nothing (R108 (d)). -/
theorem stopBitsOf_of_gt {f : Byte} (h : 2 < f.toNat) : stopBitsOf f = none := by
  unfold stopBitsOf
  split
  case h_4 => rfl
  all_goals omega

theorem exists_stopBitsOf {f : Byte} (h : f.toNat ≤ 2) : ∃ b, stopBitsOf f = some b := by
  unfold stopBitsOf
  interval_cases f.toNat
  all_goals exact ⟨_, rfl⟩

/-- A parity code above 4 stands for nothing (R108 (d)). -/
theorem parityOf_of_gt {y : Byte} (h : 4 < y.toNat) : parityOf y = none := by
  unfold parityOf
  split
  case h_6 => rfl
  all_goals omega

/-- A `SETLC` whose payload stands for no coding decodes to what is wrong with it. -/
theorem decodeCommand_setlc_error {w : BitVec 16} {payload : List Byte} {e : DecodeError} (hop : cmdOp w = 8)
    (he : codingOf payload = .error e) : decodeCommand ⟨w, payload⟩ = .error e := by
  simp only [decodeCommand, hop, he]

/-- Settles O44: who is refused, by the port, the payload or the word. -/
theorem refusedCommands : Obligations.RefusedCommands := by
  unfold Obligations.RefusedCommands
  refine ⟨fun s w => rfl, ?_, ?_, ?_, ?_⟩
  · intro s i p hp hlen
    obtain ⟨op, hop⟩ := portOp_of_portOf hp
    have habsent : op.absent = .badPort := by cases i <;> cases hop <;> rfl
    rw [exec_portOp hop]
    simp only [PortOp.runOn, List.getElem?_eq_none hlen, habsent]
  · intro s i p q hp hq hi hne
    obtain ⟨op, hop⟩ := portOp_of_portOf hp
    have hfresh : op.onFresh s.params p q = .refused .notInited := by
      cases i <;> cases hop
      case init.refl => exact absurd rfl hne
      all_goals rfl
    rw [exec_portOp hop]
    simp only [PortOp.runOn, hq, PortOp.effect, hi, hfresh]
    rfl
  · intro w r0 r1 r2 r3 f y d hop
    refine ⟨fun hf => decodeCommand_setlc_error hop ?_, fun hf hy => decodeCommand_setlc_error hop ?_⟩
    · simp only [codingOf, stopBitsOf_of_gt hf]
    · obtain ⟨stop, hstop⟩ := exists_stopBitsOf hf
      simp only [codingOf, hstop, parityOf_of_gt hy]
  · intro s rest c cs e hs hh hp hd
    rw [step_app_issues hs hh hp, issue_of_undecoded hd]

end Sys2Proof.Machine
end

section
/-! What each turn of the external agents does: the endpoint hardware, the I2C peripheral and the producers
(46_environment.md R240 to R246). -/

namespace Sys2Proof.Machine

/-! ## The endpoint hardware -/

/-- Settles O45: the granted bytes read back as the packet. -/
theorem inDoneEffect : Obligations.InDoneEffect := by
  unfold Obligations.InDoneEffect
  intro s rest p q bytes hs hq hi ho hlen hget
  have hread : readRun (q.inBuf.sel q.inDesc.bufIsA) 0 q.inDesc.count.toNat = some bytes :=
    (readRun_eq _ _ _ _).mpr ⟨hlen, fun i hlt => by rw [Nat.zero_add, hget i (hlen ▸ hlt)]⟩
  rw [step_inDone hs, runOn_of_inited (by exact hq) hi]
  simp only [PortOp.onInited, ho, hread, if_true]
  rfl

/-- Settles O46: the armed buffer is replaced by the packet, and only that one. -/
theorem outDoneEffect : Obligations.OutDoneEffect := by
  unfold Obligations.OutDoneEffect
  intro s rest p q bytes hs hq hi ho hle
  refine ⟨q.outBuf.upd q.outDesc.bufIsA (cellsFrom 0 bytes), ?_, BufPair.sel_upd_not _ _ _, fun i => ?_⟩
  · rw [step_outDone hs, runOn_of_inited (by exact hq) hi]
    simp only [PortOp.onInited]
    rw [if_pos ⟨ho, hle⟩, PortResult.outcome, place_silent]
    rfl
  · rw [BufPair.sel_upd_self, cellLookup_cellsFrom, if_pos (Nat.zero_le i), Nat.sub_zero]

/-! ## The peripheral -/

section
variable (s : State)

theorem envEvent_of_free (stat : BitVec 5) (rx : Byte) (h : s.dec.sclHeld = false) :
    envEvent stat rx s = .next { s with dec := raiseEvent stat rx s.dec } := by
  simp [envEvent, h]

theorem envEvent_of_pending (stat : BitVec 5) (rx : Byte) (h : s.dec.sclHeld = true) :
    envEvent stat rx s = .refused .notEnabled := by
  simp [envEvent, h]

theorem envSample_of_due (hfree : s.dec.sclHeld = false) (hdue : s.dec.sampleDue = true) :
    envSample s = .next { s with
      dec := { s.dec with sampleDue := false }
      trace := s.trace ++ [.tx s.dec.txReg] } :=
  if_pos ⟨hfree, hdue⟩

theorem envSample_of_idle (h : s.dec.sclHeld = true ∨ s.dec.sampleDue = false) : envSample s = .refused .notEnabled := by
  refine if_neg fun hdue => ?_
  rcases h with h | h <;> simp [h] at hdue

end

/-! ## The producers -/

theorem outputAddr_toNat (i : Fin 3) : (outputAddr i).toNat = 0x0800 + i.val := by
  have := i.isLt
  rw [outputAddr, BitVec.toNat_add, BitVec.toNat_ofNat, show (0x0800 : Addr).toNat = 0x0800 from rfl]
  omega

/-- A producer's write stores its Outputs byte and emits nothing (20_memory.md R68). -/
theorem execAsset_output (i : Fin 3) (v : Byte) (s : State) :
    execAsset (outputAddr i) v s = .next { s with mem := memAfter (outputAddr i) v s.mem } := by
  have haddr := outputAddr_toNat i
  have hlt := i.isLt
  have hsilent : writeRecords (outputAddr i) = [] := by
    rw [writeRecords, if_neg]
    intro h
    rw [h, show reenumAddr.toNat = 0x070F from rfl] at haddr
    omega
  rw [execAsset, asSet_eq, hsilent, List.append_nil]

/-- After a producer's write its own byte alone reads differently. -/
theorem asGet_output (i : Fin 3) (v : Byte) (s : State) (b : Addr) :
    asGet { s with mem := memAfter (outputAddr i) v s.mem } b = if b.toNat = 0x0800 + i.val then v else asGet s b := by
  have hlt := i.isLt
  have hsame : b = outputAddr i ↔ b.toNat = 0x0800 + i.val := by
    rw [← outputAddr_toNat, BitVec.toNat_inj]
  have hwritable : writableAt (outputAddr i).toNat = true := by
    rw [writableAt_iff, outputAddr_toNat]
    omega
  have hread : asGet { s with mem := memAfter (outputAddr i) v s.mem } b = asGet (asSet (outputAddr i) v s) b := by
    rw [asSet_eq]
    exact asGet_congr rfl rfl rfl b
  rw [hread, asGet_asSet]
  simp only [hsame, hwritable, and_true]

/-- Settles O47: each turn of the peripheral and the producers, enabled and not. -/
theorem peripheralStepsEffect : Obligations.PeripheralStepsEffect := by
  unfold Obligations.PeripheralStepsEffect
  intro s rest
  refine ⟨fun stat rx hs hfree => ?event, fun stat rx hs hheld => ?pending, fun hs hfree hdue => ?sample, fun hs hidle => ?idle,
    fun hs => ?wcol, fun hs => ?rxovf, fun ch rec hs hch => ?telem, fun ch rec hs hch => ?absent, fun hs => ?pointer,
    fun a hs => ?get, fun i v hs => ?output⟩
  case output =>
    refine ⟨memAfter (outputAddr i) v s.mem, ?_, asGet_output i v s⟩
    rw [step_of_sched hs, runTurn, execAsset_output]
  all_goals rw [step_of_sched hs, runTurn]
  case event => exact envEvent_of_free _ stat rx hfree
  case pending => exact envEvent_of_pending _ stat rx hheld
  case sample => exact envSample_of_due _ hfree hdue
  case idle => exact envSample_of_idle _ hidle
  case wcol => rfl
  case rxovf => rfl
  case telem => exact if_pos hch
  case absent => exact if_neg (Nat.not_lt.mpr hch)
  case pointer => rfl
  case get => rfl

end Sys2Proof.Machine
end
